-- ==== Sys2Proof/Word.lean ====
section
/-! DEFINITION. The words of the GIF-LZW block: bytes, 16-bit fields, 12-bit codes, palette triples,
dictionary entries (00_scope R7, 10_state R29, R38, R39). -/

namespace Sys2Proof

/-- A byte: 8 bits, value 0 to 255 (R7). -/
abbrev Byte := BitVec 8

/-- A 16-bit field of the container (R66). -/
abbrev Half := BitVec 16

/-- An LZW code as a register holds it: 12 bits (R38 `CODE`, `PREV`; R39 `PREFIX`). -/
abbrev Code := BitVec 12

/-- A palette entry: R, G, B, 8 bits each (R29). -/
structure Rgb where
  r : Byte
  g : Byte
  b : Byte
  deriving DecidableEq, Repr, Inhabited

/-- A dictionary entry: a 12-bit prefix code and an 8-bit suffix pixel (R39). The prefix is called
`pre` here. -/
structure DictEntry where
  pre : Code
  suffix : Byte
  deriving DecidableEq, Repr, Inhabited

end Sys2Proof
end

