-- ==== Sys2Proof/Config.lean ====
section
/-! DEFINITION. What is fixed for an instance of the block: the parameters of 00_scope R5, the
type of the capacities of R6 with its defaults, and the free values that stand for what the spec leaves unspecified. -/

namespace Sys2Proof

/-! ## Fixed parameters (R5) -/

/-- `SIG`, the six bytes of "GIF89a" (R5, R91). -/
def Config.sig : List Byte := [0x47#8, 0x49#8, 0x46#8, 0x38#8, 0x39#8, 0x61#8]

/-- `APP_ID_NETSCAPE`, the eleven bytes of "NETSCAPE2.0" (R5). -/
def Config.netscape : List Byte :=
  [0x4E#8, 0x45#8, 0x54#8, 0x53#8, 0x43#8, 0x41#8, 0x50#8, 0x45#8, 0x32#8, 0x2E#8, 0x30#8]

/-- `MCS_MIN` (R5). -/
def Config.mcsMin : Nat := 2

/-- `MCS_MAX` (R5). -/
def Config.mcsMax : Nat := 8

/-- `MAX_CODES`: dictionary entries (R5). -/
def Config.maxCodes : Nat := 4096

/-- `MAX_WIDTH`: bits of the widest LZW code (R5). -/
def Config.maxWidth : Nat := 12

/-- `PAL_MAX`: entries of a palette, and of the fallback palette (R5). -/
def Config.palMax : Nat := 256

/-- `SUBBLOCK_MAX`: data bytes of one sub-block (R5). -/
def Config.subblockMax : Nat := 255

/-- The interlace passes: start row and stride of each (R5). -/
def Config.passes : List (Nat × Nat) := [(0, 8), (4, 8), (2, 4), (1, 2)]

/-- Alpha of an opaque pixel (R5). -/
def Config.opaqueAlpha : Byte := 255#8

/-- Alpha of a transparent pixel (R5). -/
def Config.transparentAlpha : Byte := 0#8

/-! ## Open parameters (R6, D4): arguments of the machine (log 12) -/

/-- The capacities of an instance of the block (R6); `none` is unbounded. They stand in `State.caps`, and no
step changes them. -/
structure Capacities where
  /-- `IN_CAPACITY`: the largest `LEN` -/
  input : Option Nat
  /-- `FRAME_CAPACITY`: frames of the table -/
  frames : Option Nat
  /-- `RAW_CAPACITY`: payload bytes of all frames -/
  raw : Option Nat
  /-- `PIX_CAPACITY`: the largest `WIDTH*HEIGHT` of a cache slot -/
  pix : Option Nat
  /-- `STACK_DEPTH`: entries of the LZW pixel stack -/
  stackDepth : Nat
  deriving DecidableEq, Repr

/-- The defaults of R6; 4294836225 = 65535 * 65535. -/
def Config.defaults : Capacities :=
  { input := none, frames := none, raw := none, pix := some 4294836225, stackDepth := 4096 }

/-- An amount is within a capacity. -/
def Config.fits (cap : Option Nat) (n : Nat) : Bool :=
  match cap with
  | none => true
  | some c => decide (n ≤ c)

/-- Capacities that no input goes beyond: unbounded, pixels of the largest 16-bit product (R6), and the stack bound
of R243. The defaults of R6 are such. -/
structure Capacities.Ample (c : Capacities) : Prop where
  input : c.input = none
  frames : c.frames = none
  raw : c.raw = none
  pix : Config.fits c.pix 4294836225 = true
  stackDepth : 4091 ≤ c.stackDepth

/-! ## Free values: nothing constrains them -/

/-- What `IN` holds at an offset the host never wrote: R43 leaves `IN[..]` unspecified (log 2). -/
opaque Config.inUnwritten : Nat → Byte

/-- What a dictionary index holds that no run has written: R39, R43 leave it unspecified (log 18). -/
opaque Config.dictUnwritten : Nat → DictEntry

/-- Global palette entry at or beyond `GPAL_LEN` (U6, R29): document epoch, index (log 9). -/
opaque Config.gpalBeyond : Nat → Nat → Rgb

/-- Local palette entry at or beyond `LPAL_LEN` (U6, R34): document epoch, frame, index (log 9). -/
opaque Config.lpalBeyond : Nat → Nat → Nat → Rgb

/-- A pixel read beyond the end of a one-element `DEC` (U5, R285): document epoch, frame, source
index (log 10). -/
opaque Config.decBeyond : Nat → Nat → Nat → Byte

end Sys2Proof
end

