-- ==== Sys2Proof/Syntax.lean ====
section
/-! DEFINITION. The three instruction sets of the block as one inductive, one constructor for each
row of spec/opcode_table.json, and the stream position that selects which rows can stand next.

An operand of type `Option Byte` is a checked read of the input: `none` is `ABSENT` (R64). -/

namespace Sys2Proof

/-- What a sub-block chain is for. -/
inductive ChainKind where
  /-- generic skipping: `SkipChain` with its cursor `s`, while `POS` stays at the block's tag (R174, R25) -/
  | skip (cursor : Nat)
  /-- image data, with `POS` itself as the cursor (R178) -/
  | image
  deriving DecidableEq, Repr

/-- What kind of item the container parser reads next. The rows of mask 0 of the opcode table are
selected by this position (R108, R160). -/
inductive ParsePhase where
  /-- the signature, offset 0 (R161) -/
  | sig
  /-- the logical screen descriptor, offset 6 (R162) -/
  | lsd
  /-- the global palette (R163) -/
  | gct
  /-- a block tag (R164) -/
  | block
  /-- an Application extension whose length byte was accepted; whether its identifier matched (R167) -/
  | app (netscape : Bool)
  /-- a local palette (R176) -/
  | lct
  /-- the minimum code size (R177) -/
  | mcs
  /-- the start of the image data (R178) -/
  | imgData
  /-- a sub-block of a chain (R174, R178) -/
  | chain (k : ChainKind)
  deriving DecidableEq, Repr

/-- The decoder state a code's class depends on (R104, R105), and where the code stands. -/
structure LzwCtx where
  clear : Nat
  avail : Nat
  cw : Nat
  /-- whether `PREV` is a code, not `NONE` -/
  hasPrev : Bool
  bitpos : Nat
  rawLen : Nat
  deriving DecidableEq, Repr

/-- Where in which stream the next instruction stands. -/
inductive Ctx where
  /-- the byte written to `CMD` (R109) -/
  | host
  /-- a container item; `palSize` is the size exponent of the palette that may stand here -/
  | container (ph : ParsePhase) (palSize : BitVec 3)
  /-- a code of a frame's payload -/
  | lzw (q : LzwCtx)
  deriving DecidableEq, Repr

/-- The instructions: one constructor per row of spec/opcode_table.json. -/
inductive Instr where
  /-- HDR_SIG, R161: the six bytes read at offsets 0 to 5. -/
  | hdrSig (bytes : List (Option Byte))
  /-- HDR_LSD, R162. `pk` is the packed byte. -/
  | hdrLsd (width height : Half) (pk bg aspect : Byte)
  /-- GCT, R163: the entries of the global palette. -/
  | gct (entries : List Rgb)
  /-- EXT_GCE, R166: `len` is the length byte `L`, `term` the byte at offset 3+L. -/
  | extGce (len pk : Byte) (delay : Half) (index : Byte) (term : Option Byte)
  /-- EXT_APP, R167: the length byte and the eleven identifier bytes. -/
  | extApp (len : Option Byte) (ident : List (Option Byte))
  /-- EXT_APP_NS, R168: size, identifier byte, loop count, terminator. -/
  | extAppNs (size ident : Option Byte) (loops : Half) (term : Option Byte)
  /-- EXT_APP_X, R169: the eleven identifier bytes. -/
  | extAppX (ident : List (Option Byte))
  /-- EXT_COMMENT, R171. -/
  | extComment
  /-- EXT_PTEXT, R172. -/
  | extPtext
  /-- EXT_UNKNOWN, R173: the label. -/
  | extUnknown (label : Option Byte)
  /-- IMG, R175. -/
  | img (left top width height : Half) (pk : Byte)
  /-- LCT, R176: the entries of the local palette. -/
  | lct (entries : List Rgb)
  /-- MCS, R177: the minimum code size byte. -/
  | mcs (m : Option Byte)
  /-- IMGDATA, R178: the start of the image data chain. -/
  | imgData
  /-- SUBBLOCK, R174: the data bytes; `none` when the length byte is `ABSENT`. -/
  | subblock (body : Option (List Byte))
  /-- SUBBLOCK_END, R174. -/
  | subblockEnd
  /-- TRAILER, R179. -/
  | trailer
  /-- BLOCK_UNKNOWN, R181: the tag. -/
  | blockUnknown (tag : Option Byte)
  /-- CLEAR, R227. -/
  | clear
  /-- EOI, R228. -/
  | eoi
  /-- BADCODE, R229. -/
  | badcode (code : Code)
  /-- DATA_FIRST, R230. -/
  | dataFirst (code : Code)
  /-- DATA, R231. -/
  | data (code : Code)
  /-- DATA_KWKWK, R232: the code is `AVAIL`. -/
  | dataKwkwk
  /-- PARSE, R131. -/
  | parse
  /-- DECODE, R132; its operand is the register `ARG_FRAME`. -/
  | decode
  /-- DEINTERLACE, R133; its operands are `ARG_FRAME` and `ARG_FLAGS`. -/
  | deinterlace
  /-- COMPOSE, R134; its operand is the register `ARG_FRAME`. -/
  | compose
  /-- CMD_ILLEGAL, R136: the code written to `CMD`. -/
  | cmdIllegal (code : Byte)
  deriving DecidableEq, Repr

end Sys2Proof
end

