-- ==== Sys2Proof/WellFormed.lean ====
section
/-! DEFINITION. Which instruction terms are encodings of the opcode table: the operands fit the row's
match, mask and condition (30_encoding R91 to R105, R109). A term the decoder reads from a faulty
stream (a wrong signature, an absent terminator) is not well-formed; it still has a meaning. -/

namespace Sys2Proof

/-- A palette length of R301: 2, 4, 8, 16, 32, 64, 128 or 256. -/
def Instr.palLenOk (n : Nat) : Bool :=
  [2, 4, 8, 16, 32, 64, 128, 256].contains n

/-- The byte at offset 3+L of a Graphic Control extension when L is below 4, where it lies among the
field bytes (R97, D8): the packed byte, a delay byte or the index byte. -/
def Instr.gceInner (len pk : Byte) (delay : Half) (index : Byte) : Byte :=
  if len = 0#8 then pk
  else if len = 1#8 then delay.setWidth 8
  else if len = 2#8 then (delay >>> 8).setWidth 8
  else index

/-- The operands of an instruction fit its row of the opcode table. -/
def Instr.wellFormed : Instr → Bool
  | .hdrSig bytes => bytes == Config.sig.map some
  | .hdrLsd _ _ _ _ _ => true
  | .gct es => palLenOk es.length
  | .extGce len pk delay index term =>
      term == some 0#8 && (decide (4 ≤ len.toNat) || gceInner len pk delay index == 0#8)
  | .extApp len ident => len == some 11#8 && ident.length == 11 && ident.all Option.isSome
  | .extAppNs size ident _ term => size == some 3#8 && ident == some 1#8 && term == some 0#8
  | .extAppX ident =>
      ident.length == 11 && ident.all Option.isSome && ident != Config.netscape.map some
  | .extComment => true
  | .extPtext => true
  | .extUnknown label =>
      label.isSome && !([0xF9#8, 0xFF#8, 0xFE#8, 0x01#8].map some).contains label
  | .img _ _ _ _ _ => true
  | .lct es => palLenOk es.length
  | .mcs m =>
      match m with
      | some b => decide (Config.mcsMin ≤ b.toNat) && decide (b.toNat ≤ Config.mcsMax)
      | none => false
  | .imgData => true
  | .subblock body =>
      match body with
      | some d => decide (1 ≤ d.length) && decide (d.length ≤ Config.subblockMax)
      | none => false
  | .subblockEnd => true
  | .trailer => true
  | .blockUnknown tag => tag.isSome && !([0x21#8, 0x2C#8, 0x3B#8].map some).contains tag
  | .clear => true
  | .eoi => true
  | .badcode _ => true
  | .dataFirst code => decide (code.toNat < 256)
  | .data _ => true
  | .dataKwkwk => true
  | .parse => true
  | .decode => true
  | .deinterlace => true
  | .compose => true
  | .cmdIllegal code => !([0x01#8, 0x02#8, 0x03#8, 0x04#8]).contains code

/-- The state of an LZW run is one a code can be read in: the ranges of R38 and invariants 1 to 3 of
R241 that decoding rests on. -/
def LzwCtx.ok (q : LzwCtx) : Bool :=
  decide (q.clear + 2 ≤ q.avail) && decide (q.avail ≤ Config.maxCodes) &&
  decide (3 ≤ q.cw) && decide (q.cw ≤ Config.maxWidth) &&
  decide (q.clear + 2 ≤ 2 ^ q.cw) && (q.hasPrev || q.avail == q.clear + 2)

/-- The instruction can stand at that place of that stream (R105, R108, R160). For a palette this
fixes the number of entries; for a code, its class. -/
def Instr.standsAt (c : Ctx) (i : Instr) : Bool :=
  match c, i with
  | .host, .parse => true
  | .host, .decode => true
  | .host, .deinterlace => true
  | .host, .compose => true
  | .host, .cmdIllegal _ => true
  | .container .sig _, .hdrSig _ => true
  | .container .lsd _, .hdrLsd _ _ _ _ _ => true
  | .container .gct size, .gct es => es.length == 2 ^ (size.toNat + 1)
  | .container .block _, .extGce _ _ _ _ _ => true
  | .container .block _, .extApp _ _ => true
  | .container .block _, .extComment => true
  | .container .block _, .extPtext => true
  | .container .block _, .extUnknown _ => true
  | .container .block _, .img _ _ _ _ _ => true
  | .container .block _, .trailer => true
  | .container .block _, .blockUnknown _ => true
  | .container (.app true) _, .extAppNs _ _ _ _ => true
  | .container (.app false) _, .extAppX _ => true
  | .container .lct size, .lct es => es.length == 2 ^ (size.toNat + 1)
  | .container .mcs _, .mcs _ => true
  | .container .imgData _, .imgData => true
  | .container (.chain _) _, .subblock _ => true
  | .container (.chain _) _, .subblockEnd => true
  | .lzw q, .clear => q.ok
  | .lzw q, .eoi => q.ok
  | .lzw q, .badcode code =>
      q.ok && decide (code.toNat < 2 ^ q.cw) && code.toNat != q.clear && code.toNat != q.clear + 1 &&
      (decide (q.avail < code.toNat) || (!q.hasPrev && decide (q.avail ≤ code.toNat)))
  | .lzw q, .dataFirst code => q.ok && !q.hasPrev && decide (code.toNat < q.clear)
  | .lzw q, .data code =>
      q.ok && q.hasPrev && decide (code.toNat < 2 ^ q.cw) && decide (code.toNat < q.avail) &&
      code.toNat != q.clear && code.toNat != q.clear + 1
  | .lzw q, .dataKwkwk => q.ok && q.hasPrev && decide (q.avail < 2 ^ q.cw)
  | _, _ => false

end Sys2Proof
end

