-- ==== Sys2Proof/Decode.lean ====
section
/-! DEFINITION. Decoding of the three streams, total on any bytes (30_encoding R90 to R105, R109), the
encoder written from the same tables, the pseudo-instructions of R111 and R112, and the decoder on one
word of the opcode table.

A stream is read through `rd : Nat → Option Byte`: the byte at a distance from the item's first byte,
or `none` (ABSENT, R64). -/

namespace Sys2Proof

/-! ## Byte and bit helpers -/

/-- A 16-bit field from its low and high byte (R66). -/
def le16 (lo hi : Byte) : Half := BitVec.ofNat 16 (lo.toNat + 256 * hi.toNat)

/-- The byte at a lower address of a 16-bit field (R66). -/
def loByte (h : Half) : Byte := BitVec.ofNat 8 (h.toNat % 256)

/-- The byte at the higher address of a 16-bit field (R66). -/
def hiByte (h : Half) : Byte := BitVec.ofNat 8 (h.toNat / 256)

/-- `InData`: an unchecked read, 0 when absent (R65). -/
def inData (rd : Nat → Option Byte) (k : Nat) : Byte := (rd k).getD 0#8

/-- `le16(o)` of the input (R66). -/
def inHalf (rd : Nat → Option Byte) (k : Nat) : Half := le16 (inData rd k) (inData rd (k + 1))

/-- The number of entries of a palette with a size exponent (R93, R301). -/
def palLen (size : BitVec 3) : Nat := 2 ^ (size.toNat + 1)

/-- Palette entries from offset `o`: R, G, B of each (R62, R93). -/
def inPalette (rd : Nat → Option Byte) (o n : Nat) : List Rgb :=
  (List.range n).map fun k => ⟨inData rd (o + 3 * k), inData rd (o + 3 * k + 1), inData rd (o + 3 * k + 2)⟩

/-- `n` data bytes from offset `o`, unchecked (R178). -/
def inBytes (rd : Nat → Option Byte) (o n : Nat) : List Byte :=
  (List.range n).map fun k => inData rd (o + k)

/-- `n` checked bytes from offset `o`. -/
def inChecked (rd : Nat → Option Byte) (o n : Nat) : List (Option Byte) :=
  (List.range n).map fun k => rd (o + k)

/-- Stream bit `j` of a payload: bit `j mod 8` of byte `j div 8` (R67). -/
def streamBit (rd : Nat → Option Byte) (j : Nat) : Nat :=
  ((inData rd (j / 8)).getLsbD (j % 8)).toNat

/-- The code of `cw` bits at bit offset `bitpos`, first bit least significant (R67, R224). -/
def codeAt (rd : Nat → Option Byte) (bitpos : Nat) : Nat → Nat
  | 0 => 0
  | n + 1 => codeAt rd bitpos n + streamBit rd (bitpos + n) * 2 ^ n

/-! ## The decoder -/

/-- Why there is no instruction to decode. -/
inductive Reject where
  /-- fewer than `CW` unread bits remain in the payload (R225): no code is read -/
  | exhausted
  deriving DecidableEq, Repr

/-- Extension dispatch on the label (R95, R165). -/
def decodeExtension (rd : Nat → Option Byte) : Instr :=
  if rd 1 = some 0xF9#8 then
    .extGce (inData rd 2) (inData rd 3) (inHalf rd 4) (inData rd 6) (rd (3 + (inData rd 2).toNat))
  else if rd 1 = some 0xFF#8 then .extApp (rd 2) (inChecked rd 3 11)
  else if rd 1 = some 0xFE#8 then .extComment
  else if rd 1 = some 0x01#8 then .extPtext
  else .extUnknown (rd 1)

/-- Block dispatch on the tag (R94, R164). -/
def decodeBlock (rd : Nat → Option Byte) : Instr :=
  if rd 0 = some 0x21#8 then decodeExtension rd
  else if rd 0 = some 0x2C#8 then
    .img (inHalf rd 1) (inHalf rd 3) (inHalf rd 5) (inHalf rd 7) (inData rd 9)
  else if rd 0 = some 0x3B#8 then .trailer
  else .blockUnknown (rd 0)

/-- A sub-block or the end of its chain (R101). -/
def decodeChain (rd : Nat → Option Byte) : Instr :=
  match rd 0 with
  | none => .subblock none
  | some n => if n = 0#8 then .subblockEnd else .subblock (some (inBytes rd 1 n.toNat))

/-- The container item at a place of the stream (R90 to R103). -/
def decodeItem (ph : ParsePhase) (palSize : BitVec 3) (rd : Nat → Option Byte) : Instr :=
  match ph with
  | .sig => .hdrSig (inChecked rd 0 6)
  | .lsd => .hdrLsd (inHalf rd 0) (inHalf rd 2) (inData rd 4) (inData rd 5) (inData rd 6)
  | .gct => .gct (inPalette rd 0 (palLen palSize))
  | .block => decodeBlock rd
  | .app true => .extAppNs (rd 14) (rd 15) (inHalf rd 16) (rd 18)
  | .app false => .extAppX (inChecked rd 3 11)
  | .lct => .lct (inPalette rd 0 (palLen palSize))
  | .mcs => .mcs (rd 0)
  | .imgData => .imgData
  | .chain _ => decodeChain rd

/-- The class of a code, tested in the order of R105. -/
def decodeCode (q : LzwCtx) (c : Nat) : Instr :=
  if c = q.clear then .clear
  else if c = q.clear + 1 then .eoi
  else if q.avail < c ∨ (q.hasPrev = false ∧ q.avail ≤ c) then .badcode (BitVec.ofNat 12 c)
  else if q.hasPrev = false then .dataFirst (BitVec.ofNat 12 c)
  else if c = q.avail then .dataKwkwk
  else .data (BitVec.ofNat 12 c)

/-- The host command of a byte written to `CMD` (R109). -/
def decodeCommand (b : Byte) : Instr :=
  if b = 0x01#8 then .parse
  else if b = 0x02#8 then .decode
  else if b = 0x03#8 then .deinterlace
  else if b = 0x04#8 then .compose
  else .cmdIllegal b

/-- The next instruction at a place of a stream. -/
def decode (c : Ctx) (rd : Nat → Option Byte) : Except Reject Instr :=
  match c with
  | .host => .ok (decodeCommand (inData rd 0))
  | .container ph palSize => .ok (decodeItem ph palSize rd)
  | .lzw q =>
      if 8 * q.rawLen - q.bitpos < q.cw then .error .exhausted
      else .ok (decodeCode q (codeAt rd q.bitpos q.cw))

/-! ## The encoder -/

/-- A checked operand as a byte of the stream. -/
def encChecked (b : Option Byte) : Byte := b.getD 0#8

/-- A 16-bit field, low byte first (R111 `w16`). -/
def encHalf (h : Half) : List Byte := [loByte h, hiByte h]

/-- A palette (R111 `PAL`). -/
def encPalette (es : List Rgb) : List Byte := es.flatMap fun e => [e.r, e.g, e.b]

/-- The bytes of a container item or a host command. A palette's, a chain's and a code's place is the
stream position; a code has no bytes of its own (`encodeCode`). For `L < 4` a Graphic Control extension
is written as the seven bytes its rule reads (D8). -/
def encodeBytes (i : Instr) : List Byte :=
  match i with
  | .hdrSig bytes => bytes.map encChecked
  | .hdrLsd w h pk bg aspect => encHalf w ++ encHalf h ++ [pk, bg, aspect]
  | .gct es => encPalette es
  | .extGce len pk delay index term =>
      [0x21#8, 0xF9#8, len, pk] ++ encHalf delay ++ [index] ++
      (if 4 ≤ len.toNat then List.replicate (len.toNat - 4) 0#8 ++ [encChecked term] else [])
  | .extApp len ident => [0x21#8, 0xFF#8, encChecked len] ++ ident.map encChecked
  | .extAppNs size ident loops term =>
      [0x21#8, 0xFF#8, 0x0B#8] ++ Config.netscape ++ [encChecked size, encChecked ident] ++
      encHalf loops ++ [encChecked term]
  | .extAppX ident => [0x21#8, 0xFF#8, 0x0B#8] ++ ident.map encChecked
  | .extComment => [0x21#8, 0xFE#8]
  | .extPtext => [0x21#8, 0x01#8]
  | .extUnknown label => [0x21#8, encChecked label]
  | .img l t w h pk => [0x2C#8] ++ encHalf l ++ encHalf t ++ encHalf w ++ encHalf h ++ [pk]
  | .lct es => encPalette es
  | .mcs m => [encChecked m]
  | .imgData => []
  | .subblock body =>
      match body with
      | none => []
      | some d => BitVec.ofNat 8 d.length :: d
  | .subblockEnd => [0x00#8]
  | .trailer => [0x3B#8]
  | .blockUnknown tag => [encChecked tag]
  | .clear => []
  | .eoi => []
  | .badcode _ => []
  | .dataFirst _ => []
  | .data _ => []
  | .dataKwkwk => []
  | .parse => [0x01#8]
  | .decode => [0x02#8]
  | .deinterlace => [0x03#8]
  | .compose => [0x04#8]
  | .cmdIllegal code => [code]

/-- The value of a code in a decoder state (R105). A container item or a command has none. -/
def encodeCode (q : LzwCtx) (i : Instr) : Nat :=
  match i with
  | .clear => q.clear
  | .eoi => q.clear + 1
  | .badcode code => code.toNat
  | .dataFirst code => code.toNat
  | .data code => code.toNat
  | .dataKwkwk => q.avail
  | _ => 0

/-- The number `sum ci * 2^(w0 + ... + w(i-1))` of a code list (R112). -/
def packNum : List (Nat × Nat) → Nat
  | [] => 0
  | (c, w) :: cs => c + 2 ^ w * packNum cs

/-- The bits of a code list. -/
def packBits : List (Nat × Nat) → Nat
  | [] => 0
  | (_, w) :: cs => w + packBits cs

/-- `n` bytes of a number, low byte first. -/
def bytesOf : Nat → Nat → List Byte
  | 0, _ => []
  | n + 1, v => BitVec.ofNat 8 (v % 256) :: bytesOf n (v / 256)

/-- `PACK(c0/w0 c1/w1 ...)` (R112). -/
def pack (cs : List (Nat × Nat)) : List Byte := bytesOf ((packBits cs + 7) / 8) (packNum cs)

/-- `CHAIN(b0 b1 ...)` with fuel: sub-blocks of 255 bytes, each preceded by its length, then `00`
(R111). -/
def encodeChainFuel : Nat → List Byte → List Byte
  | 0, _ => [0#8]
  | n + 1, bs =>
      if bs = [] then [0#8]
      else (BitVec.ofNat 8 (bs.take 255).length :: bs.take 255) ++ encodeChainFuel n (bs.drop 255)

/-- `CHAIN(b0 b1 ...)` (R111). -/
def encodeChain (bs : List Byte) : List Byte := encodeChainFuel (bs.length + 1) bs

/-- The words of an instruction at a place of a stream: its bytes, or, for a code, the payload that
consists of it alone, at bit offset 0. -/
def encode (c : Ctx) (i : Instr) : List Byte :=
  match c with
  | .host => encodeBytes i
  | .container _ _ => encodeBytes i
  | .lzw q => pack [(encodeCode q i, q.cw)]

/-- The decoder state after a code, as far as later widths depend on it (R227, R230 to R235). -/
def nextCodeCtx (mcs : Nat) (q : LzwCtx) (c : Nat) : LzwCtx :=
  if c = q.clear then { q with cw := mcs + 1, avail := q.clear + 2, hasPrev := false }
  else if q.hasPrev = false then { q with hasPrev := true }
  else if q.avail < Config.maxCodes then
    let avail := q.avail + 1
    { q with avail := avail, cw := if avail = 2 ^ q.cw ∧ q.cw < Config.maxWidth then q.cw + 1 else q.cw }
  else q

/-- Each code of a list with the width the decoder reads it at (R112 `LZW`). -/
def withWidths (mcs : Nat) : LzwCtx → List Nat → List (Nat × Nat)
  | _, [] => []
  | q, c :: cs => (c, q.cw) :: withWidths mcs (nextCodeCtx mcs q c) cs

/-- `LZW m: c0 c1 ...`: the code size byte and the chain of the packed codes (R112). -/
def encodeLzw (mcs : Nat) (cs : List Nat) : List Byte :=
  let q : LzwCtx := ⟨2 ^ mcs, 2 ^ mcs + 2, mcs + 1, false, 0, 0⟩
  BitVec.ofNat 8 mcs :: encodeChain (pack (withWidths mcs q cs))

/-- `MINIMAL`: the signature, a screen descriptor of zeros, the trailer (R112). -/
def minimalStream : List Byte :=
  encodeBytes (.hdrSig (Config.sig.map some)) ++ encodeBytes (.hdrLsd 0 0 0 0 0) ++ encodeBytes .trailer

/-! ## One word of the opcode table -/

/-- The bytes of a word of `nbits` bits, bit 0 the least significant bit of the first byte; 0 above
`nbits`. Every byte beyond is present and 0. -/
def wordByte (nbits w k : Nat) : Byte :=
  if 8 * k < nbits then BitVec.ofNat 8 ((w % 2 ^ nbits) / 256 ^ k % 256) else 0#8

/-- Which stream and place an opcode-table word of `nbits` bits is taken to stand at: the table does not
say it in the word (log 7). `none` where no row has that width. -/
def tableCtx (nbits w : Nat) : Option Ctx :=
  if nbits = 0 then some (.container .gct 0#3)
  else if nbits = 8 then
    if w = 0 then some (.container (.chain (.skip 0)) 0#3)
    else if w ≤ 4 then some .host
    else if w ≤ 8 then some (.container .mcs 0#3)
    else if w < 128 then some (.container .block 0#3)
    else some .host
  else if nbits = 16 ∨ nbits = 24 ∨ nbits = 80 then some (.container .block 0#3)
  else if nbits = 48 then some (.container .sig 0#3)
  else if nbits = 56 then some (.container .lsd 0#3)
  else if nbits = 152 then some (.container (.app true) 0#3)
  else none

/-- The instruction the decoder reads from an opcode-table word followed by zeros. -/
def decodeTableWord (nbits w : Nat) : Option Instr :=
  match tableCtx nbits w with
  | none => none
  | some c =>
    match decode c (fun k => some (wordByte nbits w k)) with
    | .ok i => some i
    | .error _ => none

end Sys2Proof
end

