-- ==== Sys2Proof/Machine/State.lean ====
section
/-! DEFINITION. The state of the block as plain data (10_state), its errors (60_exceptions R331), the
reasons a step can stop, and the state after reset (10_state R43). -/

namespace Sys2Proof.Machine

/-- A byte memory: address and byte pairs, addresses strictly rising. An unlisted address holds no
value (log 2). -/
abbrev Memory := List Host.Cell

/-- The dictionary memory `DICT`: index and entry pairs, indices strictly rising (R39). -/
abbrev Dict := List (Nat × DictEntry)

/-- The errors of R331. -/
inductive ErrorName where
  | badSignature
  | unknownBlock
  | unknownExtension
  | gceNoTerminator
  | subblockNoTerminator
  | appLength
  | netscapeSize
  | netscapeId
  | netscapeNoTerminator
  | badMinCodeSize
  | notInterlaced
  | frameRange
  | noDocument
  | badCommand
  deriving DecidableEq, Repr

/-- Why an LZW run stopped reading codes (R42, R245). -/
inductive EndReason where
  | count
  | eoi
  | badcode
  | exhausted
  deriving DecidableEq, Repr

/-- `OUT_SEL`: which store the result window shows (R41, R44). -/
inductive OutSel where
  | none
  | dec
  | dei
  | rgba
  deriving DecidableEq, Repr

/-- The deinterlaced cache: `DEI_STATE` with `DEI` where it is meaningful (R37). -/
inductive DeiSlot where
  | empty
  | valid (pixels : List Byte)
  | folded
  deriving DecidableEq, Repr

/-- The command an LZW run works for (R324: the decode fill returns to its caller). -/
inductive Caller where
  | decode
  | deinterlace
  | compose
  deriving DecidableEq, Repr

/-- What the one engine does next (R20): wait for the host, read a container item, or read a code. -/
inductive Engine where
  | idle
  | parse (ph : ParsePhase)
  | lzw (c : Caller)
  deriving DecidableEq, Repr

/-- A write of the host (R22, R23, R44, R382, R383): the writable registers and the input memory. -/
inductive HostWrite where
  | inByte (off : Nat) (b : Byte)
  | len (n : Nat)
  | argFrame (n : Nat)
  | argFlags (b : Byte)
  /-- a write of `CMD`, which starts the command -/
  | command (code : Byte)
  deriving DecidableEq, Repr

/-- The host command registers (R22, R23). -/
structure HostRegs where
  cmd : Byte
  argFrame : Nat
  argFlags : Byte
  len : Nat
  deriving DecidableEq, Repr

/-- The status flags (R24). -/
structure Status where
  docValid : Bool
  err : Bool
  warnTrailing : Bool
  gcePending : Bool
  repeatValid : Bool
  deriving DecidableEq, Repr

/-- The error registers (R27). -/
structure ErrRegs where
  code : Byte
  offset : Nat
  byte : Byte
  byteValid : Bool
  frame : Nat
  deriving DecidableEq, Repr

/-- The screen descriptor registers (R28). -/
structure Screen where
  width : Half
  height : Half
  gctFlag : Bool
  colorRes : BitVec 3
  sort : Bool
  gctSize : BitVec 3
  bgIndex : Byte
  aspect : Byte
  deriving DecidableEq, Repr

/-- A frame record `FR[i]` (R32 to R37). `LPAL_LEN` and `DEC_LEN` are the lengths of `lpal` and `dec`; `DEC_VALID` is
whether `dec` is there (log 17). `rawLen` is `RAW_LEN`: R178 writes it after the chain, so while `RAW` is being
filled, and after a chain the input cut, it is not the length of `raw`. -/
structure Frame where
  gcePresent : Bool
  disposal : BitVec 3
  userInput : Bool
  transpFlag : Bool
  transpIndex : Byte
  delay : Half
  left : Half
  top : Half
  width : Half
  height : Half
  lctFlag : Bool
  interlace : Bool
  imgSort : Bool
  lctSize : BitVec 3
  lpal : List Rgb
  mcs : BitVec 4
  raw : List Byte
  rawLen : Nat
  dec : Option (List Byte)
  dei : DeiSlot
  deriving DecidableEq, Repr

/-- The LZW engine (R38 to R40). `PI` is the length of `out` and `TOP` the length of `stack` (log 17);
the head of `stack` is its top. `ended`: the loop of R223 has been left. -/
structure Lzw where
  clear : Nat
  eoi : Nat
  cw : Nat
  avail : Nat
  prev : Option Code
  first : Byte
  bitpos : Nat
  code : Code
  out : List Byte
  stack : List Byte
  dict : Dict
  ended : Bool
  deriving DecidableEq, Repr

/-- The result window and its registers (R41). `rgba` is `none` where the content is unspecified
(log 11). -/
structure Result where
  sel : OutSel
  len : Nat
  pix : Nat
  left : Half
  top : Half
  width : Half
  height : Half
  rgba : Option (List Byte)
  deriving DecidableEq, Repr

/-- The state of the block (R20). The completed frames are `frames`, `FRAME_COUNT` its length; the
record at index `FRAME_COUNT` is `pendRec` (R31, R170). `hostq`, `docHidden` and `docEpoch` are the
model's own (logs 6, 8, 9). `caps` are the parameters of the instance (R6, log 12): every step runs under the
capacities the state carries, and none changes them. -/
structure State where
  host : HostRegs
  inMem : Memory
  status : Status
  err : ErrRegs
  pos : Nat
  endPos : Nat
  trailCount : Nat
  screen : Screen
  gpal : List Rgb
  repeatCount : Half
  frames : List Frame
  pendAlloc : Bool
  pendRec : Frame
  lzw : Lzw
  lzwRuns : BitVec 32
  endReason : EndReason
  result : Result
  engine : Engine
  hostq : List HostWrite
  docHidden : Bool
  docEpoch : Nat
  caps : Capacities
  deriving DecidableEq, Repr

/-- Why the machine stops with a fault. It is no error of the spec (those are next states). -/
inductive Fault where
  /-- Raised by DATA and DATA_KWKWK when `PREV` is `NONE`. The class conditions of R105 exclude it, so no
  step raises it. Safe (log 14). -/
  | noPreviousCode
  deriving DecidableEq, Repr

/-- Why a step has no meaning. -/
inductive Refusal where
  /-- An instruction without a meaning yet, by its mnemonic; raised by no arm. Safe. -/
  | notModelled (mnemonic : String)
  /-- PARSE of an input longer than `IN_CAPACITY` (R6, U12). Safe (log 12). -/
  | inCapacity
  /-- An image beyond `FRAME_CAPACITY` (R6, U12). Safe (log 12). -/
  | frameCapacity
  /-- Payload bytes beyond `RAW_CAPACITY` (R6, U12). Safe (log 12). -/
  | rawCapacity
  /-- DECODE, DEINTERLACE or COMPOSE filling a cache slot of a frame whose `WIDTH*HEIGHT` is beyond
  `PIX_CAPACITY` (R6, U12). Safe (log 12). -/
  | pixCapacity
  /-- DATA or DATA_KWKWK of a string that does not fit in `STACK_DEPTH` entries (R6). R243: never with 4091 or
  more. Safe (logs 12, 13). -/
  | stackDepth
  deriving DecidableEq, Repr

/-- What one step, or one instruction, answers. -/
abbrev Answer := Host.Outcome State Fault Refusal

/-- A frame record with every field 0, `NONE` or empty: the reset value of the pending record. DESIGN CHOICE
(log 3). -/
def Frame.blank : Frame :=
  { gcePresent := false, disposal := 0, userInput := false, transpFlag := false, transpIndex := 0,
    delay := 0, left := 0, top := 0, width := 0, height := 0, lctFlag := false, interlace := false,
    imgSort := false, lctSize := 0, lpal := [], mcs := 0, raw := [], rawLen := 0, dec := none, dei := .empty }

/-- The LZW engine at reset: R43 leaves it unspecified; zeros, `NONE` and empty. DESIGN CHOICE (log 1). -/
def Lzw.blank : Lzw :=
  { clear := 0, eoi := 0, cw := 0, avail := 0, prev := none, first := 0, bitpos := 0, code := 0,
    out := [], stack := [], dict := [], ended := false }

/-- The block right after reset (R43, R380), with the default capacities of R6. -/
def State.reset : State :=
  { host := { cmd := 0, argFrame := 0, argFlags := 0, len := 0 }
    inMem := []
    status := ⟨false, false, false, false, false⟩
    err := { code := 0, offset := 0, byte := 0, byteValid := false, frame := 0 }
    pos := 0
    endPos := 0
    trailCount := 0
    screen := { width := 0, height := 0, gctFlag := false, colorRes := 0, sort := false, gctSize := 0,
                bgIndex := 0, aspect := 0 }
    gpal := []
    repeatCount := 0
    frames := []
    pendAlloc := false
    pendRec := Frame.blank
    lzw := Lzw.blank
    lzwRuns := 0
    endReason := .count
    result := { sel := .none, len := 0, pix := 0, left := 0, top := 0, width := 0, height := 0, rgba := none }
    engine := .idle
    hostq := []
    docHidden := false
    docEpoch := 0
    caps := Config.defaults }

end Sys2Proof.Machine
end

