-- ==== Sys2Proof/Machine/Ops.lean ====
section
/-! DEFINITION. The named operations over memory and registers that the instructions share: the input
memory and the dictionary, raising an error (the one way an exception is taken) and what leaves the
error state, the frame record, the LZW sub-steps of 42_lzw_decompressor section 4. -/

namespace Sys2Proof.Machine

/-! ## Sparse memories in canonical form -/

/-- The value listed at a key. -/
def sparseGet {α : Type} : List (Nat × α) → Nat → Option α
  | [], _ => none
  | (k, v) :: m, a => if a = k then some v else sparseGet m a

/-- List a value at a key, keeping the keys strictly rising. -/
def sparseSet {α : Type} : List (Nat × α) → Nat → α → List (Nat × α)
  | [], a, x => [(a, x)]
  | (k, v) :: m, a, x =>
    if a < k then (a, x) :: (k, v) :: m
    else if a = k then (a, x) :: m
    else (k, v) :: sparseSet m a x

/-- The keys rise strictly: the canonical form. -/
def sparseWf {α : Type} : List (Nat × α) → Bool
  | [] => true
  | [_] => true
  | (k, _) :: (k', v') :: m => decide (k < k') && sparseWf ((k', v') :: m)

/-- The canonical form of the input memory. An unlisted address holds no value, so no entry equals what
an unlisted address reads as. -/
def Memory.wf (m : Memory) : Bool := sparseWf m

/-- A write to `IN` (R23, R60). -/
def Memory.write (m : Memory) (a : Nat) (b : Byte) : Memory := sparseSet m a b

/-- The byte `IN` holds at an offset: a free value where the host never wrote (R43, log 2). -/
def Memory.read (m : Memory) (a : Nat) : Byte := (sparseGet m a).getD (Config.inUnwritten a)

/-- The canonical form of the dictionary. -/
def Dict.wf (d : Dict) : Bool := sparseWf d

/-- A dictionary entry; a free value where no run has written (R39, log 18). -/
def Dict.read (d : Dict) (k : Nat) : DictEntry := (sparseGet d k).getD (Config.dictUnwritten k)

/-- A dictionary write, prefix and suffix together (R69). -/
def Dict.write (d : Dict) (k : Nat) (e : DictEntry) : Dict := sparseSet d k e

/-- `InByte(o)`: the input byte, or `ABSENT` at or beyond `LEN` (R64). -/
def inByte (s : State) (o : Nat) : Option Byte :=
  if o < s.host.len then some (s.inMem.read o) else none

/-! ## Errors: entry and exit (R333, R337) -/

/-- `code(E)`: the numbers of R331. -/
def ErrorName.code : ErrorName → Byte
  | .badSignature => 0x10#8
  | .unknownBlock => 0x20#8
  | .unknownExtension => 0x21#8
  | .gceNoTerminator => 0x22#8
  | .subblockNoTerminator => 0x23#8
  | .appLength => 0x24#8
  | .netscapeSize => 0x25#8
  | .netscapeId => 0x26#8
  | .netscapeNoTerminator => 0x27#8
  | .badMinCodeSize => 0x28#8
  | .notInterlaced => 0x30#8
  | .frameRange => 0x31#8
  | .noDocument => 0x32#8
  | .badCommand => 0x33#8

/-- `raise E(off, byte)` (R333): the error registers, `STATUS.ERR`, and the end of the command. -/
def raise (e : ErrorName) (off : Nat) (byte : Option Byte) (frame : Nat) (s : State) : State :=
  { s with
    err := { code := e.code, offset := off, byte := byte.getD 0#8, byteValid := byte.isSome, frame := frame }
    status := { s.status with err := true }
    engine := .idle }

/-- A format or structural error: `ERR_FRAME` is `FRAME_COUNT` (R332), and the PARSE that ends here
leaves a document that is hidden from the host (R335, log 8). -/
def raiseParse (e : ErrorName) (off : Nat) (byte : Option Byte) (s : State) : State :=
  { raise e off byte s.frames.length s with docHidden := true }

/-- A usage error: no offset, `ERR_FRAME` is `ARG_FRAME`; the byte is the command code for
`E_BAD_COMMAND` and absent otherwise (R332, R336). -/
def raiseUsage (e : ErrorName) (byte : Option Byte) (s : State) : State :=
  raise e 0 byte s.host.argFrame s

/-- What the start of every command clears: `STATUS.ERR` and `ERR_CODE` (R130). This is also the one way
the error state is left (R337). -/
def startCommand (s : State) : State :=
  { s with status := { s.status with err := false }, err := { s.err with code := 0#8 } }

/-- The checks common to the per-frame commands, in order (R140, R141, R334). -/
def checkFrame (s : State) : Option ErrorName :=
  if s.status.docValid = false then some .noDocument
  else if s.frames.length ≤ s.host.argFrame then some .frameRange
  else none

/-! ## The parser -/

/-- The parser goes on with an item of a given kind at an offset. -/
def goto (pos : Nat) (ph : ParsePhase) (s : State) : State :=
  { s with pos := pos, engine := .parse ph }

/-- `PreAllocate()` (R170). -/
def preAllocate (s : State) : State :=
  if s.pendAlloc then s
  else
    { s with
      pendAlloc := true
      pendRec := { s.pendRec with
        gcePresent := false, disposal := 0#3, userInput := false, transpFlag := false, transpIndex := 0#8,
        delay := 0#16, lctFlag := false, lpal := [], rawLen := 0, dec := none, dei := .empty } }

/-- A write to the pending frame record `FR[FRAME_COUNT]` (R326). -/
def modPend (f : Frame → Frame) (s : State) : State := { s with pendRec := f s.pendRec }

/-- The end of the image data: `RAW_LEN` (R178). -/
def endRaw (s : State) : State := modPend (fun f => { f with rawLen := f.raw.length }) s

/-- Frame commit (R180). The record at the new index `FRAME_COUNT` is one the spec leaves unspecified; the model
keeps the values of the record just committed there, and `PreAllocate` resets the fields R170 names. DESIGN
CHOICE (log 25). -/
def commitFrame (s : State) : State :=
  { s with frames := s.frames ++ [s.pendRec], pendAlloc := false }

/-- The chain the parser is in: of image data, or skipped (R174, R178). -/
def chainKind (s : State) : ChainKind :=
  match s.engine with
  | .parse (.chain k) => k
  | _ => .skip s.pos

/-- Where the next length byte of a chain stands: at the cursor of `SkipChain` (R174), or at `POS` (R178). -/
def chainAt (k : ChainKind) (pos : Nat) : Nat :=
  match k with
  | .skip cursor => cursor
  | .image => pos

/-- `SkipChain(cursor)` goes on: `POS` is not written before it returns (R174). -/
def skipFrom (cursor : Nat) (s : State) : State := { s with engine := .parse (.chain (.skip cursor)) }

/-- Payload bytes of all frames, the pending one included (R6 `RAW_CAPACITY`). -/
def rawTotal (s : State) : Nat := (s.frames.map fun f => f.raw.length).sum + s.pendRec.raw.length

/-! ## The frame of the command -/

/-- `FR[ARG_FRAME]`. The per-frame commands check the index first (R141). -/
def curFrame (s : State) : Frame := s.frames[s.host.argFrame]?.getD Frame.blank

/-- A write to a cache slot of `FR[ARG_FRAME]` (R326). -/
def modCur (f : Frame → Frame) (s : State) : State :=
  { s with frames := s.frames.modify s.host.argFrame f }

/-- `NPIX`: `WIDTH * HEIGHT`, the exact product (R110). -/
def Frame.npix (f : Frame) : Nat := f.width.toNat * f.height.toNat

/-- `NPIX` of the run (R220). -/
def npix (s : State) : Nat := (curFrame s).npix

/-! ## The LZW engine: sub-steps (42 section 4) -/

/-- A change of the LZW engine's state. -/
def modLzw (f : Lzw → Lzw) (s : State) : State := { s with lzw := f s.lzw }

/-- The loop of R223 is left for a reason; the padding follows (R237, R245). -/
def leaveLoop (r : EndReason) (s : State) : State :=
  { s with endReason := r, lzw := { s.lzw with ended := true } }

/-- `push(v)` (R233), within `depth` entries. -/
def push (depth : Nat) (v : Byte) (stack : List Byte) : Option (List Byte) :=
  if stack.length < depth then some (v :: stack) else none

/-- The pixel of a code taken as a root code (R233, G8). -/
def rootPixel (c : Code) : Byte := c.setWidth 8

/-- `Walk(c)` (R233) with room for `n` pushes: the root it ends at and the stack; `none` where the stack
would overflow. -/
def walk (d : Dict) (clear : Nat) : Nat → Code → List Byte → Option (Code × List Byte)
  | 0, _, _ => none
  | n + 1, c, stack =>
    if clear < c.toNat then walk d clear n (d.read c.toNat).pre ((d.read c.toNat).suffix :: stack)
    else some (c, rootPixel c :: stack)

/-- The room left on a stack of `depth` entries. -/
def stackRoom (depth : Nat) (stack : List Byte) : Nat := depth - stack.length

/-- Code-width growth (R235). -/
def growWidth (l : Lzw) : Lzw :=
  if l.avail = 2 ^ l.cw ∧ l.cw < Config.maxWidth then { l with cw := l.cw + 1 } else l

/-- `AddEntry(p, s)` (R234), then width growth. -/
def addEntry (p : Code) (v : Byte) (l : Lzw) : Lzw :=
  if l.avail < Config.maxCodes then
    growWidth { l with dict := l.dict.write l.avail ⟨p, v⟩, avail := l.avail + 1 }
  else l

/-- `emit(v)` (R236). -/
def emit (npix : Nat) (out : List Byte) (v : Byte) : List Byte :=
  if out.length < npix then out ++ [v] else out

/-- `EmitStack()` (R236): pops from the top; what does not fit is dropped. -/
def emitStack (npix : Nat) (l : Lzw) : Lzw :=
  { l with out := l.stack.foldl (emit npix) l.out, stack := [] }

/-- The steps a data code ends with once its string is on the stack: the dictionary add, `PREV`, the
emission (R231, R232, R392). -/
def finishData (npix : Nat) (prev : Code) (code : Code) (root : Code) (stack : List Byte) (l : Lzw) : Lzw :=
  emitStack npix
    { addEntry prev (rootPixel root) { l with stack := stack, first := rootPixel root } with prev := some code }

/-- The state a clear code leaves (R227); also the start state of a run (R222). -/
def resetCodes (mcs : Nat) (l : Lzw) : Lzw :=
  { l with cw := mcs + 1, avail := l.clear + 2, prev := none }

/-- Start of a run (R222). `FIRST`, `CODE`, `DICT` are not initialised. -/
def startRun (c : Caller) (s : State) : State :=
  let mcs := (curFrame s).mcs.toNat
  { s with
    lzwRuns := s.lzwRuns + 1#32
    lzw := { resetCodes mcs { s.lzw with clear := 2 ^ mcs, eoi := 2 ^ mcs + 1 } with
             bitpos := 0, out := [], stack := [], ended := false }
    engine := .lzw c }

/-- Zero padding to `NPIX` (R237). -/
def padOut (npix : Nat) (out : List Byte) : List Byte := out ++ List.replicate (npix - out.length) 0#8

end Sys2Proof.Machine
end

