-- ==== Sys2Proof/Machine/Operands.lean ====
section
/-! DEFINITION. The operand forms: fields of the packed bytes (30_encoding R92, R96, R97), the palettes
(R302, R304), the pixel sequences (20_memory R63), and the accumulator form of the code fetch
(42_lzw_decompressor R240). -/

namespace Sys2Proof.Machine

/-! ## Packed bytes. Bits a rule does not name are read and ignored (R107). -/

/-- Bit `i` of a packed byte (R7 `v[i]`). -/
def pkBit (pk : Byte) (i : Nat) : Bool := pk.getLsbD i

/-- Three bits `lo+2 .. lo` of a packed byte (R7 `v[hi:lo]`). -/
def pkField3 (pk : Byte) (lo : Nat) : BitVec 3 := pk.extractLsb' lo 3

/-- The screen descriptor of its operands (R92). -/
def screenOf (width height : Half) (pk bg aspect : Byte) : Screen :=
  { width := width, height := height, gctFlag := pkBit pk 7, colorRes := pkField3 pk 4,
    sort := pkBit pk 3, gctSize := pkField3 pk 0, bgIndex := bg, aspect := aspect }

/-- The Graphic Control fields of a frame record (R97, R166). The index byte counts only when the
transparency bit is set. -/
def withGce (pk : Byte) (delay : Half) (index : Byte) (f : Frame) : Frame :=
  { f with
    gcePresent := true, disposal := pkField3 pk 2, userInput := pkBit pk 1, transpFlag := pkBit pk 0,
    delay := delay, transpIndex := if pkBit pk 0 then index else 0#8 }

/-- The image descriptor fields of a frame record (R96, R175). -/
def withImage (left top width height : Half) (pk : Byte) (f : Frame) : Frame :=
  { f with
    left := left, top := top, width := width, height := height, lctFlag := pkBit pk 7,
    interlace := pkBit pk 6, imgSort := pkBit pk 5, lctSize := pkField3 pk 0 }

/-- `DELAY_MS` (R32, R110). -/
def Frame.delayMs (f : Frame) : Nat := 10 * f.delay.toNat

/-- `OVERWRITE`: bit 0 of `ARG_FLAGS`; bits 7:1 are ignored (R22). -/
def overwrite (s : State) : Bool := s.host.argFlags.getLsbD 0

/-! ## Palettes -/

/-- Which palette a frame uses (R302). -/
inductive PaletteSel where
  | lcl
  | gbl
  | fallback
  deriving DecidableEq, Repr

/-- `ActivePalette(f)`: reads nothing but the two flags (R302). -/
def activePalette (gctFlag : Bool) (f : Frame) : PaletteSel :=
  if f.lctFlag then .lcl else if gctFlag then .gbl else .fallback

/-- The triple of a pixel index in the active palette of `FR[ARG_FRAME]`. Beyond the palette's length it
is a free value of that palette entry (R304, U6, log 9). -/
def paletteEntry (s : State) (v : Byte) : Rgb :=
  match activePalette s.screen.gctFlag (curFrame s) with
  | .lcl => (curFrame s).lpal[v.toNat]?.getD (Config.lpalBeyond s.docEpoch s.host.argFrame v.toNat)
  | .gbl => s.gpal[v.toNat]?.getD (Config.gpalBeyond s.docEpoch v.toNat)
  | .fallback => ⟨0#8, 0#8, 0#8⟩

/-! ## Pixel sequences -/

/-- `DEC[i]` of `FR[ARG_FRAME]` as the deinterlacer reads it; beyond the end a free value (R285, U5,
log 10). -/
def decPixel (s : State) (dec : List Byte) (i : Nat) : Byte :=
  dec[i]?.getD (Config.decBeyond s.docEpoch s.host.argFrame i)

/-- The class context of the next code (R105, R223). -/
def lzwCtx (s : State) : LzwCtx :=
  { clear := s.lzw.clear, avail := s.lzw.avail, cw := s.lzw.cw, hasPrev := s.lzw.prev.isSome,
    bitpos := s.lzw.bitpos, rawLen := (curFrame s).rawLen }

/-! ## Accumulator form of the fetch (R240) -/

/-- `DATUM`, `NBITS`, `BI`. -/
structure Accum where
  datum : Nat
  nbits : Nat
  bi : Nat
  deriving DecidableEq, Repr

/-- The start of the accumulator form. -/
def Accum.start : Accum := ⟨0, 0, 0⟩

/-- The inner loop: load bytes until `cw` bits are there; `none` is exhausted. -/
def accFill (raw : List Byte) (cw : Nat) : Nat → Accum → Option Accum
  | 0, _ => none
  | n + 1, a =>
    if a.nbits < cw then
      match raw[a.bi]? with
      | none => none
      | some b => accFill raw cw n ⟨a.datum + b.toNat * 2 ^ a.nbits, a.nbits + 8, a.bi + 1⟩
    else some a

/-- One fetch of the accumulator form: the code and the accumulator after it. A code of at most 12 bits
needs at most two loads, so three rounds suffice. -/
def accFetch (raw : List Byte) (cw : Nat) (a : Accum) : Option (Nat × Accum) :=
  match accFill raw cw 3 a with
  | none => none
  | some f => some (f.datum % 2 ^ cw, ⟨f.datum / 2 ^ cw, f.nbits - cw, f.bi⟩)

end Sys2Proof.Machine
end

