-- ==== Sys2Proof/Machine/Flags.lean ====
section
/-! DEFINITION. The flag computations: the `STATUS` word (10_state R24), the flags written at the start
of PARSE and at the trailer (R131, R179, R184), and the numbers of the small enumerations the host reads
(R37, R42, R44). -/

namespace Sys2Proof.Machine

/-- A flag as a bit. -/
def flagBit (b : Bool) (i : Nat) : Nat := if b then 2 ^ i else 0

/-- `STATUS` as the host reads it: bits 7:5 read as 0 (R24). -/
def Status.word (t : Status) : Byte :=
  BitVec.ofNat 8 (flagBit t.docValid 0 + flagBit t.err 1 + flagBit t.warnTrailing 2 +
    flagBit t.gcePending 3 + flagBit t.repeatValid 4)

/-- `STATUS <- 0` at the start of PARSE: all flags, `DOC_VALID` included (R131). -/
def Status.clear : Status := ⟨false, false, false, false, false⟩

/-- The flags of a PARSE that reached its trailer, `pos` being just past it (R179, R184). -/
def trailerStatus (s : State) (pos : Nat) : Status :=
  { s.status with docValid := true, gcePending := s.pendAlloc, warnTrailing := decide (pos < s.host.len) }

/-- `END_REASON` (R42). -/
def EndReason.num : EndReason → Nat
  | .count => 0
  | .eoi => 1
  | .badcode => 2
  | .exhausted => 3

/-- `OUT_SEL` (R44). -/
def OutSel.num : OutSel → Nat
  | .none => 0
  | .dec => 1
  | .dei => 2
  | .rgba => 3

/-- `DEI_STATE` (R37). -/
def DeiSlot.num : DeiSlot → Nat
  | .empty => 0
  | .valid _ => 1
  | .folded => 2

end Sys2Proof.Machine
end

