-- ==== Sys2Proof/Machine/Deinterlacer.lean ====
section
/-! DEFINITION. The deinterlacer (43_deinterlacer R280 to R285) and the fill of its cache slot. -/

namespace Sys2Proof.Machine

/-- The rows of one pass below `h`, with fuel: `r`, `r + stride`, ... (R282). -/
def passRows (stride h : Nat) : Nat → Nat → List Nat
  | 0, _ => []
  | n + 1, r => if r < h then r :: passRows stride h n (r + stride) else []

/-- The true rows in the order they are transmitted: the four passes in order (R282). -/
def rowOrder (h : Nat) : List Nat := Config.passes.flatMap fun p => passRows p.2 h h p.1

/-- The values of `out` replaced from index `i` on. -/
def writeAt (out : List Byte) (i : Nat) (vals : List Byte) : List Byte :=
  out.take i ++ vals ++ out.drop (i + vals.length)

/-- One row of `w` pixels from source index `src`. -/
def sourceRow (rd : Nat → Byte) (w src : Nat) : List Byte := (List.range w).map fun c => rd (src + c)

/-- The loop of R282: each transmitted row, in order, goes to its true position. -/
def placeRows (rd : Nat → Byte) (w : Nat) : List Nat → Nat → List Byte → List Byte
  | [], _, out => out
  | r :: rs, src, out => placeRows rd w rs (src + w) (writeAt out (r * w) (sourceRow rd w src))

/-- `Deinterlace(DEC, W, H)` (R282). Every place of the buffer is written, so what it holds first is never
seen. -/
def deinterlaceRows (rd : Nat → Byte) (w h : Nat) : List Byte :=
  placeRows rd w (rowOrder h) 0 (List.replicate (w * h) 0#8)

/-- `Deinterlace` of the current frame's decoded sequence. -/
def deinterlaced (s : State) (dec : List Byte) : List Byte :=
  deinterlaceRows (decPixel s dec) (curFrame s).width.toNat (curFrame s).height.toNat

end Sys2Proof.Machine
end

