-- ==== Sys2Proof/Machine/Compositor.lean ====
section
/-! DEFINITION. The RGBA compositor (44_palette_router_compositor R305 to R311). -/

namespace Sys2Proof.Machine

/-- The transparent index `t` (R307, D25): the flag is not consulted. -/
def transparentIndex (f : Frame) : Byte := if f.gcePresent then f.transpIndex else 0#8

/-- The four bytes of one pixel (R308, R77). -/
def pixelBytes (s : State) (v : Byte) : List Byte :=
  let e := paletteEntry s v
  [e.r, e.g, e.b,
    if v = transparentIndex (curFrame s) then Config.transparentAlpha else Config.opaqueAlpha]

/-- The RGBA buffer of a sequence (R305, R77). -/
def rgbaOf (s : State) (seq : List Byte) : List Byte := seq.flatMap (pixelBytes s)

/-- `Compose(f, seq)` with the window (R134, R305, R309). -/
def composeInto (seq : List Byte) (s : State) : State :=
  { s with
    result :=
      { sel := .rgba, len := 4 * seq.length, pix := seq.length, left := (curFrame s).left,
        top := (curFrame s).top, width := (curFrame s).width, height := (curFrame s).height,
        rgba := some (rgbaOf s seq) }
    engine := .idle }

end Sys2Proof.Machine
end

