-- ==== Sys2Proof/Machine/Command.lean ====
section
/-! DEFINITION. The meanings of the host commands: PARSE, DECODE, DEINTERLACE, COMPOSE, CMD_ILLEGAL
(40_host_commands R130 to R141), the decode fill they share, and what each does once the frame is
decoded. -/

namespace Sys2Proof.Machine

/-- The window shows a store of the current frame; the RGBA buffer's content becomes unspecified (R41,
D20, log 11). The command ends. -/
def showWindow (sel : OutSel) (len : Nat) (s : State) : State :=
  { s with result := { s.result with sel := sel, len := len, rgba := none }, engine := .idle }

/-- The decoded sequence of the current frame; empty where the slot is empty. -/
def decOf (s : State) : List Byte := (curFrame s).dec.getD []

/-- `OUT_SEL <- DEC; OUT_LEN <- DEC_LEN` (R132). -/
def showDec (s : State) : State := showWindow .dec (decOf s).length s

/-- The decoded slot is filled (R132, R36). -/
def setDec (seq : List Byte) (s : State) : State := modCur (fun f => { f with dec := some seq }) s

/-- The deinterlaced slot is filled if it is empty (R133, R134, R283). -/
def fillDei (s : State) : State :=
  match (curFrame s).dei with
  | .empty => modCur (fun f => { f with dei := .valid (deinterlaced s (decOf s)) }) s
  | .valid _ => s
  | .folded => s

/-- The `OVERWRITE` fold (R133, R283). -/
def foldDei (s : State) : State :=
  modCur (fun f =>
    match f.dei with
    | .valid d => { f with dec := some d, dei := .folded }
    | .empty => f
    | .folded => f) s

/-- DEINTERLACE once the frame is decoded (R133). -/
def finishDeinterlace (s : State) : State :=
  let s := fillDei s
  match (curFrame s).dei with
  | .folded => showDec s
  | .empty => showDec s
  | .valid _ => if overwrite s then showDec (foldDei s) else showWindow .dei (npix s) s

/-- The sequence COMPOSE maps (R134). -/
def composeSeq (s : State) : List Byte :=
  match (curFrame s).dei with
  | .valid d => if (curFrame s).interlace then d else decOf s
  | .empty => decOf s
  | .folded => decOf s

/-- COMPOSE once the frame is decoded (R134). -/
def finishCompose (s : State) : State :=
  let s := if (curFrame s).interlace then fillDei s else s
  composeInto (composeSeq s) s

/-- What a per-frame command does once the frame's decoded slot is valid. -/
def finishCommand (c : Caller) (s : State) : State :=
  match c with
  | .decode => showDec s
  | .deinterlace => finishDeinterlace s
  | .compose => finishCompose s

/-- The command fills a cache slot of the frame: the decoded one, or for an interlaced frame the deinterlaced
one (R132, R133, R134). -/
def fillsSlot (c : Caller) (f : Frame) : Bool :=
  f.dec.isNone || (decide (c ≠ .decode) && f.interlace && decide (f.dei = .empty))

/-- A per-frame command on an addressable frame. A slot is filled only within `PIX_CAPACITY` (R6, U12, log 12).
The cache fill of R132: nothing if the slot is valid; `[0]` for an empty payload, without a run (R221);
otherwise a run of the LZW engine starts, and the command goes on when it ends. -/
def fillDecoded (c : Caller) (s : State) : Answer :=
  if fillsSlot c (curFrame s) && !Config.fits s.caps.pix (npix s) then .refused .pixCapacity
  else
    match (curFrame s).dec with
    | some _ => .next (finishCommand c s)
    | none =>
      if (curFrame s).rawLen = 0 then .next (finishCommand c (setDec [0#8] s)) else .next (startRun c s)

/-- The end of an LZW run: padding, the slot, and the command's remainder (R223, R237, R132). -/
def finishRun (c : Caller) (s : State) : State :=
  finishCommand c (setDec (padOut (npix s) s.lzw.out) s)

/-- PARSE (R131): the old document is discarded and the parser starts at offset 0 (R160). The record at index
`FRAME_COUNT`, now 0, keeps the values it has. DESIGN CHOICE (log 25). -/
def execParse (s : State) : Answer :=
  if Config.fits s.caps.input s.host.len then
    .next (goto 0 .sig { s with
      status := Status.clear
      err := { s.err with code := 0#8 }
      frames := [], pendAlloc := false, gpal := [], repeatCount := 0#16, trailCount := 0, endPos := 0
      result := { s.result with rgba := none }
      docHidden := false
      docEpoch := s.docEpoch + 1 })
  else .refused .inCapacity

/-- DECODE (R132). -/
def execDecode (s : State) : Answer :=
  let s := startCommand s
  match checkFrame s with
  | some e => .next (raiseUsage e none s)
  | none => fillDecoded .decode s

/-- DEINTERLACE (R133, R281, R284). -/
def execDeinterlace (s : State) : Answer :=
  let s := startCommand s
  match checkFrame s with
  | some e => .next (raiseUsage e none s)
  | none =>
    if (curFrame s).interlace = false then .next (raiseUsage .notInterlaced none s)
    else if (curFrame s).dei = .folded then .next (showDec s)
    else fillDecoded .deinterlace s

/-- COMPOSE (R134, R306). -/
def execCompose (s : State) : Answer :=
  let s := startCommand s
  match checkFrame s with
  | some e => .next (raiseUsage e none s)
  | none => fillDecoded .compose s

/-- CMD_ILLEGAL (R136): `E_BAD_COMMAND` with the code. -/
def execCmdIllegal (code : Byte) (s : State) : Answer :=
  .next (raiseUsage .badCommand (some code) (startCommand s))

end Sys2Proof.Machine
end

