-- ==== Sys2Proof/Machine/Extension.lean ====
section
/-! DEFINITION. The meanings of the extensions and of the sub-block chains they skip: EXT_GCE, EXT_APP,
EXT_APP_NS, EXT_APP_X, EXT_COMMENT, EXT_PTEXT, EXT_UNKNOWN, SUBBLOCK, SUBBLOCK_END
(41_container_parser R165 to R174, R178, R180). A chain is walked one sub-block a step (log 5). -/

namespace Sys2Proof.Machine

/-- EXT_GCE (R166): the terminator is checked before the frame record is touched. -/
def execExtGce (len pk : Byte) (delay : Half) (index : Byte) (term : Option Byte) (s : State) : Answer :=
  let t := s.pos + 3 + len.toNat
  if term = some 0#8 then .next (goto (t + 1) .block (modPend (withGce pk delay index) (preAllocate s)))
  else .next (raiseParse .gceNoTerminator t term s)

/-- EXT_APP (R167): the length byte must be 11; the identifier selects what follows at the same
offset. -/
def execExtApp (len : Option Byte) (ident : List (Option Byte)) (s : State) : Answer :=
  if len = some 11#8 then .next (goto s.pos (.app (ident == Config.netscape.map some)) s)
  else .next (raiseParse .appLength (s.pos + 2) len s)

/-- EXT_APP_NS (R168): size, identifier and terminator are checked in offset order. -/
def execExtAppNs (size ident : Option Byte) (loops : Half) (term : Option Byte) (s : State) : Answer :=
  let q := s.pos + 14
  if size ≠ some 3#8 then .next (raiseParse .netscapeSize q size s)
  else if ident ≠ some 1#8 then .next (raiseParse .netscapeId (q + 1) ident s)
  else if term ≠ some 0#8 then .next (raiseParse .netscapeNoTerminator (q + 4) term s)
  else
    .next (goto (q + 5) .block
      { s with repeatCount := loops, status := { s.status with repeatValid := true } })

/-- EXT_APP_X (R169): the chain at offset 14 is skipped, whatever the identifier; `POS` stays until it ends. -/
def execExtAppX (_ident : List (Option Byte)) (s : State) : Answer :=
  .next (skipFrom (s.pos + 14) s)

/-- EXT_COMMENT (R171): the chain at offset 2 is skipped; `POS` stays until it ends. -/
def execExtComment (s : State) : Answer := .next (skipFrom (s.pos + 2) s)

/-- EXT_PTEXT (R172): the chain at offset 2 is skipped; `POS` stays until it ends. -/
def execExtPtext (s : State) : Answer := .next (skipFrom (s.pos + 2) s)

/-- EXT_UNKNOWN (R173): `E_UNKNOWN_EXTENSION` at the label. -/
def execExtUnknown (label : Option Byte) (s : State) : Answer :=
  .next (raiseParse .unknownExtension (s.pos + 1) label s)

/-- SUBBLOCK (R174, R178): the cursor moves past it; in an image's chain its data is appended to `RAW`.
An absent length byte is `E_SUBBLOCK_NO_TERMINATOR`, raised before `SkipChain` returned, so `POS` is at the tag
of a skipped block, and before `RAW_LEN` was written (R333). -/
def execSubblock (body : Option (List Byte)) (s : State) : Answer :=
  match body with
  | none => .next (raiseParse .subblockNoTerminator (chainAt (chainKind s) s.pos) none s)
  | some d =>
    match chainKind s with
    | .skip cursor => .next (skipFrom (cursor + 1 + d.length) s)
    | .image =>
      if Config.fits s.caps.raw (rawTotal s + d.length) then
        .next (goto (s.pos + 1 + d.length) (.chain .image) (modPend (fun f => { f with raw := f.raw ++ d }) s))
      else .refused .rawCapacity

/-- SUBBLOCK_END (R174, R178, R180): the chain ends: `POS` is written from the cursor of a skipped one; an image's
chain writes `RAW_LEN` and completes the frame. -/
def execSubblockEnd (s : State) : Answer :=
  match chainKind s with
  | .skip cursor => .next (goto (cursor + 1) .block s)
  | .image =>
    if Config.fits s.caps.frames (s.frames.length + 1) then
      .next (goto (s.pos + 1) .block (commitFrame (endRaw s)))
    else .refused .frameCapacity

end Sys2Proof.Machine
end

