-- ==== Sys2Proof/Machine/Header.lean ====
section
/-! DEFINITION. The meanings of the header items and the block-level items without a body: HDR_SIG,
HDR_LSD, GCT, TRAILER, BLOCK_UNKNOWN (41_container_parser R161 to R164, R179, R181, R184). -/

namespace Sys2Proof.Machine

/-- The first offset at which the signature bytes read differ from `SIG`, with the byte read (R161). A
missing operand counts as `ABSENT`. -/
def sigMismatch (sig : List Byte) (bytes : List (Option Byte)) (i : Nat) : Option (Nat × Option Byte) :=
  match sig with
  | [] => none
  | b :: rest =>
    if bytes.head?.join = some b then sigMismatch rest bytes.tail (i + 1) else some (i, bytes.head?.join)

/-- HDR_SIG (R161): every byte equals the signature, or `E_BAD_SIGNATURE` at the first that differs. -/
def execHdrSig (bytes : List (Option Byte)) (s : State) : Answer :=
  match sigMismatch Config.sig bytes 0 with
  | some (i, b) => .next (raiseParse .badSignature i b s)
  | none => .next (goto 6 .lsd s)

/-- HDR_LSD (R162). -/
def execHdrLsd (width height : Half) (pk bg aspect : Byte) (s : State) : Answer :=
  .next (goto 13 (if pkBit pk 7 then .gct else .block) { s with screen := screenOf width height pk bg aspect })

/-- GCT (R163). -/
def execGct (entries : List Rgb) (s : State) : Answer :=
  .next (goto (s.pos + 3 * entries.length) .block { s with gpal := entries })

/-- TRAILER (R179, R184): PARSE succeeds; the bytes after it are only counted. -/
def execTrailer (s : State) : Answer :=
  let pos := s.pos + 1
  .next { s with
    pos := pos, endPos := pos, trailCount := s.host.len - pos, status := trailerStatus s pos, engine := .idle }

/-- BLOCK_UNKNOWN (R181): `E_UNKNOWN_BLOCK` at the tag. -/
def execBlockUnknown (tag : Option Byte) (s : State) : Answer :=
  .next (raiseParse .unknownBlock s.pos tag s)

end Sys2Proof.Machine
end

