-- ==== Sys2Proof/Machine/Image.lean ====
section
/-! DEFINITION. The meanings of the image items: IMG, LCT, MCS, IMGDATA (41_container_parser R175 to
R178). The chain of image data and the frame commit are SUBBLOCK and SUBBLOCK_END. -/

namespace Sys2Proof.Machine

/-- IMG (R175): the frame record is allocated unless a Graphic Control extension did, and takes the
descriptor's fields. -/
def execImg (left top width height : Half) (pk : Byte) (s : State) : Answer :=
  .next (goto (s.pos + 10) (if pkBit pk 7 then .lct else .mcs)
    (modPend (withImage left top width height pk) (preAllocate s)))

/-- LCT (R176). -/
def execLct (entries : List Rgb) (s : State) : Answer :=
  .next (goto (s.pos + 3 * entries.length) .mcs (modPend (fun f => { f with lpal := entries }) s))

/-- MCS (R177): 2 to 8, or `E_BAD_MIN_CODE_SIZE` at this byte. -/
def execMcs (m : Option Byte) (s : State) : Answer :=
  match m with
  | none => .next (raiseParse .badMinCodeSize s.pos none s)
  | some b =>
    if Config.mcsMin ≤ b.toNat ∧ b.toNat ≤ Config.mcsMax then
      .next (goto (s.pos + 1) .imgData (modPend (fun f => { f with mcs := b.setWidth 4 }) s))
    else .next (raiseParse .badMinCodeSize s.pos (some b) s)

/-- IMGDATA (R178): `RAW` is emptied and its chain begins; `RAW_LEN` is written at its end. -/
def execImgData (s : State) : Answer :=
  .next (goto s.pos (.chain .image) (modPend (fun f => { f with raw := [] }) s))

end Sys2Proof.Machine
end

