-- ==== Sys2Proof/Machine/Lzw.lean ====
section
/-! DEFINITION. The meanings of the LZW code classes: CLEAR, EOI, BADCODE, DATA_FIRST, DATA, DATA_KWKWK
(42_lzw_decompressor R227 to R239). `BITPOS` was advanced by the fetch (R224). -/

namespace Sys2Proof.Machine

/-- CLEAR (R227). -/
def execClear (s : State) : Answer := .next (modLzw (resetCodes (curFrame s).mcs.toNat) s)

/-- EOI (R228): the run ends; no other state changes. -/
def execEoi (s : State) : Answer := .next (leaveLoop .eoi s)

/-- BADCODE (R229): the run ends; no other state changes. -/
def execBadcode (_code : Code) (s : State) : Answer := .next (leaveLoop .badcode s)

/-- DATA_FIRST (R230): the root code is emitted and becomes the previous code; no entry is added. -/
def execDataFirst (code : Code) (s : State) : Answer :=
  .next (modLzw (fun l =>
    { l with out := emit (npix s) l.out (rootPixel code), first := rootPixel code, prev := some code }) s)

/-- DATA (R231): the string of the code is walked and emitted, and an entry is added. A string beyond
`STACK_DEPTH` has no meaning in the spec (R6, log 12). -/
def execData (code : Code) (s : State) : Answer :=
  match s.lzw.prev with
  | none => .fault .noPreviousCode
  | some p =>
    match walk s.lzw.dict s.lzw.clear (stackRoom s.caps.stackDepth s.lzw.stack) code s.lzw.stack with
    | none => .refused .stackDepth
    | some (root, stack) => .next (modLzw (finishData (npix s) p code root stack) s)

/-- DATA_KWKWK (R232): the code is `AVAIL`, the entry this step adds: the previous string followed by its
own first pixel. -/
def execDataKwkwk (s : State) : Answer :=
  match s.lzw.prev with
  | none => .fault .noPreviousCode
  | some p =>
    match push s.caps.stackDepth s.lzw.first s.lzw.stack with
    | none => .refused .stackDepth
    | some st =>
      match walk s.lzw.dict s.lzw.clear (stackRoom s.caps.stackDepth st) p st with
      | none => .refused .stackDepth
      | some (root, stack) =>
        .next (modLzw (finishData (npix s) p (BitVec.ofNat 12 s.lzw.avail) root stack) s)

end Sys2Proof.Machine
end

