-- ==== Sys2Proof/Machine/Dispatch.lean ====
section
/-! DEFINITION. The meaning of every instruction: one arm per constructor, one direct call each. -/

namespace Sys2Proof.Machine

/-- Run one instruction. -/
def exec (i : Instr) (s : State) : Host.Outcome State Fault Refusal :=
  match i with
  -- the container stream
  | .hdrSig bytes => Sys2Proof.Machine.execHdrSig bytes s
  | .hdrLsd width height pk bg aspect => Sys2Proof.Machine.execHdrLsd width height pk bg aspect s
  | .gct entries => Sys2Proof.Machine.execGct entries s
  | .extGce len pk delay index term => Sys2Proof.Machine.execExtGce len pk delay index term s
  | .extApp len ident => Sys2Proof.Machine.execExtApp len ident s
  | .extAppNs size ident loops term => Sys2Proof.Machine.execExtAppNs size ident loops term s
  | .extAppX ident => Sys2Proof.Machine.execExtAppX ident s
  | .extComment => Sys2Proof.Machine.execExtComment s
  | .extPtext => Sys2Proof.Machine.execExtPtext s
  | .extUnknown label => Sys2Proof.Machine.execExtUnknown label s
  | .img left top width height pk => Sys2Proof.Machine.execImg left top width height pk s
  | .lct entries => Sys2Proof.Machine.execLct entries s
  | .mcs m => Sys2Proof.Machine.execMcs m s
  | .imgData => Sys2Proof.Machine.execImgData s
  | .subblock body => Sys2Proof.Machine.execSubblock body s
  | .subblockEnd => Sys2Proof.Machine.execSubblockEnd s
  | .trailer => Sys2Proof.Machine.execTrailer s
  | .blockUnknown tag => Sys2Proof.Machine.execBlockUnknown tag s
  -- the LZW code stream
  | .clear => Sys2Proof.Machine.execClear s
  | .eoi => Sys2Proof.Machine.execEoi s
  | .badcode code => Sys2Proof.Machine.execBadcode code s
  | .dataFirst code => Sys2Proof.Machine.execDataFirst code s
  | .data code => Sys2Proof.Machine.execData code s
  | .dataKwkwk => Sys2Proof.Machine.execDataKwkwk s
  -- the host commands
  | .parse => Sys2Proof.Machine.execParse s
  | .decode => Sys2Proof.Machine.execDecode s
  | .deinterlace => Sys2Proof.Machine.execDeinterlace s
  | .compose => Sys2Proof.Machine.execCompose s
  | .cmdIllegal code => Sys2Proof.Machine.execCmdIllegal code s

end Sys2Proof.Machine
end

