-- ==== Sys2Proof/Machine/Fetch.lean ====
section
/-! DEFINITION. What the next step does: which stream it fetches from, at which place, and the steps that
run no instruction (a host write, the end of an LZW loop, waiting). -/

namespace Sys2Proof.Machine

/-- A host write to a register or to `IN` (R22, R23, R382). A write of `CMD` is fetched as a command. -/
def applyWrite (w : HostWrite) (s : State) : State :=
  match w with
  | .inByte off b => { s with inMem := s.inMem.write off b }
  | .len n => { s with host := { s.host with len := n } }
  | .argFrame n => { s with host := { s.host with argFrame := n } }
  | .argFlags b => { s with host := { s.host with argFlags := b } }
  | .command code => { s with host := { s.host with cmd := code } }

/-- Where the item of a kind starts: the header items stand at fixed offsets, a length byte of a skipped chain at
the cursor of `SkipChain`, the others at `POS` (R70, R174, R325). -/
def itemBase (ph : ParsePhase) (s : State) : Nat :=
  match ph with
  | .sig => 0
  | .lsd => 6
  | .gct => s.pos
  | .block => s.pos
  | .app _ => s.pos
  | .lct => s.pos
  | .mcs => s.pos
  | .imgData => s.pos
  | .chain k => chainAt k s.pos

/-- The size exponent of the palette that may stand here (R163, R176). -/
def palSizeAt (ph : ParsePhase) (s : State) : BitVec 3 :=
  match ph with
  | .lct => s.pendRec.lctSize
  | .sig => s.screen.gctSize
  | .lsd => s.screen.gctSize
  | .gct => s.screen.gctSize
  | .block => s.screen.gctSize
  | .app _ => s.screen.gctSize
  | .mcs => s.screen.gctSize
  | .imgData => s.screen.gctSize
  | .chain _ => s.screen.gctSize

/-- The input as the item at hand sees it. -/
def itemReader (ph : ParsePhase) (s : State) (k : Nat) : Option Byte := inByte s (itemBase ph s + k)

/-- The payload of the current frame (R67). -/
def rawReader (s : State) (k : Nat) : Option Byte := (curFrame s).raw[k]?

/-- `CODE` is written and `BITPOS` moves past the code (R224). -/
def advanceCode (s : State) : State :=
  modLzw (fun l =>
    { l with code := BitVec.ofNat 12 (codeAt (rawReader s) l.bitpos l.cw), bitpos := l.bitpos + l.cw }) s

/-- What the next step does. -/
inductive Fetched where
  /-- nothing: no command runs and the host has written nothing -/
  | wait
  /-- a host write other than of `CMD`, in the state it leaves -/
  | written (s : State)
  /-- an instruction, in the state it runs in -/
  | instr (i : Instr) (s : State)
  /-- the LZW loop ends without a code being read (R223, R225) -/
  | leave (r : EndReason)
  /-- the padding and the command's remainder after the LZW loop (R237) -/
  | finish (c : Caller)
  deriving DecidableEq, Repr

/-- The host's next write. -/
def fetchHost (s : State) : Fetched :=
  match s.hostq with
  | [] => .wait
  | .command code :: q => .instr (decodeCommand code) (applyWrite (.command code) { s with hostq := q })
  | w :: q => .written (applyWrite w { s with hostq := q })

/-- The loop head of R223. -/
def fetchCode (c : Caller) (s : State) : Fetched :=
  if s.lzw.ended then .finish c
  else if npix s ≤ s.lzw.out.length then .leave .count
  else
    match decode (.lzw (lzwCtx s)) (rawReader s) with
    | .error .exhausted => .leave .exhausted
    | .ok i => .instr i (advanceCode s)

/-- The next step's work: from the stream the engine reads. -/
def fetch (s : State) : Fetched :=
  match s.engine with
  | .idle => fetchHost s
  | .parse ph => .instr (decodeItem ph (palSizeAt ph s) (itemReader ph s)) s
  | .lzw c => fetchCode c s

/-- The bytes of an opcode-table word of `nbits` bits and zeros after it, `n` in all, as cells from an
address. -/
def wordCells (nbits w a n : Nat) : Memory := (List.range n).map fun k => (a + k, wordByte nbits w k)

/-- The longest item: a palette of 256 entries (R93). -/
def longestItem : Nat := 768

/-- The memory with `n` cells from address `a` replaced. -/
def Memory.splice (m : Memory) (a n : Nat) (cells : Memory) : Memory :=
  m.filter (fun c => decide (c.1 < a)) ++ cells ++ m.filter (fun c => decide (a + n ≤ c.1))

/-- A container item placed where the parser reads it: the kind of item, the input from its first byte on,
and a length that makes it present. A global palette takes its size from the screen descriptor, so that
is set too. -/
def placeItem (ph : ParsePhase) (size : BitVec 3) (nbits w : Nat) (s : State) : State :=
  let a := itemBase ph s
  { s with
    engine := .parse ph
    screen := if ph = .gct then { s.screen with gctSize := size } else s.screen
    inMem := s.inMem.splice a longestItem (wordCells nbits w a longestItem)
    host := { s.host with len := max s.host.len (a + longestItem) } }

/-- An opcode-table word placed so that the next step runs it (log 7). -/
def placeWord (nbits w : Nat) (s : State) : State :=
  match tableCtx nbits w with
  | some (.container ph size) => placeItem ph size nbits w s
  | some .host => { s with engine := .idle, hostq := .command (wordByte nbits w 0) :: s.hostq }
  | some (.lzw _) => s
  | none => s

end Sys2Proof.Machine
end

