-- ==== Sys2Proof/Machine/Step.lean ====
section
/-! DEFINITION. One step of the block, and the placing of one instruction word for it. -/

namespace Sys2Proof.Machine

/-- One step: a host write, one instruction of the stream the engine reads, or the end of an LZW loop.
With nothing to do the block waits: its state does not change (log 6). -/
def step (s : State) : Host.Outcome State Fault Refusal :=
  match fetch s with
  | .wait => .next s
  | .written t => .next t
  | .instr i t => exec i t
  | .leave r => .next (leaveLoop r s)
  | .finish c => .next (finishRun c s)

/-- `s` with an opcode-table word stored where `step` fetches its next instruction (log 7). -/
def State.withFetchWord (s : State) (nbits w : Nat) : State := placeWord nbits w s

end Sys2Proof.Machine
end

