-- ==== Sys2Proof/Machine/HostPort.lean ====
section
/-! DEFINITION. The host's side of the register file (10_state R44): which registers it writes, and what it
reads between commands. Reads have no side effect (R69), so no step is needed for one; a read the spec
calls meaningless is refused, a value it calls unspecified is given as such (93 U6, U8 to U11). -/

namespace Sys2Proof.Machine

/-- Why a host read has no meaning. -/
inductive ReadRefusal where
  /-- during a command (R385, U10) -/
  | duringCommand
  /-- `CMD` is write-only (R22) -/
  | writeOnly
  /-- a number R44 does not list -/
  | noRegister
  /-- the partial document of a failed PARSE (R335, U11) -/
  | partialDocument
  /-- the frame window with `ARG_FRAME >= FRAME_COUNT` (U9) -/
  | noFrame
  /-- no window is selected, or an index at or beyond its length -/
  | outOfWindow
  deriving DecidableEq, Repr

/-- What a host read gives. -/
inductive HostRead (α : Type) where
  | value (v : α)
  | unspecified
  | refused (why : ReadRefusal)
  deriving DecidableEq, Repr

/-- The host's write of a register by number; none where R44 gives no write access (log 21). -/
def HostWrite.ofReg (no v : Nat) : Option HostWrite :=
  if no = 0x00 then some (.command (BitVec.ofNat 8 v))
  else if no = 0x01 then some (.argFrame v)
  else if no = 0x02 then some (.argFlags (BitVec.ofNat 8 v))
  else if no = 0x08 then some (.len v)
  else none

/-- The writes that place a whole file in `IN` and set `LEN` (R382). -/
def HostWrite.load (bytes : List Byte) : List HostWrite :=
  (bytes.zipIdx.map fun p => HostWrite.inByte p.2 p.1) ++ [.len bytes.length]

/-- `SCR_FLAGS`: the packed byte as read (R44). -/
def Screen.flags (c : Screen) : Nat :=
  flagBit c.gctFlag 7 + c.colorRes.toNat * 16 + flagBit c.sort 3 + c.gctSize.toNat

/-- Register 0x20, `GCE` (R44). -/
def Frame.gceReg (f : Frame) : Nat :=
  flagBit f.gcePresent 8 + f.disposal.toNat * 4 + flagBit f.userInput 1 + flagBit f.transpFlag 0

/-- Register 0x27, `IMG_FLAGS` (R44). -/
def Frame.imgFlags (f : Frame) : Nat :=
  flagBit f.lctFlag 7 + flagBit f.interlace 6 + flagBit f.imgSort 5 + f.lctSize.toNat

/-- Register 0x2A, `CACHE` (R44). -/
def Frame.cacheReg (f : Frame) : Nat := flagBit f.dec.isSome 0 + f.dei.num * 2

/-- Register 0x2B, `DEC_LEN` (R36, R44). While `DEC_VALID` is 0 the spec gives it no value, and the model answers
unspecified. DESIGN CHOICE (log 27). -/
def Frame.decLenReg (f : Frame) : HostRead Nat :=
  match f.dec with
  | some d => .value d.length
  | none => .unspecified

/-- The frame window, 0x20 to 0x2B (R44). -/
def Frame.windowRegs (f : Frame) : List (Nat × HostRead Nat) :=
  [(0x20, .value f.gceReg), (0x21, .value f.transpIndex.toNat), (0x22, .value f.delay.toNat),
   (0x23, .value f.left.toNat), (0x24, .value f.top.toNat), (0x25, .value f.width.toNat),
   (0x26, .value f.height.toNat), (0x27, .value f.imgFlags), (0x28, .value f.mcs.toNat),
   (0x29, .value f.rawLen), (0x2A, .value f.cacheReg), (0x2B, f.decLenReg)]

/-- The row of a number in the frame window. -/
def Frame.windowReg (f : Frame) (no : Nat) : Option (HostRead Nat) := sparseGet f.windowRegs no

/-- The document registers, 0x0A to 0x11 (10_state section 6, R44). That `TRAIL_COUNT` is one of those a failed PARSE
leaves unspecified (R335, U11) is read from the section R31 stands in. DEDUCED (log 8). -/
def docRegs (s : State) : List (Nat × Nat) :=
  [(0x0A, s.trailCount), (0x0B, s.screen.width.toNat), (0x0C, s.screen.height.toNat), (0x0D, s.screen.flags),
   (0x0E, s.screen.bgIndex.toNat), (0x0F, s.screen.aspect.toNat), (0x10, s.repeatCount.toNat),
   (0x11, s.frames.length)]

/-- The row of a number among the document registers. -/
def docReg (s : State) (no : Nat) : Option Nat := sparseGet (docRegs s) no

/-- The registers that are always defined between commands (R44). `ARG_FLAGS` reads back all 8 bits as written; the spec
says of bits 7:1 only that they are ignored. DESIGN CHOICE (log 26). `END_POS` after a failed PARSE is the 0 of
R131, since it is not among the document registers of 10_state section 6. DEDUCED (log 8). -/
def plainRegs (s : State) : List (Nat × Nat) :=
  [(0x01, s.host.argFrame), (0x02, s.host.argFlags.toNat), (0x03, s.status.word.toNat),
   (0x04, s.err.code.toNat), (0x05, s.err.offset), (0x06, flagBit s.err.byteValid 8 + s.err.byte.toNat),
   (0x07, s.err.frame), (0x08, s.host.len), (0x09, s.endPos), (0x12, s.lzwRuns.toNat), (0x13, s.endReason.num),
   (0x14, s.result.sel.num), (0x15, s.result.len), (0x16, s.result.left.toNat), (0x17, s.result.top.toNat),
   (0x18, s.result.width.toNat), (0x19, s.result.height.toNat), (0x1A, s.result.pix)]

/-- The row of a number among those registers. -/
def plainReg (s : State) (no : Nat) : Option Nat := sparseGet (plainRegs s) no

/-- The host reads a register by number (R44). -/
def readReg (s : State) (no : Nat) : HostRead Nat :=
  if s.engine ≠ .idle then .refused .duringCommand
  else if no = 0x00 then .refused .writeOnly
  else
    match plainReg s no with
    | some v => .value v
    | none =>
      match docReg s no with
      | some v => if s.docHidden then .refused .partialDocument else .value v
      | none =>
        match (curFrame s).windowReg no with
        | none => .refused .noRegister
        | some v =>
          if s.docHidden then .refused .partialDocument
          else if s.frames.length ≤ s.host.argFrame then .refused .noFrame
          else v

/-- The host reads an entry of a space of the document, `none` if there is no such frame (R141, U9); unspecified
at or beyond the space's length (U6). -/
def readEntry {α : Type} (s : State) (space : Option (List α)) (k : Nat) : HostRead α :=
  if s.engine ≠ .idle then .refused .duringCommand
  else if s.docHidden then .refused .partialDocument
  else
    match space with
    | none => .refused .noFrame
    | some xs =>
      match xs[k]? with
      | some v => .value v
      | none => .unspecified

/-- The host reads `GPAL[k]` (R60). -/
def readGpal (s : State) (k : Nat) : HostRead Rgb := readEntry s (some s.gpal) k

/-- The host reads `FR[i].LPAL[k]` (R60). -/
def readLpal (s : State) (i k : Nat) : HostRead Rgb := readEntry s (s.frames[i]?.map Frame.lpal) k

/-- `RAW[0 .. RAW_LEN-1]` (R35). -/
def Frame.payload (f : Frame) : List Byte := f.raw.take f.rawLen

/-- The host reads `FR[i].RAW[k]` (R60). -/
def readRaw (s : State) (i k : Nat) : HostRead Byte := readEntry s (s.frames[i]?.map Frame.payload) k

/-- The store behind the window; `none` where its content is unspecified (R41, U8, log 20). -/
def windowStore (s : State) : Option (List Byte) :=
  match s.result.sel with
  | .none => none
  | .dec => (curFrame s).dec
  | .dei =>
    match (curFrame s).dei with
    | .valid d => some d
    | .empty => none
    | .folded => none
  | .rgba => s.result.rgba

/-- The host reads element `i` of the result window (R41, R142). -/
def readWindow (s : State) (i : Nat) : HostRead Byte :=
  if s.engine ≠ .idle then .refused .duringCommand
  else if s.result.sel = .none ∨ s.result.len ≤ i then .refused .outOfWindow
  else
    match windowStore s with
    | none => .unspecified
    | some xs =>
      match xs[i]? with
      | some v => .value v
      | none => .unspecified

end Sys2Proof.Machine
end

