-- ==== Sys2Proof/Machine/Run.lean ====
section
/-! DEFINITION. A host command run to completion (40_host_commands R130): what the host sees as one
indivisible transition is the steps from the write of `CMD` until the engine is idle again (log 4). -/

namespace Sys2Proof.Machine

/-- Steps until the engine is idle, at most `n`. -/
def runIdle : Nat → State → Answer
  | 0, s => .next s
  | n + 1, s =>
    if s.engine = .idle then .next s
    else
      match step s with
      | .next t => runIdle n t
      | .fault r => .fault r
      | .refused r => .refused r

/-- How far an item of a kind is from the next byte of progress: the items that do not move it count
down (R183). -/
def phaseRank : ParsePhase → Nat
  | .sig => 5
  | .lsd => 4
  | .gct => 3
  | .block => 2
  | .app _ => 1
  | .lct => 1
  | .mcs => 0
  | .imgData => 1
  | .chain _ => 0

/-- A bound on the steps until the engine is idle (R183, R242). -/
def stepBound (s : State) : Nat :=
  match s.engine with
  | .idle => 0
  | .parse ph => 3 * (s.host.len - itemBase ph s) + phaseRank ph + 1
  | .lzw _ => if s.lzw.ended then 1 else 8 * (curFrame s).rawLen - s.lzw.bitpos + 2

/-- The host writes `CMD` and the command runs to completion (R130). -/
def runCommand (code : Byte) (s : State) : Answer :=
  match exec (decodeCommand code) (applyWrite (.command code) s) with
  | .next t => runIdle (stepBound t) t
  | .fault r => .fault r
  | .refused r => .refused r

end Sys2Proof.Machine
end

