-- ==== Sys2Proof/Safety.lean ====
section
/-! DEFINITION. What a state that a run can reach satisfies, in the terms claims use: the canonical
memory, the completed frame records (10_state R29 to R37), the record being assembled, the run invariants
of the LZW engine (42_lzw_decompressor R241, R243, R244), the range of `POS` (10_state R25, 90 C8). -/

namespace Sys2Proof.Machine

/-- The number of entries of a palette with its present bit and size exponent (R29, R34, R301). -/
def paletteLen (present : Bool) (size : BitVec 3) : Nat := if present then palLen size else 0

/-- The Graphic Control fields of a record: zero without an extension, index zero without the flag (R32). -/
structure Frame.GceOk (f : Frame) : Prop where
  absent : f.gcePresent = false → f.disposal = 0#3 ∧ f.userInput = false ∧ f.transpFlag = false ∧ f.delay = 0#16
  index : f.transpFlag = false → f.transpIndex = 0#8

/-- A record being assembled has empty caches (R170). -/
structure Frame.Fresh (f : Frame) : Prop where
  gce : f.GceOk
  dec : f.dec = none
  dei : f.dei = .empty

/-- The minimum code size of a frame that PARSE accepted (R35, R177). -/
def Frame.McsOk (f : Frame) : Prop := 2 ≤ f.mcs.toNat ∧ f.mcs.toNat ≤ 8

/-- A completed frame record (R32 to R37). The decoded length is `WIDTH*HEIGHT`, or 1 for an empty payload
(R221, C2). -/
structure Frame.Ok (f : Frame) : Prop where
  gce : f.GceOk
  mcs : f.McsOk
  lpal : f.lpal.length = paletteLen f.lctFlag f.lctSize
  rawLen : f.rawLen = f.raw.length
  decLen : ∀ d, f.dec = some d → d.length = f.npix ∨ (f.rawLen = 0 ∧ d.length = 1)
  deiLen : ∀ d, f.dei = .valid d → d.length = f.npix
  deiAfterDec : f.dec = none → f.dei = .empty
  deiInterlaced : f.dei ≠ .empty → f.interlace = true

/-- The dictionary of a run: every entry below `AVAIL` was written, its prefix is a root or a smaller entry,
its suffix a pixel below `CLEAR` (R241, 5). -/
def Dict.Ok (d : Dict) (clear avail : Nat) : Prop :=
  ∀ k, clear + 2 ≤ k → k < avail →
    ∃ e, sparseGet d k = some e ∧ e.pre.toNat < k ∧ (e.pre.toNat < clear ∨ clear + 2 ≤ e.pre.toNat) ∧
      e.suffix.toNat < clear

/-- The previous code of a run and the pixel `FIRST` (R241, 4 and 6): `FIRST` is the first pixel of the
string of `PREV`. -/
def Lzw.PrevOk (l : Lzw) : Prop :=
  ∀ p, l.prev = some p →
    p.toNat < l.avail ∧ p.toNat ≠ l.clear ∧ p.toNat ≠ l.eoi ∧
    ∃ root str, walk l.dict l.clear Config.maxCodes p [] = some (root, str) ∧
      root.toNat < l.clear ∧ l.first = rootPixel root

/-- The invariants of a run at a code fetch (R241), with the ranges of `BITPOS` and `PI` (R38, R320) and of
the pixels emitted (R244). -/
structure Lzw.Ok (mcs rawLen npix : Nat) (l : Lzw) : Prop where
  clear : l.clear = 2 ^ mcs
  eoi : l.eoi = l.clear + 1
  availLo : l.clear + 2 ≤ l.avail
  availHi : l.avail ≤ Config.maxCodes
  cwLo : mcs + 1 ≤ l.cw
  cwHi : l.cw ≤ Config.maxWidth
  widthLo : 2 ^ (l.cw - 1) ≤ l.avail
  widthHi : l.cw < Config.maxWidth → l.avail < 2 ^ l.cw
  start : l.prev = none → l.avail = l.clear + 2
  prev : l.PrevOk
  dict : l.dict.Ok l.clear l.avail
  dictWf : l.dict.wf = true
  stack : l.stack = []
  bitpos : l.bitpos ≤ 8 * rawLen
  outLen : l.out.length ≤ npix
  outRange : ∀ v ∈ l.out, v.toNat < l.clear

/-- The global palette agrees with its descriptor (R29). -/
def State.GpalOk (s : State) : Prop := s.gpal.length = paletteLen s.screen.gctFlag s.screen.gctSize

/-- Between blocks: a record allocated by a Graphic Control extension has no image fields yet (R170). -/
def State.PendOk (s : State) : Prop :=
  s.pendAlloc = true → s.pendRec.Fresh ∧ s.pendRec.lctFlag = false ∧ s.pendRec.lpal = []

/-- What holds while the parser reads an item of a kind. -/
def State.ItemOk (s : State) : ParsePhase → Prop
  | .sig => s.gpal = [] ∧ s.pendAlloc = false
  | .lsd => s.gpal = [] ∧ s.pendAlloc = false
  | .gct => s.screen.gctFlag = true ∧ s.pendAlloc = false
  | .block => s.GpalOk ∧ s.PendOk
  | .app _ => s.GpalOk ∧ s.PendOk
  | .chain (.skip _) => s.GpalOk ∧ s.PendOk
  | .lct => s.GpalOk ∧ s.pendAlloc = true ∧ s.pendRec.Fresh ∧ s.pendRec.lctFlag = true
  | .mcs => s.GpalOk ∧ s.pendAlloc = true ∧ s.pendRec.Fresh ∧
      s.pendRec.lpal.length = paletteLen s.pendRec.lctFlag s.pendRec.lctSize
  | .imgData => s.GpalOk ∧ s.pendAlloc = true ∧ s.pendRec.Fresh ∧ s.pendRec.McsOk ∧
      s.pendRec.lpal.length = paletteLen s.pendRec.lctFlag s.pendRec.lctSize
  | .chain .image => s.GpalOk ∧ s.pendAlloc = true ∧ s.pendRec.Fresh ∧ s.pendRec.McsOk ∧
      s.pendRec.lpal.length = paletteLen s.pendRec.lctFlag s.pendRec.lctSize

/-- What holds during an LZW run for a command. -/
structure State.RunOk (s : State) (c : Caller) : Prop where
  doc : s.status.docValid = true
  err : s.status.err = false ∧ s.err.code = 0#8
  index : s.host.argFrame < s.frames.length
  payload : (curFrame s).rawLen ≠ 0
  slot : (curFrame s).dec = none
  caller : c = .deinterlace → (curFrame s).interlace = true
  pix : Config.fits s.caps.pix (npix s) = true
  lzw : s.lzw.Ok (curFrame s).mcs.toNat (curFrame s).rawLen (npix s)

/-- The invariant of the machine. -/
structure State.Inv (s : State) : Prop where
  mem : s.inMem.wf = true
  dict : s.lzw.dict.wf = true
  frames : ∀ f ∈ s.frames, f.Ok
  gpal : s.status.docValid = true → s.GpalOk
  hidden : s.docHidden = true → s.status.docValid = false
  parse : ∀ ph, s.engine = .parse ph → s.status.docValid = false ∧ s.docHidden = false ∧ s.ItemOk ph
  run : ∀ c, s.engine = .lzw c → s.RunOk c

/-- How far `POS` can be past the input when an item of a kind is read (R25, C8). A skipped chain has its cursor ahead
of `POS` (R174). -/
def State.PosOk (s : State) : Prop :=
  match s.engine with
  | .idle => True
  | .lzw _ => True
  | .parse .sig => s.pos = 0
  | .parse .lsd => s.pos = 6 ∧ 6 ≤ s.host.len
  | .parse .gct => s.pos ≤ s.host.len + 7
  | .parse .block => s.pos ≤ s.host.len + 775
  | .parse (.app _) => s.pos + 3 ≤ s.host.len
  | .parse .lct => s.pos ≤ s.host.len + 9
  | .parse .mcs => s.pos ≤ s.host.len + 777
  | .parse .imgData => s.pos ≤ s.host.len
  | .parse (.chain k) => s.pos ≤ chainAt k s.pos ∧ chainAt k s.pos ≤ s.host.len + 255

/-- A run of `n` steps that answers a next state. -/
def runsTo (n : Nat) (s t : State) : Prop := Sys2Proof.core.run n s = .next t

/-! ## Terms of the spec that claims use -/

/-- A string of pixels a code stands for: a root code for itself, an entry for the string of its prefix
followed by its suffix (R233, R241). -/
inductive Spells (d : Dict) (clear : Nat) : Code → List Byte → Prop where
  | root (c : Code) (h : c.toNat < clear) : Spells d clear c [BitVec.ofNat 8 c.toNat]
  | entry (c : Code) (e : DictEntry) (str : List Byte) (h : clear < c.toNat)
      (he : sparseGet d c.toNat = some e) (hs : Spells d clear e.pre str) :
      Spells d clear c (str ++ [e.suffix])

/-- The bytes of a chain of sub-blocks (R101). -/
def chainOf (blocks : List (List Byte)) : List Byte :=
  blocks.flatMap (fun b => BitVec.ofNat 8 b.length :: b) ++ [0#8]

/-- Sub-blocks of 1 to 255 data bytes (R101). -/
def SubblocksOk (blocks : List (List Byte)) : Prop := ∀ b ∈ blocks, 1 ≤ b.length ∧ b.length ≤ 255

/-- The input holds these bytes from an offset on. -/
def State.Holds (s : State) (o : Nat) (bytes : List Byte) : Prop :=
  ∀ k, k < bytes.length → inByte s (o + k) = bytes[k]?

/-- The input ends inside a chain of these sub-blocks: every length byte is there, the data bytes that are not count 0,
and where the next length byte should stand there is none (R174, R182). -/
def State.HoldsCut (s : State) : Nat → List (List Byte) → Prop
  | o, [] => s.host.len ≤ o
  | o, b :: rest =>
    inByte s o = some (BitVec.ofNat 8 b.length) ∧
    (∀ k, k < b.length → inData (inByte s) (o + 1 + k) = b[k]?.getD 0#8) ∧ s.HoldsCut (o + 1 + b.length) rest

/-- The bytes of sub-blocks without a terminator take this many offsets. -/
def blocksSize (blocks : List (List Byte)) : Nat := (blocks.map fun b => b.length + 1).sum

/-- The accumulator form stands at a bit offset of a payload: `BITPOS = 8*BI - NBITS` (R240). -/
structure Accum.At (raw : List Byte) (bitpos : Nat) (a : Accum) : Prop where
  inside : a.bi ≤ raw.length
  small : a.nbits ≤ 7
  offset : bitpos + a.nbits = 8 * a.bi
  datum : a.datum = codeAt (fun k => raw[k]?) bitpos a.nbits

/-- The state after a PARSE that failed its check of the byte at an offset, with the number of the error:
what R332 and R333 write, the command ended, and the partial document hidden (R335, log 8). -/
def State.afterParseError (s : State) (code : Byte) (off : Nat) (byte : Option Byte) : State :=
  { s with
    err := ⟨code, off, byte.getD 0#8, byte.isSome, s.frames.length⟩
    status := { s.status with err := true }
    engine := .idle
    docHidden := true }

/-- The state after a usage error (R332, R333, R336): the error registers and `STATUS.ERR`, nothing else. -/
def State.afterUsageError (s : State) (code : Byte) (byte : Option Byte) : State :=
  { s with
    err := ⟨code, 0, byte.getD 0#8, byte.isSome, s.host.argFrame⟩
    status := { s.status with err := true }
    engine := .idle }

/-- The state a command starts from: `STATUS.ERR` and `ERR_CODE` cleared (R130). -/
def State.started (s : State) : State :=
  { s with status := { s.status with err := false }, err := { s.err with code := 0#8 } }

end Sys2Proof.Machine
end

