-- ==== Sys2Proof/Certificates/Slice0/Obligations.lean ====
section
/-! DEFINITION. The statements for the provers. A result is stated as the whole next state: a field an
equation does not name is unchanged, so each equation is also the instruction's frame. The capacities of R6 are
those the state carries (log 12). -/

open Sys2Proof Sys2Proof.Machine

/-! ## Reset, registers, memory -/

/-- R43: what reset leaves. Nothing is loaded, `IN`, `DICT` and `RGBA` have no value (logs 2, 11, 18). The
values R43 leaves unspecified (the LZW registers, the pending record; logs 1, 3) are not stated. The capacities are
the defaults of R6 (log 12). -/
def Obligations.ResetRegisters : Prop :=
  State.reset.host = ⟨0#8, 0, 0#8, 0⟩ ∧
  State.reset.status.word = 0#8 ∧ State.reset.status.docValid = false ∧
  State.reset.err = ⟨0#8, 0, 0#8, false, 0⟩ ∧
  State.reset.pos = 0 ∧ State.reset.endPos = 0 ∧ State.reset.trailCount = 0 ∧
  State.reset.screen = ⟨0#16, 0#16, false, 0#3, false, 0#3, 0#8, 0#8⟩ ∧
  State.reset.gpal.length = 0 ∧ State.reset.repeatCount = 0#16 ∧
  State.reset.frames.length = 0 ∧ State.reset.pendAlloc = false ∧
  State.reset.result.sel.num = 0 ∧ State.reset.result.len = 0 ∧ State.reset.result.pix = 0 ∧
  State.reset.result.left = 0#16 ∧ State.reset.result.top = 0#16 ∧
  State.reset.result.width = 0#16 ∧ State.reset.result.height = 0#16 ∧
  State.reset.lzwRuns = 0#32 ∧ State.reset.endReason.num = 0 ∧
  (∀ o, State.reset.inMem.read o = Config.inUnwritten o) ∧
  (∀ k, State.reset.lzw.dict.read k = Config.dictUnwritten k) ∧
  State.reset.result.rgba = none ∧ State.reset.caps = ⟨none, none, none, some (65535 * 65535), 4096⟩

/-- The invariant of the machine holds at reset. -/
def Obligations.InvariantHoldsAtReset : Prop :=
  State.reset.Inv ∧ State.reset.PosOk

/-- R64, R60: a byte the host wrote is read back below `LEN` and is absent at or beyond it; every other byte is
as before. -/
def Obligations.InputReadsWhatTheHostWrote : Prop :=
  ∀ (s : State) (a o : Nat) (b : Byte),
    inByte (applyWrite (.inByte a b) s) o =
      if o < s.host.len then (if o = a then some b else inByte s o) else none

/-- R67, and the `le16` of R66: a 16-bit read is little-endian, an absent byte counting 0; bit `k` of a code is stream
bit `BITPOS + k`, which is bit `j mod 8` of byte `j div 8`. -/
def Obligations.ByteAndBitOrder : Prop :=
  (∀ (rd : Nat → Option Byte) (o : Nat),
    (inHalf rd o).toNat = ((rd o).getD 0#8).toNat + 256 * ((rd (o + 1)).getD 0#8).toNat) ∧
  (∀ (raw : List Byte) (bitpos cw k : Nat), k < cw → bitpos + cw ≤ 8 * raw.length →
    (codeAt (fun n => raw[n]?) bitpos cw).testBit k =
      (raw[(bitpos + k) / 8]?.getD 0#8).getLsbD ((bitpos + k) % 8) ∧
    codeAt (fun n => raw[n]?) bitpos cw < 2 ^ cw)

/-- R240: from its start on, and for every payload, the accumulator form fetches the same codes, is exhausted at the
same point, and stays at the bit offset; its accumulator needs 19 bits. -/
def Obligations.AccumulatorFormFetchesTheSameCode : Prop :=
  (∀ raw : List Byte, Accum.At raw 0 Accum.start) ∧
  ∀ (raw : List Byte) (bitpos cw : Nat) (a : Accum), a.At raw bitpos → 3 ≤ cw → cw ≤ 12 →
    (8 * raw.length - bitpos < cw → accFetch raw cw a = none) ∧
    (cw ≤ 8 * raw.length - bitpos → ∃ f t, accFill raw cw 3 a = some f ∧ f.nbits ≤ 19 ∧ f.datum < 2 ^ 19 ∧
      accFetch raw cw a = some (codeAt (fun n => raw[n]?) bitpos cw, t) ∧ t.At raw (bitpos + cw))

/-! ## Encoding -/

/-- Words written out from the tables of 30_encoding and the examples of 41 and 42 decode to the instruction
they stand for. -/
def Obligations.WrittenOutWordsDecode : Prop :=
  decode (.container .block 0#3) (fun k => [0x21#8, 0xF9#8, 0x04#8, 0x05#8, 0x0A#8, 0x00#8, 0x07#8, 0x00#8][k]?) =
    .ok (.extGce 4#8 5#8 10#16 7#8 (some 0#8)) ∧
  decode (.container .lsd 0#3) (fun k => [0x02#8, 0x00#8, 0x03#8, 0x01#8, 0x80#8, 0x05#8, 0x06#8][k]?) =
    .ok (.hdrLsd 2#16 259#16 0x80#8 5#8 6#8) ∧
  decode (.container .block 0#3)
    (fun k => [0x2C#8, 1#8, 0#8, 2#8, 0#8, 3#8, 0#8, 4#8, 1#8, 0xC1#8][k]?) =
    .ok (.img 1#16 2#16 3#16 260#16 0xC1#8) ∧
  decode (.container (.chain .image) 0#3) (fun k => [0x02#8, 0x8C#8, 0x53#8, 0x00#8][k]?) =
    .ok (.subblock (some [0x8C#8, 0x53#8])) ∧
  decode (.container .block 0#3) (fun k => [0x3B#8][k]?) = .ok .trailer ∧
  decode (.container .block 0#3) (fun _ => none) = .ok (.blockUnknown none) ∧
  decode .host (fun k => [0x03#8][k]?) = .ok .deinterlace ∧
  decode (.lzw ⟨4, 6, 3, false, 0, 2⟩) (fun k => [0x8C#8, 0x53#8][k]?) = .ok .clear ∧
  decode (.lzw ⟨4, 6, 3, false, 3, 2⟩) (fun k => [0x8C#8, 0x53#8][k]?) = .ok (.dataFirst 1#12) ∧
  decode (.lzw ⟨4, 6, 3, true, 6, 2⟩) (fun k => [0x8C#8, 0x53#8][k]?) = .ok .dataKwkwk ∧
  decode (.lzw ⟨4, 6, 3, true, 14, 2⟩) (fun k => [0x8C#8, 0x53#8][k]?) = .error .exhausted

/-- Every well-formed container item and host command, at its place and whatever follows it, decodes from its
own bytes. -/
def Obligations.ItemsDecodeFromTheirEncoding : Prop :=
  ∀ (c : Ctx) (i : Instr) (rest : List Byte), (∀ q, c ≠ .lzw q) → i.wellFormed = true → i.standsAt c = true →
    decode c (fun k => (encode c i ++ rest)[k]?) = .ok i

/-- Every well-formed LZW code, in every decoder state it can stand in, decodes from its own bits. -/
def Obligations.CodesDecodeFromTheirEncoding : Prop :=
  ∀ (q : LzwCtx) (i : Instr), i.wellFormed = true → i.standsAt (.lzw q) = true →
    decode (.lzw { q with bitpos := 0, rawLen := (encode (.lzw q) i).length })
      (fun k => (encode (.lzw q) i)[k]?) = .ok i

/-- R112: the codes of `PACK` are read back one after another at their widths, from the number of bytes the
rule says, and the unused high bits of the last byte are 0. -/
def Obligations.PackedCodesReadBack : Prop :=
  ∀ (cs : List (Nat × Nat)), (∀ c ∈ cs, c.1 < 2 ^ c.2) →
    (pack cs).length = (packBits cs + 7) / 8 ∧
    (∀ (before after : List (Nat × Nat)) (c w : Nat), cs = before ++ (c, w) :: after →
      codeAt (fun n => (pack cs)[n]?) (packBits before) w = c) ∧
    (∀ j, packBits cs ≤ j → streamBit (fun n => (pack cs)[n]?) j = 0)

/-- The encoder's widths are the decoder's: after any code that does not end the run, the width, the pointer and
the previous code are what the `LZW` pseudo-instruction computes (R112). -/
def Obligations.EncoderWidthsFollowTheDecoder : Prop :=
  ∀ (s t : State) (m len : Nat), m = (curFrame s).mcs.toNat → s.lzw.Ok m len (npix s) →
    exec (decodeCode (lzwCtx s) (codeAt (rawReader s) s.lzw.bitpos s.lzw.cw)) (advanceCode s) = .next t →
    t.lzw.ended = false →
    t.lzw.cw = (nextCodeCtx m (lzwCtx s) (codeAt (rawReader s) s.lzw.bitpos s.lzw.cw)).cw ∧
    t.lzw.avail = (nextCodeCtx m (lzwCtx s) (codeAt (rawReader s) s.lzw.bitpos s.lzw.cw)).avail ∧
    t.lzw.prev.isSome = (nextCodeCtx m (lzwCtx s) (codeAt (rawReader s) s.lzw.bitpos s.lzw.cw)).hasPrev

/-- R105: the class of a code, for every decoder state a run can be in. -/
def Obligations.CodesAreClassedInOrder : Prop :=
  ∀ (q : LzwCtx) (c : Nat), q.clear + 2 ≤ q.avail → (q.hasPrev = false → q.avail = q.clear + 2) →
    (c = q.clear → decodeCode q c = .clear) ∧
    (c = q.clear + 1 → decodeCode q c = .eoi) ∧
    (q.avail < c ∨ (q.hasPrev = false ∧ q.avail ≤ c) → decodeCode q c = .badcode (BitVec.ofNat 12 c)) ∧
    (q.hasPrev = false → c < q.clear → decodeCode q c = .dataFirst (BitVec.ofNat 12 c)) ∧
    (q.hasPrev = true → c < q.avail → c ≠ q.clear → c ≠ q.clear + 1 → decodeCode q c = .data (BitVec.ofNat 12 c)) ∧
    (q.hasPrev = true → c = q.avail → decodeCode q c = .dataKwkwk)

/-! ## Steps -/

/-- A step runs the decoded instruction: a command, after its byte is taken off the host's writes and stands in
`CMD`; a container item, as it is; a code, after `CODE` is written and `BITPOS` moved (R224). That a step is one
instruction, where R130 makes a whole command one transition, is the model's (log 4, DEDUCED), and so is the list
of the host's writes (log 6, DESIGN CHOICE). -/
def Obligations.StepRunsTheDecodedInstruction : Prop :=
  (∀ (s : State) (code : Byte) (q : List HostWrite) (i : Instr), s.engine = .idle → s.hostq = .command code :: q →
    decode .host (fun k => [code][k]?) = .ok i →
    step s = exec i { s with hostq := q, host := { s.host with cmd := code } }) ∧
  (∀ (s : State) (ph : ParsePhase) (i : Instr), s.engine = .parse ph →
    decode (.container ph (palSizeAt ph s)) (itemReader ph s) = .ok i → step s = exec i s) ∧
  (∀ (s : State) (c : Caller) (i : Instr), s.engine = .lzw c → s.lzw.ended = false →
    s.lzw.out.length < npix s → decode (.lzw (lzwCtx s)) (rawReader s) = .ok i →
    step s = exec i { s with lzw := { s.lzw with
      code := BitVec.ofNat 12 (codeAt (rawReader s) s.lzw.bitpos s.lzw.cw)
      bitpos := s.lzw.bitpos + s.lzw.cw } })

/-- The host writes registers 0x00, 0x01, 0x02 and 0x08 of R44 and no other (log 21, DEDUCED). Between commands its
writes land in order, one a step, each in its own register or byte (R22, R23); the input keeps its canonical form;
with nothing left to land the block waits (the list and the wait are log 6, DESIGN CHOICE). -/
def Obligations.HostWritesLandBetweenCommands : Prop :=
  (∀ no v : Nat, HostWrite.ofReg no v =
    match no with
    | 0x00 => some (.command (BitVec.ofNat 8 v))
    | 0x01 => some (.argFrame v)
    | 0x02 => some (.argFlags (BitVec.ofNat 8 v))
    | 0x08 => some (.len v)
    | _ => none) ∧
  ∀ (s : State) (q : List HostWrite) (n : Nat) (b : Byte), s.engine = .idle →
    (s.hostq = .len n :: q → step s = .next { s with hostq := q, host := { s.host with len := n } }) ∧
    (s.hostq = .argFrame n :: q → step s = .next { s with hostq := q, host := { s.host with argFrame := n } }) ∧
    (s.hostq = .argFlags b :: q → step s = .next { s with hostq := q, host := { s.host with argFlags := b } }) ∧
    (s.hostq = .inByte n b :: q → ∃ m, step s = .next { s with hostq := q, inMem := m } ∧
      (∀ o, m.read o = if o = n then b else s.inMem.read o) ∧ (s.inMem.wf = true → m.wf = true)) ∧
    (s.hostq = [] → step s = .next s)

/-- R223, R225, R245: the loop head. The count is tested before the input, and a partial last code is dropped. -/
def Obligations.LoopHeadTestsCountThenInput : Prop :=
  ∀ (s : State) (c : Caller) (f : Frame), s.engine = .lzw c → s.lzw.ended = false →
    s.frames[s.host.argFrame]? = some f →
    (f.width.toNat * f.height.toNat ≤ s.lzw.out.length →
      step s = .next { s with endReason := .count, lzw := { s.lzw with ended := true } }) ∧
    (s.lzw.out.length < f.width.toNat * f.height.toNat → 8 * f.rawLen - s.lzw.bitpos < s.lzw.cw →
      step s = .next { s with endReason := .exhausted, lzw := { s.lzw with ended := true } })

/-- R237, R132, R324: the end of a run, whichever command it works for. The output is padded with zeros to `NPIX` and
becomes the decoded cache of the frame, and the command goes on as on a decoded frame; for DECODE, written out,
the window shows the cache. -/
def Obligations.RunEndPadsAndFillsTheCache : Prop :=
  ∀ (s : State) (f : Frame) (c : Caller) (i : Instr), s.engine = .lzw c → s.RunOk c → s.lzw.ended = true →
    s.frames[s.host.argFrame]? = some f →
    (c, i) ∈ [(Caller.decode, Instr.decode), (.deinterlace, .deinterlace), (.compose, .compose)] →
    step s = exec i { s with
      frames := s.frames.set s.host.argFrame { f with
        dec := some (s.lzw.out ++ List.replicate (f.width.toNat * f.height.toNat - s.lzw.out.length) 0#8) }
      engine := .idle } ∧
    (c = .decode → step s = .next { s with
      frames := s.frames.set s.host.argFrame { f with
        dec := some (s.lzw.out ++ List.replicate (f.width.toNat * f.height.toNat - s.lzw.out.length) 0#8) }
      result := { s.result with sel := .dec, len := f.width.toNat * f.height.toNat, rgba := none }
      engine := .idle })

/-! ## The container parser -/

/-- R161: the signature, bytes 0 to 5 of the input. All six are `GIF89a`, or the first that differs is reported,
absent or not. -/
def Obligations.SignatureIsCheckedByteByByte : Prop :=
  (∀ s : State, s.engine = .parse .sig → step s =
    exec (.hdrSig [inByte s 0, inByte s 1, inByte s 2, inByte s 3, inByte s 4, inByte s 5]) s) ∧
  (∀ s : State, exec (.hdrSig [some 0x47#8, some 0x49#8, some 0x46#8, some 0x38#8, some 0x39#8, some 0x61#8]) s =
    .next { s with pos := 6, engine := .parse .lsd }) ∧
  (∀ (s : State) (bytes : List (Option Byte)) (i : Nat) (b : Option Byte), bytes.length = 6 → bytes[i]? = some b →
    (∀ j, j < i → bytes[j]? = some ([0x47#8, 0x49#8, 0x46#8, 0x38#8, 0x39#8, 0x61#8][j]?)) →
    b ≠ [0x47#8, 0x49#8, 0x46#8, 0x38#8, 0x39#8, 0x61#8][i]? →
    exec (.hdrSig bytes) s = .next (s.afterParseError 0x10#8 i b))

/-- R162, R92: the screen descriptor, bytes 6 to 12 of the input. The packed byte is cut as the table says. -/
def Obligations.ScreenDescriptorIsStored : Prop :=
  ∀ (s : State) (w h : Half) (pk bg aspect : Byte),
    (s.engine = .parse .lsd → step s = exec (.hdrLsd (inHalf (inByte s) 6) (inHalf (inByte s) 8)
      (inData (inByte s) 10) (inData (inByte s) 11) (inData (inByte s) 12)) s) ∧
    exec (.hdrLsd w h pk bg aspect) s = .next { s with
      screen := ⟨w, h, pk.getLsbD 7, BitVec.ofNat 3 (pk.toNat / 16), pk.getLsbD 3, BitVec.ofNat 3 pk.toNat, bg, aspect⟩
      pos := 13
      engine := .parse (if pk.getLsbD 7 then .gct else .block) }

/-- R163, R176, R62, R300: a palette in the input goes to the one store its place selects, R then G then B, and the
parser moves past it. -/
def Obligations.PalettesGoToTheirStore : Prop :=
  (∀ (s : State) (es : List Rgb),
    exec (.gct es) s = .next { s with gpal := es, pos := s.pos + 3 * es.length, engine := .parse .block } ∧
    exec (.lct es) s = .next { s with
      pendRec := { s.pendRec with lpal := es }, pos := s.pos + 3 * es.length, engine := .parse .mcs }) ∧
  (∀ (s : State) (bytes : List Byte), s.Holds s.pos bytes →
    (s.engine = .parse .gct → bytes.length = 3 * 2 ^ (s.screen.gctSize.toNat + 1) →
      ∃ t, step s = .next t ∧ t.gpal.length = 2 ^ (s.screen.gctSize.toNat + 1) ∧
        t.gpal.flatMap (fun e => [e.r, e.g, e.b]) = bytes ∧ t.pendRec = s.pendRec ∧ t.frames = s.frames) ∧
    (s.engine = .parse .lct → bytes.length = 3 * 2 ^ (s.pendRec.lctSize.toNat + 1) →
      ∃ t, step s = .next t ∧ t.pendRec.lpal.length = 2 ^ (s.pendRec.lctSize.toNat + 1) ∧
        t.pendRec.lpal.flatMap (fun e => [e.r, e.g, e.b]) = bytes ∧ t.gpal = s.gpal ∧ t.frames = s.frames))

/-- R166, R170, R97: the Graphic Control extension at `p = POS`, its fields at fixed offsets whatever its length byte
`L`, its terminator at `p + 3 + L`. The terminator is checked; the fields go to the pending record, which is allocated
empty if it was not. -/
def Obligations.GraphicControlFillsThePendingRecord : Prop :=
  ∀ (s : State) (len pk : Byte) (delay : Half) (index : Byte) (term : Option Byte),
    (s.engine = .parse .block → inByte s s.pos = some 0x21#8 → inByte s (s.pos + 1) = some 0xF9#8 →
      step s = exec (.extGce (inData (inByte s) (s.pos + 2)) (inData (inByte s) (s.pos + 3))
        (inHalf (inByte s) (s.pos + 4)) (inData (inByte s) (s.pos + 6))
        (inByte s (s.pos + (3 + (inData (inByte s) (s.pos + 2)).toNat)))) s) ∧
    (term = some 0#8 → exec (.extGce len pk delay index term) s = .next { s with
      pendAlloc := true
      pendRec := { (if s.pendAlloc then s.pendRec else { s.pendRec with
          lctFlag := false, lpal := [], rawLen := 0, dec := none, dei := .empty }) with
        gcePresent := true, disposal := BitVec.ofNat 3 (pk.toNat / 4), userInput := pk.getLsbD 1,
        transpFlag := pk.getLsbD 0, delay := delay, transpIndex := if pk.getLsbD 0 then index else 0#8 }
      pos := s.pos + len.toNat + 4
      engine := .parse .block }) ∧
    (term ≠ some 0#8 → exec (.extGce len pk delay index term) s =
      .next (s.afterParseError 0x22#8 (s.pos + 3 + len.toNat) term))

/-- R167, R98: the Application extension. The length byte is 11 or an error; all eleven bytes decide which payload
follows, and `POS` stays at the tag (R25). That the payload is an instruction of its own at that tag is log 5
(DEDUCED). -/
def Obligations.ApplicationIdentifierSelectsThePayload : Prop :=
  ∀ (s : State) (len : Option Byte) (ident : List (Option Byte)),
    (s.engine = .parse .block → inByte s s.pos = some 0x21#8 → inByte s (s.pos + 1) = some 0xFF#8 →
      step s = exec (.extApp (inByte s (s.pos + 2)) ((List.range 11).map fun k => inByte s (s.pos + (3 + k)))) s) ∧
    (len = some 11#8 → exec (.extApp len ident) s = .next { s with engine := .parse (.app (decide
      (ident = [some 0x4E#8, some 0x45#8, some 0x54#8, some 0x53#8, some 0x43#8, some 0x41#8, some 0x50#8,
        some 0x45#8, some 0x32#8, some 0x2E#8, some 0x30#8]))) }) ∧
    (len ≠ some 11#8 → exec (.extApp len ident) s = .next (s.afterParseError 0x24#8 (s.pos + 2) len))

/-- R168, R99: the loop count at `q = p + 14`, with its three checks in offset order. -/
def Obligations.LoopCountIsCheckedInOffsetOrder : Prop :=
  ∀ (s : State) (size ident term : Option Byte) (loops : Half),
    (s.engine = .parse (.app true) → step s = exec (.extAppNs (inByte s (s.pos + 14)) (inByte s (s.pos + 15))
      (inHalf (inByte s) (s.pos + 16)) (inByte s (s.pos + 18))) s) ∧
    (size = some 3#8 → ident = some 1#8 → term = some 0#8 → exec (.extAppNs size ident loops term) s = .next { s with
      repeatCount := loops
      status := { s.status with repeatValid := true }
      pos := s.pos + 19
      engine := .parse .block }) ∧
    (size ≠ some 3#8 → exec (.extAppNs size ident loops term) s =
      .next (s.afterParseError 0x25#8 (s.pos + 14) size)) ∧
    (size = some 3#8 → ident ≠ some 1#8 → exec (.extAppNs size ident loops term) s =
      .next (s.afterParseError 0x26#8 (s.pos + 15) ident)) ∧
    (size = some 3#8 → ident = some 1#8 → term ≠ some 0#8 → exec (.extAppNs size ident loops term) s =
      .next (s.afterParseError 0x27#8 (s.pos + 18) term))

/-- R169, R171, R172, R178: the items that start a chain. A skipped chain starts with nothing written: `SkipChain` has
its own cursor, and `POS` stays at the block's tag until it returns (R25, R174). Image data empties `RAW`. That a
chain is walked in steps of its own is the model's (log 5, DEDUCED). -/
def Obligations.ChainsStartAfterTheirItem : Prop :=
  ∀ (s : State) (ident : List (Option Byte)),
    (s.engine = .parse .block → inByte s s.pos = some 0x21#8 →
      (inByte s (s.pos + 1) = some 0xFE#8 → step s = exec .extComment s) ∧
      (inByte s (s.pos + 1) = some 0x01#8 → step s = exec .extPtext s)) ∧
    exec (.extAppX ident) s = .next { s with engine := .parse (.chain (.skip (s.pos + 14))) } ∧
    exec .extComment s = .next { s with engine := .parse (.chain (.skip (s.pos + 2))) } ∧
    exec .extPtext s = .next { s with engine := .parse (.chain (.skip (s.pos + 2))) } ∧
    exec .imgData s = .next { s with
      pendRec := { s.pendRec with raw := [] }, engine := .parse (.chain .image) }

/-- R174, R178, R180, R333: one sub-block, the end of a chain, and the length byte that is not there. A skipped chain
moves its cursor and writes `POS` only at its end; an image's chain moves `POS` at each sub-block and writes
`RAW_LEN` only at its end; so the error writes neither. Image data and frames beyond a capacity are refused (R6; at
these instants: log 12, DESIGN CHOICE), and the record at the new index keeps the values of the committed one (log
25, DESIGN CHOICE). That one sub-block is one step is the model's (log 5, DEDUCED). -/
def Obligations.SubblocksMoveTheCursor : Prop :=
  ∀ (s : State) (d : List Byte),
    (∀ c, s.engine = .parse (.chain (.skip c)) →
      (inByte s c = none → step s = exec (.subblock none) s) ∧
      (inByte s c = some 0#8 → step s = exec .subblockEnd s) ∧
      (∀ n, n ≠ 0#8 → inByte s c = some n → step s =
        exec (.subblock (some ((List.range n.toNat).map fun j => inData (inByte s) (c + (1 + j))))) s) ∧
      exec (.subblock none) s = .next (s.afterParseError 0x23#8 c none) ∧
      exec (.subblock (some d)) s = .next { s with engine := .parse (.chain (.skip (c + 1 + d.length))) } ∧
      exec .subblockEnd s = .next { s with pos := c + 1, engine := .parse .block }) ∧
    (s.engine = .parse (.chain .image) →
      (inByte s s.pos = none → step s = exec (.subblock none) s) ∧
      (inByte s s.pos = some 0#8 → step s = exec .subblockEnd s) ∧
      (∀ n, n ≠ 0#8 → inByte s s.pos = some n → step s =
        exec (.subblock (some ((List.range n.toNat).map fun j => inData (inByte s) (s.pos + (1 + j))))) s) ∧
      exec (.subblock none) s = .next (s.afterParseError 0x23#8 s.pos none) ∧
      exec (.subblock (some d)) s =
        (if Config.fits s.caps.raw ((s.frames.map fun f => f.raw.length).sum + s.pendRec.raw.length + d.length) then
          .next { s with
            pos := s.pos + 1 + d.length, pendRec := { s.pendRec with raw := s.pendRec.raw ++ d } }
        else .refused .rawCapacity) ∧
      exec .subblockEnd s =
        (if Config.fits s.caps.frames (s.frames.length + 1) then
          .next { s with
            pos := s.pos + 1
            pendRec := { s.pendRec with rawLen := s.pendRec.raw.length }
            frames := s.frames ++ [{ s.pendRec with rawLen := s.pendRec.raw.length }]
            pendAlloc := false
            engine := .parse .block }
        else .refused .frameCapacity))

/-- R174, R25, R333: `SkipChain`. A whole chain in the input is skipped: nothing but `POS` changes, which ends just past
the terminator. A chain the input cuts is an error at the length byte that is not there, and nothing but the error is
written: `POS` is still at the tag. That a chain is walked in steps is the model's (log 5, DEDUCED). -/
def Obligations.SkipChainOnlyMovesPos : Prop :=
  ∀ (s : State) (blocks : List (List Byte)) (c : Nat), SubblocksOk blocks → s.engine = .parse (.chain (.skip c)) →
    (s.Holds c (chainOf blocks) →
      runsTo (blocks.length + 1) s { s with pos := c + (chainOf blocks).length, engine := .parse .block }) ∧
    (s.HoldsCut c blocks →
      runsTo (blocks.length + 1) s (s.afterParseError 0x23#8 (c + blocksSize blocks) none))

/-- R178, R180, R333: the image data chain, within the capacities of R6. The payloads are concatenated without the
length bytes, and the frame joins the frame table. A chain the input cuts is an error at the length byte that is not
there: `RAW` and `POS` are what was read, `RAW_LEN` is not written and no frame is added. The record at the new index
keeps the values of this one (log 25, DESIGN CHOICE), and the run of steps is log 5 (DEDUCED). -/
def Obligations.ImageChainConcatenatesAndCommits : Prop :=
  ∀ (s : State) (blocks : List (List Byte)), SubblocksOk blocks → s.engine = .parse .imgData →
    (blocks ≠ [] → Config.fits s.caps.raw ((s.frames.map fun f => f.raw.length).sum + blocks.flatten.length) = true) →
    (s.Holds s.pos (chainOf blocks) → Config.fits s.caps.frames (s.frames.length + 1) = true →
      runsTo (blocks.length + 2) s { s with
        pos := s.pos + (chainOf blocks).length
        pendRec := { s.pendRec with raw := blocks.flatten, rawLen := blocks.flatten.length }
        frames := s.frames ++ [{ s.pendRec with raw := blocks.flatten, rawLen := blocks.flatten.length }]
        pendAlloc := false
        engine := .parse .block }) ∧
    (s.HoldsCut s.pos blocks →
      runsTo (blocks.length + 2) s
        (State.afterParseError { s with
          pos := s.pos + blocksSize blocks, pendRec := { s.pendRec with raw := blocks.flatten } }
          0x23#8 (s.pos + blocksSize blocks) none))

/-- R173, R181: a tag other than `21`, `2C`, `3B` and a label other than `F9`, `FF`, `FE`, `01`, absent ones included,
fail at their own offset. -/
def Obligations.UnknownTagsAndLabelsFail : Prop :=
  ∀ (s : State) (b : Option Byte),
    (s.engine = .parse .block →
      (inByte s s.pos = some 0x21#8 → inByte s (s.pos + 1) = b → b ≠ some 0xF9#8 → b ≠ some 0xFF#8 →
        b ≠ some 0xFE#8 → b ≠ some 0x01#8 → step s = exec (.extUnknown b) s) ∧
      (inByte s s.pos = b → b ≠ some 0x21#8 → b ≠ some 0x2C#8 → b ≠ some 0x3B#8 →
        step s = exec (.blockUnknown b) s)) ∧
    exec (.extUnknown b) s = .next (s.afterParseError 0x21#8 (s.pos + 1) b) ∧
    exec (.blockUnknown b) s = .next (s.afterParseError 0x20#8 s.pos b)

/-- R175, R170, R96: the image descriptor at `p = POS` fills the record a Graphic Control extension allocated, or a
fresh one. -/
def Obligations.ImageDescriptorFillsTheRecord : Prop :=
  ∀ (s : State) (left top w h : Half) (pk : Byte),
    (s.engine = .parse .block → inByte s s.pos = some 0x2C#8 →
      step s = exec (.img (inHalf (inByte s) (s.pos + 1)) (inHalf (inByte s) (s.pos + 3)) (inHalf (inByte s) (s.pos + 5))
        (inHalf (inByte s) (s.pos + 7)) (inData (inByte s) (s.pos + 9))) s) ∧
    exec (.img left top w h pk) s = .next { s with
      pendAlloc := true
      pendRec := { (if s.pendAlloc then s.pendRec else { s.pendRec with
          gcePresent := false, disposal := 0#3, userInput := false, transpFlag := false, transpIndex := 0#8,
          delay := 0#16, lpal := [], rawLen := 0, dec := none, dei := .empty }) with
        left := left, top := top, width := w, height := h, lctFlag := pk.getLsbD 7, interlace := pk.getLsbD 6,
        imgSort := pk.getLsbD 5, lctSize := BitVec.ofNat 3 pk.toNat }
      pos := s.pos + 10
      engine := .parse (if pk.getLsbD 7 then .lct else .mcs) }

/-- R177: the minimum code size, the byte at `POS`, is 2 to 8, or PARSE fails at that byte. -/
def Obligations.MinimumCodeSizeIsTwoToEight : Prop :=
  ∀ (s : State) (m : Option Byte),
    (s.engine = .parse .mcs → step s = exec (.mcs (inByte s s.pos)) s) ∧
    (∀ b, m = some b → 2 ≤ b.toNat → b.toNat ≤ 8 → exec (.mcs m) s = .next { s with
      pendRec := { s.pendRec with mcs := BitVec.ofNat 4 b.toNat }, pos := s.pos + 1, engine := .parse .imgData }) ∧
    ((∀ b, m = some b → b.toNat < 2 ∨ 8 < b.toNat) → exec (.mcs m) s = .next (s.afterParseError 0x28#8 s.pos m))

/-- R179, R184: the trailer ends PARSE. A pending record and trailing bytes are only reported. -/
def Obligations.TrailerEndsTheParse : Prop :=
  ∀ (s : State),
    (s.engine = .parse .block → inByte s s.pos = some 0x3B#8 → step s = exec .trailer s) ∧
    exec .trailer s = .next { s with
      pos := s.pos + 1
      endPos := s.pos + 1
      trailCount := s.host.len - (s.pos + 1)
      status := ⟨true, s.status.err, decide (s.pos + 1 < s.host.len), s.pendAlloc, s.status.repeatValid⟩
      engine := .idle }

/-- R182: what an input that ends is reported as. The first checked read at or beyond `LEN` decides; its offset is
recorded and no byte. -/
def Obligations.ExhaustedInputFailsAtTheFirstCheckedRead : Prop :=
  ∀ (s : State),
    (s.engine = .parse .sig → s.host.len < 6 → (∀ j, j < s.host.len → inByte s j = Config.sig[j]?) →
      step s = .next (s.afterParseError 0x10#8 s.host.len none)) ∧
    (s.engine = .parse .block → s.host.len ≤ s.pos → step s = .next (s.afterParseError 0x20#8 s.pos none)) ∧
    (s.engine = .parse .block → inByte s s.pos = some 0x21#8 → s.host.len = s.pos + 1 →
      step s = .next (s.afterParseError 0x21#8 (s.pos + 1) none)) ∧
    (s.engine = .parse .block → inByte s s.pos = some 0x21#8 → inByte s (s.pos + 1) = some 0xF9#8 →
      s.host.len ≤ s.pos + 3 + ((inByte s (s.pos + 2)).getD 0#8).toNat →
      step s = .next (s.afterParseError 0x22#8 (s.pos + 3 + ((inByte s (s.pos + 2)).getD 0#8).toNat) none)) ∧
    (s.engine = .parse .block → inByte s s.pos = some 0x21#8 → inByte s (s.pos + 1) = some 0xFF#8 →
      s.host.len = s.pos + 2 → step s = .next (s.afterParseError 0x24#8 (s.pos + 2) none)) ∧
    (s.engine = .parse (.app true) → s.host.len = s.pos + 14 →
      step s = .next (s.afterParseError 0x25#8 (s.pos + 14) none)) ∧
    (s.engine = .parse (.app true) → inByte s (s.pos + 14) = some 3#8 → s.host.len = s.pos + 15 →
      step s = .next (s.afterParseError 0x26#8 (s.pos + 15) none)) ∧
    (s.engine = .parse (.app true) → inByte s (s.pos + 14) = some 3#8 → inByte s (s.pos + 15) = some 1#8 →
      s.host.len ≤ s.pos + 18 → step s = .next (s.afterParseError 0x27#8 (s.pos + 18) none)) ∧
    (∀ c, s.engine = .parse (.chain (.skip c)) → s.host.len ≤ c →
      step s = .next (s.afterParseError 0x23#8 c none)) ∧
    (s.engine = .parse (.chain .image) → s.host.len ≤ s.pos →
      step s = .next (s.afterParseError 0x23#8 s.pos none)) ∧
    (s.engine = .parse .mcs → s.host.len ≤ s.pos → step s = .next (s.afterParseError 0x28#8 s.pos none))

/-- R25, R183: `POS` never decreases during a PARSE, and stays within the bounds the rule derives (at most `LEN +
777`). -/
def Obligations.PosStaysNearTheInput : Prop :=
  ∀ (s t : State), s.Inv → s.PosOk → step s = .next t →
    t.PosOk ∧
    (∀ ph, s.engine = .parse ph → s.pos ≤ t.pos ∧ t.pos ≤ s.host.len + 777)

/-! ## The LZW decompressor -/

/-- R222, R342: the start of a run, for each command that needs the decoded cache of a frame with a payload. `FIRST`,
`CODE` and `DICT` are not initialised; the counter wraps. A frame beyond `PIX_CAPACITY` is refused instead (R6; at this
instant: log 12, DESIGN CHOICE). The empty deinterlaced slot is what the invariant gives of a frame that is not
decoded. -/
def Obligations.RunStartsFresh : Prop :=
  ∀ (s : State) (f : Frame) (c : Caller) (i : Instr), s.status.docValid = true →
    s.frames[s.host.argFrame]? = some f → f.dec = none → f.rawLen ≠ 0 → f.dei = .empty →
    (c, i) ∈ [(Caller.decode, Instr.decode), (.deinterlace, .deinterlace), (.compose, .compose)] →
    (c = .deinterlace → f.interlace = true) →
    (Config.fits s.caps.pix (f.width.toNat * f.height.toNat) = true → exec i s = .next { s.started with
      lzwRuns := BitVec.ofNat 32 ((s.lzwRuns.toNat + 1) % 2 ^ 32)
      lzw := { s.lzw with
        clear := 2 ^ f.mcs.toNat, eoi := 2 ^ f.mcs.toNat + 1, cw := f.mcs.toNat + 1,
        avail := 2 ^ f.mcs.toNat + 2, prev := none, bitpos := 0, out := [], stack := [], ended := false }
      engine := .lzw c }) ∧
    (Config.fits s.caps.pix (f.width.toNat * f.height.toNat) = false → exec i s = .refused .pixCapacity)

/-- R227: the clear code. It emits nothing and erases nothing. -/
def Obligations.ClearCodeResetsTheWidths : Prop :=
  ∀ (s : State) (f : Frame), s.frames[s.host.argFrame]? = some f →
    exec .clear s = .next { s with lzw := { s.lzw with
      cw := f.mcs.toNat + 1, avail := s.lzw.clear + 2, prev := none } }

/-- R228, R229: an end code and a bad code leave the loop and change no other state. -/
def Obligations.EndAndBadCodesLeaveTheLoop : Prop :=
  ∀ (s : State) (code : Code),
    exec .eoi s = .next { s with endReason := .eoi, lzw := { s.lzw with ended := true } } ∧
    exec (.badcode code) s = .next { s with endReason := .badcode, lzw := { s.lzw with ended := true } }

/-- R230: the first data code emits itself, becomes the previous code, and adds no entry. -/
def Obligations.FirstDataCodeEmitsItself : Prop :=
  ∀ (s : State) (f : Frame) (code : Code), s.frames[s.host.argFrame]? = some f → code.toNat < 256 →
    s.lzw.out.length < f.width.toNat * f.height.toNat →
    exec (.dataFirst code) s = .next { s with lzw := { s.lzw with
      out := s.lzw.out ++ [BitVec.ofNat 8 code.toNat], first := BitVec.ofNat 8 code.toNat, prev := some code } }

/-- R231, R233 to R236, R239: a data code. The string its entry spells is emitted as far as it fits, and the entry
(previous code, first pixel of the string) is added while there is room. The string has at most 4091 pixels, so the
default stack always takes it; one beyond `STACK_DEPTH` is refused (R6; at this instant: log 12, DESIGN CHOICE). -/
def Obligations.DataCodeEmitsItsString : Prop :=
  ∀ (s : State) (m len : Nat) (p code : Code), 2 ≤ m → m ≤ 8 → s.lzw.Ok m len (npix s) → s.lzw.prev = some p →
    code.toNat < s.lzw.avail → code.toNat ≠ s.lzw.clear → code.toNat ≠ s.lzw.eoi →
    ∃ str, Spells s.lzw.dict s.lzw.clear code str ∧ str.length ≤ 4091 ∧
      (str.length ≤ s.caps.stackDepth → exec (.data code) s = .next { s with lzw := { s.lzw with
        out := s.lzw.out ++ str.take (npix s - s.lzw.out.length)
        stack := []
        first := str.headD 0#8
        prev := some code
        dict := if s.lzw.avail < 4096 then s.lzw.dict.write s.lzw.avail ⟨p, str.headD 0#8⟩ else s.lzw.dict
        avail := if s.lzw.avail < 4096 then s.lzw.avail + 1 else s.lzw.avail
        cw := if s.lzw.avail < 4096 ∧ s.lzw.avail + 1 = 2 ^ s.lzw.cw ∧ s.lzw.cw < 12 then s.lzw.cw + 1
              else s.lzw.cw } }) ∧
      (s.caps.stackDepth < str.length → exec (.data code) s = .refused .stackDepth)

/-- R232: the code of the entry this very step adds. The string of the previous code and then its own first pixel are
emitted, and that is what the new entry spells. They are at most 4091 pixels, so the default stack always takes them;
a string beyond `STACK_DEPTH` is refused (R6; at this instant: log 12, DESIGN CHOICE). -/
def Obligations.KwkwkCodeRepeatsTheFirstPixel : Prop :=
  ∀ (s : State) (m len : Nat) (p : Code), 2 ≤ m → m ≤ 8 → s.lzw.Ok m len (npix s) → s.lzw.prev = some p →
    s.lzw.avail < 4096 →
    ∃ str, Spells s.lzw.dict s.lzw.clear p str ∧ str.length + 1 ≤ 4091 ∧
      (str.length + 1 ≤ s.caps.stackDepth → ∃ t, exec .dataKwkwk s = .next t ∧
        t = { s with lzw := { s.lzw with
          out := s.lzw.out ++ (str ++ [str.headD 0#8]).take (npix s - s.lzw.out.length)
          stack := []
          first := str.headD 0#8
          prev := some (BitVec.ofNat 12 s.lzw.avail)
          dict := s.lzw.dict.write s.lzw.avail ⟨p, str.headD 0#8⟩
          avail := s.lzw.avail + 1
          cw := if s.lzw.avail + 1 = 2 ^ s.lzw.cw ∧ s.lzw.cw < 12 then s.lzw.cw + 1 else s.lzw.cw } } ∧
        Spells t.lzw.dict t.lzw.clear (BitVec.ofNat 12 s.lzw.avail) (str ++ [str.headD 0#8])) ∧
      (s.caps.stackDepth < str.length + 1 → exec .dataKwkwk s = .refused .stackDepth)

/-- R234, R235, R239: the dictionary add. One entry is written and the pointer moves while there is room; the width
grows when the pointer reaches `2^CW`, and never beyond 12; a full dictionary is frozen. -/
def Obligations.DictionaryAddGrowsTheWidth : Prop :=
  ∀ (l : Lzw) (p : Code) (v : Byte),
    (4096 ≤ l.avail → addEntry p v l = l) ∧
    (l.avail < 4096 → ∃ l', addEntry p v l = l' ∧
      l' = { l with dict := l'.dict, avail := l.avail + 1, cw := l'.cw } ∧
      l'.dict.read l.avail = ⟨p, v⟩ ∧ (∀ k, k ≠ l.avail → l'.dict.read k = l.dict.read k) ∧
      (l.dict.wf = true → l'.dict.wf = true) ∧
      (l.avail + 1 = 2 ^ l.cw → l.cw < 12 → l'.cw = l.cw + 1) ∧
      (l.avail + 1 ≠ 2 ^ l.cw ∨ 12 ≤ l.cw → l'.cw = l.cw))

/-- R236: the stack is emitted from its top, what does not fit is dropped, and the stack is left empty; no pixel is
written at or beyond `NPIX`. -/
def Obligations.EmissionStopsAtThePixelCount : Prop :=
  ∀ (n : Nat) (l : Lzw), l.out.length ≤ n →
    ∃ k, emitStack n l = { l with out := l.out ++ l.stack.take k, stack := [] } ∧
      (l.out.length + l.stack.length ≤ n → k = l.stack.length) ∧
      (n < l.out.length + l.stack.length → l.out.length + k = n)

/-- R241 (2): the width in closed form: the number of bits needed to write `AVAIL`, capped at 12. So it is of every
decoder state with the invariants of a run, and after every step that starts or goes on with a run. -/
def Obligations.WidthIsTheLengthOfThePointer : Prop :=
  (∀ (l : Lzw) (m len n : Nat), 2 ≤ m → m ≤ 8 → l.Ok m len n → l.cw = min 12 (Nat.log2 l.avail + 1)) ∧
  ∀ (s t : State) (c : Caller), s.Inv → step s = .next t → t.engine = .lzw c →
    t.lzw.cw = min 12 (Nat.log2 t.lzw.avail + 1)

/-- R233, R243: in a dictionary of a run every code the walk can start from spells exactly one string, of root pixels,
no longer than the distance of the code from `CLEAR`. -/
def Obligations.CodesSpellBoundedStrings : Prop :=
  ∀ (d : Dict) (clear avail : Nat) (c : Code), d.Ok clear avail →
    (c.toNat < clear ∨ (clear + 2 ≤ c.toNat ∧ c.toNat < avail)) →
    ∃ str, Spells d clear c str ∧ (∀ other, Spells d clear c other → other = str) ∧
      1 ≤ str.length ∧ str.length ≤ max 1 (c.toNat - clear) ∧ (∀ v ∈ str, v.toNat < clear)

/-- R244, R237: when a run ends, whichever command it works for, the decoded cache has exactly `WIDTH*HEIGHT` pixels,
each below `2^MCS`, and so has the deinterlaced cache if the command fills it. -/
def Obligations.DecodedPixelsAreBelowClear : Prop :=
  ∀ (s t : State) (f g : Frame) (c : Caller), s.Inv → s.engine = .lzw c → s.lzw.ended = true →
    s.frames[s.host.argFrame]? = some f → step s = .next t → t.frames[s.host.argFrame]? = some g →
    (∃ d, g.dec = some d ∧ d.length = f.width.toNat * f.height.toNat ∧ ∀ v ∈ d, v.toNat < 2 ^ f.mcs.toNat) ∧
    (∀ e, g.dei = .valid e → e.length = f.width.toNat * f.height.toNat ∧ ∀ v ∈ e, v.toNat < 2 ^ f.mcs.toNat)

/-! ## The deinterlacer and the compositor -/

/-- R282: every row is transmitted exactly once, in the order of the four passes, and the row transmitted `i`-th
stands at its true row of the output. -/
def Obligations.DeinterlaceReordersTheFourPasses : Prop :=
  ∀ (h : Nat), (rowOrder h).length = h ∧ (rowOrder h).Nodup ∧ (∀ r, r ∈ rowOrder h ↔ r < h) ∧
    rowOrder h = (List.range h).filter (fun r => r % 8 = 0) ++ (List.range h).filter (fun r => r % 8 = 4) ++
      (List.range h).filter (fun r => r % 4 = 2) ++ (List.range h).filter (fun r => r % 2 = 1) ∧
    ∀ (rd : Nat → Byte) (w : Nat), (deinterlaceRows rd w h).length = w * h ∧
      ∀ i r c, (rowOrder h)[i]? = some r → c < w → (deinterlaceRows rd w h)[r * w + c]? = some (rd (i * w + c))

/-- R134, R305, R307 to R309: COMPOSE of a frame that is decoded or has an empty payload. An interlaced frame's second
slot is filled first if it is empty, whatever `OVERWRITE` says. Four bytes a pixel; alpha is 0 exactly for the
transparent index, which is 0 without a Graphic Control extension; the placement is the descriptor's. A slot to fill
beyond `PIX_CAPACITY` is refused (R6; at this instant: log 12, DESIGN CHOICE). An element of a short input has no
stated value (log 10, DESIGN CHOICE), nor has an entry beyond its palette (log 9, DESIGN CHOICE). -/
def Obligations.ComposeMapsEveryPixel : Prop :=
  ∀ (s : State) (f : Frame) (d seq : List Byte), s.status.docValid = true →
    s.frames[s.host.argFrame]? = some f →
    (f.dec = some d ∨ (f.dec = none ∧ f.rawLen = 0 ∧ d = [0#8] ∧ f.dei = .empty)) →
    seq = (match f.interlace, f.dei with
      | true, .valid e => e
      | true, .empty => deinterlaceRows (fun i => d[i]?.getD (Config.decBeyond s.docEpoch s.host.argFrame i))
          f.width.toNat f.height.toNat
      | _, _ => d) →
    ((f.dec = none ∨ (f.interlace = true ∧ f.dei = .empty)) →
      Config.fits s.caps.pix (f.width.toNat * f.height.toNat) = false → exec .compose s = .refused .pixCapacity) ∧
    (((f.dec = none ∨ (f.interlace = true ∧ f.dei = .empty)) →
        Config.fits s.caps.pix (f.width.toNat * f.height.toNat) = true) →
      ∃ rgba, exec .compose s = .next { s.started with
          frames := s.frames.set s.host.argFrame { f with
            dec := some d, dei := if f.interlace = true ∧ f.dei = .empty then .valid seq else f.dei }
          result := ⟨.rgba, 4 * seq.length, seq.length, f.left, f.top, f.width, f.height, some rgba⟩
          engine := .idle } ∧
        rgba.length = 4 * seq.length ∧
        ∀ i v, seq[i]? = some v →
          (∀ e, (if f.lctFlag then f.lpal[v.toNat]? else if s.screen.gctFlag then s.gpal[v.toNat]?
              else some ⟨0#8, 0#8, 0#8⟩) = some e →
            rgba[4 * i]? = some e.r ∧ rgba[4 * i + 1]? = some e.g ∧ rgba[4 * i + 2]? = some e.b) ∧
          rgba[4 * i + 3]? = some (if v = (if f.gcePresent then f.transpIndex else 0#8) then 0#8 else 255#8))

/-- R310: an `OVERWRITE` fold does not change what COMPOSE shows. -/
def Obligations.FoldDoesNotChangeTheImage : Prop :=
  ∀ (s t u v : State) (f : Frame) (e : List Byte), s.status.docValid = true → overwrite s = true →
    s.frames[s.host.argFrame]? = some f → f.interlace = true → f.dec ≠ none → f.dei = .valid e →
    exec .compose s = .next t → exec .deinterlace s = .next u → exec .compose u = .next v →
    v.result = t.result ∧ (∀ g, u.frames[s.host.argFrame]? = some g → g.dei = .folded)

/-! ## The host commands -/

/-- R131: what the start of PARSE writes: all flags, the document registers it names, and an empty frame table; the
parser stands at offset 0. An input beyond `IN_CAPACITY` is refused (R6; at this instant: log 12). That earlier free
palette and pixel values are forgotten (log 9) and that the record at index 0 keeps its values (log 25) are the
model's DESIGN CHOICES. -/
def Obligations.ParseDiscardsTheDocument : Prop :=
  ∀ (s : State), exec .parse s =
    (if Config.fits s.caps.input s.host.len then
      .next { s with
        status := ⟨false, false, false, false, false⟩
        err := { s.err with code := 0#8 }
        frames := [], pendAlloc := false, gpal := [], repeatCount := 0#16, trailCount := 0, endPos := 0, pos := 0
        result := { s.result with rgba := none }
        engine := .parse .sig, docHidden := false, docEpoch := s.docEpoch + 1 }
    else .refused .inCapacity)

/-- R136, R140, R141, R281, R332, R334, R336: usage errors. The first check that fails is the one reported, and nothing
but the flag and the error registers changes. -/
def Obligations.UsageErrorsChangeNothingElse : Prop :=
  ∀ (s : State),
    (∀ code, exec (.cmdIllegal code) s = .next (s.started.afterUsageError 0x33#8 (some code))) ∧
    (s.status.docValid = false →
      exec .decode s = .next (s.started.afterUsageError 0x32#8 none) ∧
      exec .deinterlace s = .next (s.started.afterUsageError 0x32#8 none) ∧
      exec .compose s = .next (s.started.afterUsageError 0x32#8 none)) ∧
    (s.status.docValid = true → s.frames.length ≤ s.host.argFrame →
      exec .decode s = .next (s.started.afterUsageError 0x31#8 none) ∧
      exec .deinterlace s = .next (s.started.afterUsageError 0x31#8 none) ∧
      exec .compose s = .next (s.started.afterUsageError 0x31#8 none)) ∧
    (∀ f, s.status.docValid = true → s.frames[s.host.argFrame]? = some f → f.interlace = false →
      exec .deinterlace s = .next (s.started.afterUsageError 0x30#8 none))

/-- R132, R221: DECODE of a frame whose cache is full, and of a frame with an empty payload. No run starts: `LZW_RUNS`
and `END_REASON` A slot to fill beyond `PIX_CAPACITY` is refused (R6; before the fill, and by the
product also where one element would do: log 12, DESIGN CHOICE). -/
def Obligations.DecodeWithoutARun : Prop :=
  ∀ (s : State) (f : Frame), s.status.docValid = true → s.frames[s.host.argFrame]? = some f →
    (∀ d, f.dec = some d → exec .decode s = .next { s.started with
      result := { s.result with sel := .dec, len := d.length, rgba := none }, engine := .idle }) ∧
    (f.dec = none → f.rawLen = 0 → exec .decode s =
      (if Config.fits s.caps.pix (f.width.toNat * f.height.toNat) then
        .next { s.started with
          frames := s.frames.set s.host.argFrame { f with dec := some [0#8] }
          result := { s.result with sel := .dec, len := 1, rgba := none }, engine := .idle }
      else .refused .pixCapacity))

/-- R133, R282 to R285: DEINTERLACE of a frame that is decoded or has an empty payload, by the state of its second slot
and the `OVERWRITE` bit. A slot to fill beyond `PIX_CAPACITY` is refused (R6; at this instant: log 12, DESIGN
CHOICE). An element of a short input has no stated value (log 10, DESIGN CHOICE). -/
def Obligations.DeinterlaceFillsShowsOrFolds : Prop :=
  ∀ (s : State) (f : Frame) (d e : List Byte), s.status.docValid = true →
    s.frames[s.host.argFrame]? = some f → f.interlace = true →
    (f.dec = some d ∨ (f.dec = none ∧ f.rawLen = 0 ∧ d = [0#8] ∧ f.dei = .empty)) →
    ((f.dei = .empty ∧ Config.fits s.caps.pix (f.width.toNat * f.height.toNat) = true ∧ e = deinterlaceRows
        (fun i => d[i]?.getD (Config.decBeyond s.docEpoch s.host.argFrame i)) f.width.toNat f.height.toNat) ∨
      f.dei = .valid e →
      (s.host.argFlags.getLsbD 0 = false → exec .deinterlace s = .next { s.started with
        frames := s.frames.set s.host.argFrame { f with dec := some d, dei := .valid e }
        result := { s.result with sel := .dei, len := f.width.toNat * f.height.toNat, rgba := none }
        engine := .idle }) ∧
      (s.host.argFlags.getLsbD 0 = true → exec .deinterlace s = .next { s.started with
        frames := s.frames.set s.host.argFrame { f with dec := some e, dei := .folded }
        result := { s.result with sel := .dec, len := e.length, rgba := none }
        engine := .idle })) ∧
    (f.dei = .empty → Config.fits s.caps.pix (f.width.toNat * f.height.toNat) = false →
      exec .deinterlace s = .refused .pixCapacity) ∧
    (f.dei = .folded → exec .deinterlace s = .next { s.started with
      result := { s.result with sel := .dec, len := d.length, rgba := none }, engine := .idle })

/-- R24, R44: the registers of packed bits as the host reads them between commands: `STATUS` bit by bit, `ERR_BYTE`,
`SCR_FLAGS` (the packed byte of the screen descriptor as read), `GCE`, `IMG_FLAGS`, `CACHE`. -/
def Obligations.FlagRegistersReadAsTheirBits : Prop :=
  (∀ (t : Status), t.word.getLsbD 0 = t.docValid ∧ t.word.getLsbD 1 = t.err ∧ t.word.getLsbD 2 = t.warnTrailing ∧
    t.word.getLsbD 3 = t.gcePending ∧ t.word.getLsbD 4 = t.repeatValid ∧ t.word.toNat < 32) ∧
  (∀ (s t : State) (w h : Half) (pk bg aspect : Byte), exec (.hdrLsd w h pk bg aspect) s = .next t →
    t.screen.flags = pk.toNat) ∧
  ∀ (s : State), s.engine = .idle →
    readReg s 0x03 = .value s.status.word.toNat ∧
    readReg s 0x06 = .value (256 * s.err.byteValid.toNat + s.err.byte.toNat) ∧
    (s.docHidden = false → readReg s 0x0D = .value s.screen.flags ∧
      ∀ f, s.frames[s.host.argFrame]? = some f →
        readReg s 0x20 = .value (256 * f.gcePresent.toNat + 4 * f.disposal.toNat + 2 * f.userInput.toNat +
          f.transpFlag.toNat) ∧
        readReg s 0x27 = .value (128 * f.lctFlag.toNat + 64 * f.interlace.toNat + 32 * f.imgSort.toNat +
          f.lctSize.toNat) ∧
        readReg s 0x2A = .value (f.dec.isSome.toNat +
          2 * (match f.dei with | .empty => 0 | .valid _ => 1 | .folded => 2)))

/-- R385, R335, R22, U9 to U11: the host reads nothing during a command, no register, palette or payload of a document
a failed PARSE left, nothing of a frame that is not addressable, no write-only register, no number R44 does not
name, and no element outside the window. That each is refused, not given some value, is the model's (log 20, DESIGN
CHOICE), and so is that `TRAIL_COUNT` is among the registers of the failed PARSE (log 8, DEDUCED). -/
def Obligations.HostReadsAreRefused : Prop :=
  ∀ (s : State) (no i : Nat),
    (s.engine ≠ .idle → readReg s no = .refused .duringCommand ∧ readWindow s i = .refused .duringCommand ∧
      readGpal s i = .refused .duringCommand ∧ readRaw s no i = .refused .duringCommand ∧
      readLpal s no i = .refused .duringCommand) ∧
    (s.engine = .idle → s.docHidden = true →
      (0x0A ≤ no ∧ no ≤ 0x11 ∨ 0x20 ≤ no ∧ no ≤ 0x2B → readReg s no = .refused .partialDocument) ∧
      readGpal s i = .refused .partialDocument ∧ readRaw s no i = .refused .partialDocument ∧
      readLpal s no i = .refused .partialDocument) ∧
    (s.engine = .idle → s.docHidden = false → s.frames.length ≤ s.host.argFrame → 0x20 ≤ no → no ≤ 0x2B →
      readReg s no = .refused .noFrame) ∧
    (s.engine = .idle → s.docHidden = false → s.frames.length ≤ no →
      readRaw s no i = .refused .noFrame ∧ readLpal s no i = .refused .noFrame) ∧
    (s.engine = .idle → readReg s 0x00 = .refused .writeOnly) ∧
    (s.engine = .idle → (0x1B ≤ no ∧ no ≤ 0x1F) ∨ 0x2C ≤ no → readReg s no = .refused .noRegister) ∧
    (s.engine = .idle → s.result.sel = .none ∨ s.result.len ≤ i → readWindow s i = .refused .outOfWindow)

/-- R41, R44, R60, R142: what the host reads between commands: every register by its number, the elements of the
result window, the entries of the palettes and the payload bytes. That `ARG_FLAGS` reads back all 8 bits (log 26) and
that `DEC_LEN` of a frame that is not decoded is unspecified (log 27) are the model's DESIGN CHOICES, that
`END_POS` stays readable after a failed PARSE is log 8 (DEDUCED), and that the window follows `ARG_FRAME` is log 20
(DESIGN CHOICE). -/
def Obligations.HostReadsAnswerTheMap : Prop :=
  ∀ (s : State), s.engine = .idle →
    (readReg s 0x01 = .value s.host.argFrame ∧ readReg s 0x02 = .value s.host.argFlags.toNat ∧
      readReg s 0x04 = .value s.err.code.toNat ∧ readReg s 0x05 = .value s.err.offset ∧
      readReg s 0x07 = .value s.err.frame ∧ readReg s 0x08 = .value s.host.len ∧ readReg s 0x09 = .value s.endPos ∧
      readReg s 0x12 = .value s.lzwRuns.toNat ∧
      readReg s 0x13 = .value (match s.endReason with | .count => 0 | .eoi => 1 | .badcode => 2 | .exhausted => 3) ∧
      readReg s 0x14 = .value (match s.result.sel with | .none => 0 | .dec => 1 | .dei => 2 | .rgba => 3) ∧
      readReg s 0x15 = .value s.result.len ∧ readReg s 0x16 = .value s.result.left.toNat ∧
      readReg s 0x17 = .value s.result.top.toNat ∧ readReg s 0x18 = .value s.result.width.toNat ∧
      readReg s 0x19 = .value s.result.height.toNat ∧ readReg s 0x1A = .value s.result.pix) ∧
    (s.docHidden = false →
      readReg s 0x0A = .value s.trailCount ∧ readReg s 0x0B = .value s.screen.width.toNat ∧
      readReg s 0x0C = .value s.screen.height.toNat ∧ readReg s 0x0E = .value s.screen.bgIndex.toNat ∧
      readReg s 0x0F = .value s.screen.aspect.toNat ∧ readReg s 0x10 = .value s.repeatCount.toNat ∧
      readReg s 0x11 = .value s.frames.length ∧ (∀ k e, s.gpal[k]? = some e → readGpal s k = .value e)) ∧
    (∀ f, s.docHidden = false → s.frames[s.host.argFrame]? = some f →
      readReg s 0x21 = .value f.transpIndex.toNat ∧ readReg s 0x22 = .value f.delay.toNat ∧
      readReg s 0x23 = .value f.left.toNat ∧ readReg s 0x24 = .value f.top.toNat ∧
      readReg s 0x25 = .value f.width.toNat ∧ readReg s 0x26 = .value f.height.toNat ∧
      readReg s 0x28 = .value f.mcs.toNat ∧ readReg s 0x29 = .value f.rawLen ∧
      readReg s 0x2B = (match f.dec with | some d => .value d.length | none => .unspecified)) ∧
    (∀ f j k, s.docHidden = false → s.frames[j]? = some f →
      (∀ e, f.lpal[k]? = some e → readLpal s j k = .value e) ∧
      (∀ b, k < f.rawLen → f.raw[k]? = some b → readRaw s j k = .value b)) ∧
    (∀ f i v, i < s.result.len → s.frames[s.host.argFrame]? = some f →
      (∀ d, s.result.sel = .dec → f.dec = some d → d[i]? = some v → readWindow s i = .value v) ∧
      (∀ e, s.result.sel = .dei → f.dei = .valid e → e[i]? = some v → readWindow s i = .value v)) ∧
    (∀ i v px, i < s.result.len → s.result.sel = .rgba → s.result.rgba = some px → px[i]? = some v →
      readWindow s i = .value v)

/-! ## The whole machine -/

/-- R75, R326: no instruction stores to `IN`, writes the host's registers or takes a host write; a container item
touches neither the LZW engine nor the result window; a per-frame command leaves every other frame alone; a code
writes nothing but the LZW engine and `END_REASON`. None changes the capacities of the instance. -/
def Obligations.InstructionsKeepTheirFrames : Prop :=
  ∀ (i : Instr) (s t : State), exec i s = .next t →
    t.inMem = s.inMem ∧ (∀ o, inByte t o = inByte s o) ∧ t.host = s.host ∧ t.hostq = s.hostq ∧ t.caps = s.caps ∧
    ((∃ ph size, i.standsAt (.container ph size) = true) →
      t.lzw = s.lzw ∧ t.lzwRuns = s.lzwRuns ∧ t.endReason = s.endReason ∧ t.result = s.result) ∧
    (i ∈ [Instr.decode, .deinterlace, .compose] → ∀ j, j ≠ s.host.argFrame → t.frames[j]? = s.frames[j]?) ∧
    ((∃ q, i.standsAt (.lzw q) = true) → { t with lzw := s.lzw, endReason := s.endReason } = s)

/-- A step keeps the invariant of the machine: the canonical memory, the frame records, what the parser assembles, and
the invariants of R241 during a run. The capacities stay as they are. -/
def Obligations.StepKeepsTheInvariant : Prop :=
  ∀ (s t : State), s.Inv → step s = .next t → t.Inv ∧ t.caps = s.caps

/-- R220, R243, R6, U12: from a state with the invariant no step stops with a fault, so no data code lacks a previous
code; a step is refused only beyond a capacity of the instance, and never under capacities as ample as the defaults:
the stack of R243 needs 4091 entries. Where in a command a finite instance meets its limit is the model's (log 12,
DESIGN CHOICE). -/
def Obligations.StepAlwaysAnswers : Prop :=
  ∀ (s : State), s.Inv →
    (s.caps.Ample → ∃ t, step s = .next t) ∧
    ((∃ t, step s = .next t) ∨
      (step s = .refused .inCapacity ∧ Config.fits s.caps.input s.host.len = false) ∨
      (step s = .refused .frameCapacity ∧ Config.fits s.caps.frames (s.frames.length + 1) = false) ∨
      (step s = .refused .rawCapacity ∧ ∃ n, 1 ≤ n ∧ n ≤ 255 ∧ Config.fits s.caps.raw (rawTotal s + n) = false) ∨
      (step s = .refused .pixCapacity ∧ Config.fits s.caps.pix (npix s) = false) ∨
      (step s = .refused .stackDepth ∧ s.caps.stackDepth < 4091))

/-- R130, R395: under ample capacities every command terminates, within the bound that R183 and R242 give, with exactly
one of two outcomes; the host's registers but `CMD`, the input and the host's later writes are as they were. That a
command is the steps until the engine is idle is the model's (log 4, DEDUCED). -/
def Obligations.EveryCommandTerminates : Prop :=
  ∀ (s : State) (code : Byte), s.Inv → s.caps.Ample → s.engine = .idle →
    ∃ t, runCommand code s = .next t ∧ t.Inv ∧ t.engine = .idle ∧
      ((t.status.err = false ∧ t.err.code = 0#8) ∨ (t.status.err = true ∧ t.err.code ≠ 0#8)) ∧
      t.host = { s.host with cmd := code } ∧ t.inMem = s.inMem ∧ t.hostq = s.hostq ∧ t.caps = s.caps

/-- R131, R335, R342: the outcome of PARSE. It leaves a valid document without an error, every cache of it empty, or an
error and no document, so that every per-frame command then fails with `E_NO_DOCUMENT`; it never runs the LZW engine. -/
def Obligations.ParseLeavesADocumentOrAnError : Prop :=
  ∀ (s t : State), s.Inv → s.engine = .idle → runCommand 0x01#8 s = .next t →
    t.lzw = s.lzw ∧ t.lzwRuns = s.lzwRuns ∧ t.endReason = s.endReason ∧
    ((t.status.docValid = true ∧ t.status.err = false ∧ t.pos = t.endPos ∧ t.endPos + t.trailCount = t.host.len ∧
        ∀ f ∈ t.frames, f.dec = none ∧ f.dei = .empty) ∨
      (t.status.docValid = false ∧ t.status.err = true ∧
        ∀ i ∈ [Instr.decode, .deinterlace, .compose],
          exec i t = .next (t.started.afterUsageError 0x32#8 none)))

/-- R135 (a), R132, R342: DECODE twice. The second returns the first's sequence without a run, and the counter grows
by at most one over both. -/
def Obligations.SecondDecodeDoesNotRunAgain : Prop :=
  ∀ (s t u : State) (f : Frame), s.Inv → s.engine = .idle → s.status.docValid = true →
    s.frames[s.host.argFrame]? = some f → runCommand 0x02#8 s = .next t → runCommand 0x02#8 t = .next u →
    u = t ∧ (t.lzwRuns = s.lzwRuns ∨ t.lzwRuns = s.lzwRuns + 1#32) ∧
      ∃ g d, t.frames[s.host.argFrame]? = some g ∧ g.dec = some d ∧
        t.result.sel = .dec ∧ t.result.len = d.length ∧ windowStore t = some d

/-- R135 (b) and (c), R72, R76: a command on frame `f` changes no other frame, and, short of PARSE and of `OVERWRITE`,
neither a decoded nor a deinterlaced cache that is full loses it; a deinterlaced one keeps its very contents, and one
that was folded stays folded. -/
def Obligations.CachesAreFilledOnce : Prop :=
  ∀ (s t : State) (code : Byte), s.Inv → s.engine = .idle → code ≠ 0x01#8 → runCommand code s = .next t →
    t.frames.length = s.frames.length ∧
    (∀ j, j ≠ s.host.argFrame → t.frames[j]? = s.frames[j]?) ∧
    (∀ (j : Nat) (f : Frame), s.frames[j]? = some f → ∃ g, t.frames[j]? = some g ∧
      (f.dei = .folded → g.dei = .folded ∧ g.dec = f.dec) ∧
      ((code = 0x03#8 → overwrite s = false) →
        (∀ d, f.dec = some d → g.dec = some d) ∧ (∀ e, f.dei = .valid e → g.dei = .valid e)))

/-- R134, R133, R306, R324, D15: COMPOSE decodes the frame first if it must: it leaves the state that DECODE and then
COMPOSE leave. So does DEINTERLACE of an interlaced frame, with or without `OVERWRITE`, an empty payload included. (Of
a frame that is not interlaced it decodes nothing: UsageErrorsChangeNothingElse.) -/
def Obligations.ComposeIsDecodeThenCompose : Prop :=
  ∀ (s t u v : State) (code : Byte), s.Inv → s.engine = .idle →
    (code = 0x04#8 ∨
      (code = 0x03#8 ∧ ∀ f, s.frames[s.host.argFrame]? = some f → f.interlace = true)) →
    runCommand code s = .next t → runCommand 0x02#8 s = .next u → runCommand code u = .next v → v = t
end

