-- ==== Sys2Proof/Laws/State.lean ====
section
/-! SUPPORT. One lemma per field per shared update of the state, true by unfolding it once, so that no later
proof unfolds a record update. -/

namespace Sys2Proof.Machine

/-! ### goto -/

@[simp] theorem goto_host (pos : Nat) (ph : ParsePhase) (s : State) : (goto pos ph s).host = s.host := rfl
@[simp] theorem goto_inMem (pos : Nat) (ph : ParsePhase) (s : State) : (goto pos ph s).inMem = s.inMem := rfl
@[simp] theorem goto_status (pos : Nat) (ph : ParsePhase) (s : State) : (goto pos ph s).status = s.status := rfl
@[simp] theorem goto_err (pos : Nat) (ph : ParsePhase) (s : State) : (goto pos ph s).err = s.err := rfl
@[simp] theorem goto_pos (pos : Nat) (ph : ParsePhase) (s : State) : (goto pos ph s).pos = pos := rfl
@[simp] theorem goto_endPos (pos : Nat) (ph : ParsePhase) (s : State) : (goto pos ph s).endPos = s.endPos := rfl
@[simp] theorem goto_trailCount (pos : Nat) (ph : ParsePhase) (s : State) : (goto pos ph s).trailCount = s.trailCount := rfl
@[simp] theorem goto_screen (pos : Nat) (ph : ParsePhase) (s : State) : (goto pos ph s).screen = s.screen := rfl
@[simp] theorem goto_gpal (pos : Nat) (ph : ParsePhase) (s : State) : (goto pos ph s).gpal = s.gpal := rfl
@[simp] theorem goto_repeatCount (pos : Nat) (ph : ParsePhase) (s : State) : (goto pos ph s).repeatCount = s.repeatCount := rfl
@[simp] theorem goto_frames (pos : Nat) (ph : ParsePhase) (s : State) : (goto pos ph s).frames = s.frames := rfl
@[simp] theorem goto_pendAlloc (pos : Nat) (ph : ParsePhase) (s : State) : (goto pos ph s).pendAlloc = s.pendAlloc := rfl
@[simp] theorem goto_pendRec (pos : Nat) (ph : ParsePhase) (s : State) : (goto pos ph s).pendRec = s.pendRec := rfl
@[simp] theorem goto_lzw (pos : Nat) (ph : ParsePhase) (s : State) : (goto pos ph s).lzw = s.lzw := rfl
@[simp] theorem goto_lzwRuns (pos : Nat) (ph : ParsePhase) (s : State) : (goto pos ph s).lzwRuns = s.lzwRuns := rfl
@[simp] theorem goto_endReason (pos : Nat) (ph : ParsePhase) (s : State) : (goto pos ph s).endReason = s.endReason := rfl
@[simp] theorem goto_result (pos : Nat) (ph : ParsePhase) (s : State) : (goto pos ph s).result = s.result := rfl
@[simp] theorem goto_engine (pos : Nat) (ph : ParsePhase) (s : State) : (goto pos ph s).engine = .parse ph := rfl
@[simp] theorem goto_hostq (pos : Nat) (ph : ParsePhase) (s : State) : (goto pos ph s).hostq = s.hostq := rfl
@[simp] theorem goto_docHidden (pos : Nat) (ph : ParsePhase) (s : State) : (goto pos ph s).docHidden = s.docHidden := rfl
@[simp] theorem goto_docEpoch (pos : Nat) (ph : ParsePhase) (s : State) : (goto pos ph s).docEpoch = s.docEpoch := rfl
@[simp] theorem goto_caps (pos : Nat) (ph : ParsePhase) (s : State) : (goto pos ph s).caps = s.caps := rfl

/-! ### skipFrom: `POS` stays (R174) -/

@[simp] theorem skipFrom_host (cursor : Nat) (s : State) : (skipFrom cursor s).host = s.host := rfl
@[simp] theorem skipFrom_inMem (cursor : Nat) (s : State) : (skipFrom cursor s).inMem = s.inMem := rfl
@[simp] theorem skipFrom_status (cursor : Nat) (s : State) : (skipFrom cursor s).status = s.status := rfl
@[simp] theorem skipFrom_err (cursor : Nat) (s : State) : (skipFrom cursor s).err = s.err := rfl
@[simp] theorem skipFrom_pos (cursor : Nat) (s : State) : (skipFrom cursor s).pos = s.pos := rfl
@[simp] theorem skipFrom_endPos (cursor : Nat) (s : State) : (skipFrom cursor s).endPos = s.endPos := rfl
@[simp] theorem skipFrom_trailCount (cursor : Nat) (s : State) : (skipFrom cursor s).trailCount = s.trailCount := rfl
@[simp] theorem skipFrom_screen (cursor : Nat) (s : State) : (skipFrom cursor s).screen = s.screen := rfl
@[simp] theorem skipFrom_gpal (cursor : Nat) (s : State) : (skipFrom cursor s).gpal = s.gpal := rfl
@[simp] theorem skipFrom_repeatCount (cursor : Nat) (s : State) : (skipFrom cursor s).repeatCount = s.repeatCount := rfl
@[simp] theorem skipFrom_frames (cursor : Nat) (s : State) : (skipFrom cursor s).frames = s.frames := rfl
@[simp] theorem skipFrom_pendAlloc (cursor : Nat) (s : State) : (skipFrom cursor s).pendAlloc = s.pendAlloc := rfl
@[simp] theorem skipFrom_pendRec (cursor : Nat) (s : State) : (skipFrom cursor s).pendRec = s.pendRec := rfl
@[simp] theorem skipFrom_lzw (cursor : Nat) (s : State) : (skipFrom cursor s).lzw = s.lzw := rfl
@[simp] theorem skipFrom_lzwRuns (cursor : Nat) (s : State) : (skipFrom cursor s).lzwRuns = s.lzwRuns := rfl
@[simp] theorem skipFrom_endReason (cursor : Nat) (s : State) : (skipFrom cursor s).endReason = s.endReason := rfl
@[simp] theorem skipFrom_result (cursor : Nat) (s : State) : (skipFrom cursor s).result = s.result := rfl
@[simp] theorem skipFrom_engine (cursor : Nat) (s : State) : (skipFrom cursor s).engine = .parse (.chain (.skip cursor)) := rfl
@[simp] theorem skipFrom_hostq (cursor : Nat) (s : State) : (skipFrom cursor s).hostq = s.hostq := rfl
@[simp] theorem skipFrom_docHidden (cursor : Nat) (s : State) : (skipFrom cursor s).docHidden = s.docHidden := rfl
@[simp] theorem skipFrom_docEpoch (cursor : Nat) (s : State) : (skipFrom cursor s).docEpoch = s.docEpoch := rfl
@[simp] theorem skipFrom_caps (cursor : Nat) (s : State) : (skipFrom cursor s).caps = s.caps := rfl

/-! ### endRaw -/

@[simp] theorem endRaw_host (s : State) : (endRaw s).host = s.host := rfl
@[simp] theorem endRaw_inMem (s : State) : (endRaw s).inMem = s.inMem := rfl
@[simp] theorem endRaw_status (s : State) : (endRaw s).status = s.status := rfl
@[simp] theorem endRaw_err (s : State) : (endRaw s).err = s.err := rfl
@[simp] theorem endRaw_pos (s : State) : (endRaw s).pos = s.pos := rfl
@[simp] theorem endRaw_endPos (s : State) : (endRaw s).endPos = s.endPos := rfl
@[simp] theorem endRaw_trailCount (s : State) : (endRaw s).trailCount = s.trailCount := rfl
@[simp] theorem endRaw_screen (s : State) : (endRaw s).screen = s.screen := rfl
@[simp] theorem endRaw_gpal (s : State) : (endRaw s).gpal = s.gpal := rfl
@[simp] theorem endRaw_repeatCount (s : State) : (endRaw s).repeatCount = s.repeatCount := rfl
@[simp] theorem endRaw_frames (s : State) : (endRaw s).frames = s.frames := rfl
@[simp] theorem endRaw_pendAlloc (s : State) : (endRaw s).pendAlloc = s.pendAlloc := rfl
@[simp] theorem endRaw_pendRec (s : State) : (endRaw s).pendRec = { s.pendRec with rawLen := s.pendRec.raw.length } := rfl
@[simp] theorem endRaw_lzw (s : State) : (endRaw s).lzw = s.lzw := rfl
@[simp] theorem endRaw_lzwRuns (s : State) : (endRaw s).lzwRuns = s.lzwRuns := rfl
@[simp] theorem endRaw_endReason (s : State) : (endRaw s).endReason = s.endReason := rfl
@[simp] theorem endRaw_result (s : State) : (endRaw s).result = s.result := rfl
@[simp] theorem endRaw_engine (s : State) : (endRaw s).engine = s.engine := rfl
@[simp] theorem endRaw_hostq (s : State) : (endRaw s).hostq = s.hostq := rfl
@[simp] theorem endRaw_docHidden (s : State) : (endRaw s).docHidden = s.docHidden := rfl
@[simp] theorem endRaw_docEpoch (s : State) : (endRaw s).docEpoch = s.docEpoch := rfl
@[simp] theorem endRaw_caps (s : State) : (endRaw s).caps = s.caps := rfl

/-! ### The length byte of a chain -/

@[simp] theorem chainAt_skip (cursor pos : Nat) : chainAt (.skip cursor) pos = cursor := rfl
@[simp] theorem chainAt_image (pos : Nat) : chainAt .image pos = pos := rfl
theorem chainKind_of {s : State} {k : ChainKind} (h : s.engine = .parse (.chain k)) : chainKind s = k := by
  simp [chainKind, h]

/-! ### modPend -/

@[simp] theorem modPend_host (f : Frame → Frame) (s : State) : (modPend f s).host = s.host := rfl
@[simp] theorem modPend_inMem (f : Frame → Frame) (s : State) : (modPend f s).inMem = s.inMem := rfl
@[simp] theorem modPend_status (f : Frame → Frame) (s : State) : (modPend f s).status = s.status := rfl
@[simp] theorem modPend_err (f : Frame → Frame) (s : State) : (modPend f s).err = s.err := rfl
@[simp] theorem modPend_pos (f : Frame → Frame) (s : State) : (modPend f s).pos = s.pos := rfl
@[simp] theorem modPend_endPos (f : Frame → Frame) (s : State) : (modPend f s).endPos = s.endPos := rfl
@[simp] theorem modPend_trailCount (f : Frame → Frame) (s : State) : (modPend f s).trailCount = s.trailCount := rfl
@[simp] theorem modPend_screen (f : Frame → Frame) (s : State) : (modPend f s).screen = s.screen := rfl
@[simp] theorem modPend_gpal (f : Frame → Frame) (s : State) : (modPend f s).gpal = s.gpal := rfl
@[simp] theorem modPend_repeatCount (f : Frame → Frame) (s : State) : (modPend f s).repeatCount = s.repeatCount := rfl
@[simp] theorem modPend_frames (f : Frame → Frame) (s : State) : (modPend f s).frames = s.frames := rfl
@[simp] theorem modPend_pendAlloc (f : Frame → Frame) (s : State) : (modPend f s).pendAlloc = s.pendAlloc := rfl
@[simp] theorem modPend_pendRec (f : Frame → Frame) (s : State) : (modPend f s).pendRec = f s.pendRec := rfl
@[simp] theorem modPend_lzw (f : Frame → Frame) (s : State) : (modPend f s).lzw = s.lzw := rfl
@[simp] theorem modPend_lzwRuns (f : Frame → Frame) (s : State) : (modPend f s).lzwRuns = s.lzwRuns := rfl
@[simp] theorem modPend_endReason (f : Frame → Frame) (s : State) : (modPend f s).endReason = s.endReason := rfl
@[simp] theorem modPend_result (f : Frame → Frame) (s : State) : (modPend f s).result = s.result := rfl
@[simp] theorem modPend_engine (f : Frame → Frame) (s : State) : (modPend f s).engine = s.engine := rfl
@[simp] theorem modPend_hostq (f : Frame → Frame) (s : State) : (modPend f s).hostq = s.hostq := rfl
@[simp] theorem modPend_docHidden (f : Frame → Frame) (s : State) : (modPend f s).docHidden = s.docHidden := rfl
@[simp] theorem modPend_docEpoch (f : Frame → Frame) (s : State) : (modPend f s).docEpoch = s.docEpoch := rfl
@[simp] theorem modPend_caps (f : Frame → Frame) (s : State) : (modPend f s).caps = s.caps := rfl

/-! ### commitFrame -/

@[simp] theorem commitFrame_host (s : State) : (commitFrame s).host = s.host := rfl
@[simp] theorem commitFrame_inMem (s : State) : (commitFrame s).inMem = s.inMem := rfl
@[simp] theorem commitFrame_status (s : State) : (commitFrame s).status = s.status := rfl
@[simp] theorem commitFrame_err (s : State) : (commitFrame s).err = s.err := rfl
@[simp] theorem commitFrame_pos (s : State) : (commitFrame s).pos = s.pos := rfl
@[simp] theorem commitFrame_endPos (s : State) : (commitFrame s).endPos = s.endPos := rfl
@[simp] theorem commitFrame_trailCount (s : State) : (commitFrame s).trailCount = s.trailCount := rfl
@[simp] theorem commitFrame_screen (s : State) : (commitFrame s).screen = s.screen := rfl
@[simp] theorem commitFrame_gpal (s : State) : (commitFrame s).gpal = s.gpal := rfl
@[simp] theorem commitFrame_repeatCount (s : State) : (commitFrame s).repeatCount = s.repeatCount := rfl
@[simp] theorem commitFrame_frames (s : State) : (commitFrame s).frames = s.frames ++ [s.pendRec] := rfl
@[simp] theorem commitFrame_pendAlloc (s : State) : (commitFrame s).pendAlloc = false := rfl
@[simp] theorem commitFrame_pendRec (s : State) : (commitFrame s).pendRec = s.pendRec := rfl
@[simp] theorem commitFrame_lzw (s : State) : (commitFrame s).lzw = s.lzw := rfl
@[simp] theorem commitFrame_lzwRuns (s : State) : (commitFrame s).lzwRuns = s.lzwRuns := rfl
@[simp] theorem commitFrame_endReason (s : State) : (commitFrame s).endReason = s.endReason := rfl
@[simp] theorem commitFrame_result (s : State) : (commitFrame s).result = s.result := rfl
@[simp] theorem commitFrame_engine (s : State) : (commitFrame s).engine = s.engine := rfl
@[simp] theorem commitFrame_hostq (s : State) : (commitFrame s).hostq = s.hostq := rfl
@[simp] theorem commitFrame_docHidden (s : State) : (commitFrame s).docHidden = s.docHidden := rfl
@[simp] theorem commitFrame_docEpoch (s : State) : (commitFrame s).docEpoch = s.docEpoch := rfl
@[simp] theorem commitFrame_caps (s : State) : (commitFrame s).caps = s.caps := rfl

/-! ### modLzw -/

@[simp] theorem modLzw_host (f : Lzw → Lzw) (s : State) : (modLzw f s).host = s.host := rfl
@[simp] theorem modLzw_inMem (f : Lzw → Lzw) (s : State) : (modLzw f s).inMem = s.inMem := rfl
@[simp] theorem modLzw_status (f : Lzw → Lzw) (s : State) : (modLzw f s).status = s.status := rfl
@[simp] theorem modLzw_err (f : Lzw → Lzw) (s : State) : (modLzw f s).err = s.err := rfl
@[simp] theorem modLzw_pos (f : Lzw → Lzw) (s : State) : (modLzw f s).pos = s.pos := rfl
@[simp] theorem modLzw_endPos (f : Lzw → Lzw) (s : State) : (modLzw f s).endPos = s.endPos := rfl
@[simp] theorem modLzw_trailCount (f : Lzw → Lzw) (s : State) : (modLzw f s).trailCount = s.trailCount := rfl
@[simp] theorem modLzw_screen (f : Lzw → Lzw) (s : State) : (modLzw f s).screen = s.screen := rfl
@[simp] theorem modLzw_gpal (f : Lzw → Lzw) (s : State) : (modLzw f s).gpal = s.gpal := rfl
@[simp] theorem modLzw_repeatCount (f : Lzw → Lzw) (s : State) : (modLzw f s).repeatCount = s.repeatCount := rfl
@[simp] theorem modLzw_frames (f : Lzw → Lzw) (s : State) : (modLzw f s).frames = s.frames := rfl
@[simp] theorem modLzw_pendAlloc (f : Lzw → Lzw) (s : State) : (modLzw f s).pendAlloc = s.pendAlloc := rfl
@[simp] theorem modLzw_pendRec (f : Lzw → Lzw) (s : State) : (modLzw f s).pendRec = s.pendRec := rfl
@[simp] theorem modLzw_lzw (f : Lzw → Lzw) (s : State) : (modLzw f s).lzw = f s.lzw := rfl
@[simp] theorem modLzw_lzwRuns (f : Lzw → Lzw) (s : State) : (modLzw f s).lzwRuns = s.lzwRuns := rfl
@[simp] theorem modLzw_endReason (f : Lzw → Lzw) (s : State) : (modLzw f s).endReason = s.endReason := rfl
@[simp] theorem modLzw_result (f : Lzw → Lzw) (s : State) : (modLzw f s).result = s.result := rfl
@[simp] theorem modLzw_engine (f : Lzw → Lzw) (s : State) : (modLzw f s).engine = s.engine := rfl
@[simp] theorem modLzw_hostq (f : Lzw → Lzw) (s : State) : (modLzw f s).hostq = s.hostq := rfl
@[simp] theorem modLzw_docHidden (f : Lzw → Lzw) (s : State) : (modLzw f s).docHidden = s.docHidden := rfl
@[simp] theorem modLzw_docEpoch (f : Lzw → Lzw) (s : State) : (modLzw f s).docEpoch = s.docEpoch := rfl
@[simp] theorem modLzw_caps (f : Lzw → Lzw) (s : State) : (modLzw f s).caps = s.caps := rfl

/-! ### leaveLoop -/

@[simp] theorem leaveLoop_host (r : EndReason) (s : State) : (leaveLoop r s).host = s.host := rfl
@[simp] theorem leaveLoop_inMem (r : EndReason) (s : State) : (leaveLoop r s).inMem = s.inMem := rfl
@[simp] theorem leaveLoop_status (r : EndReason) (s : State) : (leaveLoop r s).status = s.status := rfl
@[simp] theorem leaveLoop_err (r : EndReason) (s : State) : (leaveLoop r s).err = s.err := rfl
@[simp] theorem leaveLoop_pos (r : EndReason) (s : State) : (leaveLoop r s).pos = s.pos := rfl
@[simp] theorem leaveLoop_endPos (r : EndReason) (s : State) : (leaveLoop r s).endPos = s.endPos := rfl
@[simp] theorem leaveLoop_trailCount (r : EndReason) (s : State) : (leaveLoop r s).trailCount = s.trailCount := rfl
@[simp] theorem leaveLoop_screen (r : EndReason) (s : State) : (leaveLoop r s).screen = s.screen := rfl
@[simp] theorem leaveLoop_gpal (r : EndReason) (s : State) : (leaveLoop r s).gpal = s.gpal := rfl
@[simp] theorem leaveLoop_repeatCount (r : EndReason) (s : State) : (leaveLoop r s).repeatCount = s.repeatCount := rfl
@[simp] theorem leaveLoop_frames (r : EndReason) (s : State) : (leaveLoop r s).frames = s.frames := rfl
@[simp] theorem leaveLoop_pendAlloc (r : EndReason) (s : State) : (leaveLoop r s).pendAlloc = s.pendAlloc := rfl
@[simp] theorem leaveLoop_pendRec (r : EndReason) (s : State) : (leaveLoop r s).pendRec = s.pendRec := rfl
@[simp] theorem leaveLoop_lzw (r : EndReason) (s : State) : (leaveLoop r s).lzw = { s.lzw with ended := true } := rfl
@[simp] theorem leaveLoop_lzwRuns (r : EndReason) (s : State) : (leaveLoop r s).lzwRuns = s.lzwRuns := rfl
@[simp] theorem leaveLoop_endReason (r : EndReason) (s : State) : (leaveLoop r s).endReason = r := rfl
@[simp] theorem leaveLoop_result (r : EndReason) (s : State) : (leaveLoop r s).result = s.result := rfl
@[simp] theorem leaveLoop_engine (r : EndReason) (s : State) : (leaveLoop r s).engine = s.engine := rfl
@[simp] theorem leaveLoop_hostq (r : EndReason) (s : State) : (leaveLoop r s).hostq = s.hostq := rfl
@[simp] theorem leaveLoop_docHidden (r : EndReason) (s : State) : (leaveLoop r s).docHidden = s.docHidden := rfl
@[simp] theorem leaveLoop_docEpoch (r : EndReason) (s : State) : (leaveLoop r s).docEpoch = s.docEpoch := rfl
@[simp] theorem leaveLoop_caps (r : EndReason) (s : State) : (leaveLoop r s).caps = s.caps := rfl

/-! ### modCur -/

@[simp] theorem modCur_host (f : Frame → Frame) (s : State) : (modCur f s).host = s.host := rfl
@[simp] theorem modCur_inMem (f : Frame → Frame) (s : State) : (modCur f s).inMem = s.inMem := rfl
@[simp] theorem modCur_status (f : Frame → Frame) (s : State) : (modCur f s).status = s.status := rfl
@[simp] theorem modCur_err (f : Frame → Frame) (s : State) : (modCur f s).err = s.err := rfl
@[simp] theorem modCur_pos (f : Frame → Frame) (s : State) : (modCur f s).pos = s.pos := rfl
@[simp] theorem modCur_endPos (f : Frame → Frame) (s : State) : (modCur f s).endPos = s.endPos := rfl
@[simp] theorem modCur_trailCount (f : Frame → Frame) (s : State) : (modCur f s).trailCount = s.trailCount := rfl
@[simp] theorem modCur_screen (f : Frame → Frame) (s : State) : (modCur f s).screen = s.screen := rfl
@[simp] theorem modCur_gpal (f : Frame → Frame) (s : State) : (modCur f s).gpal = s.gpal := rfl
@[simp] theorem modCur_repeatCount (f : Frame → Frame) (s : State) : (modCur f s).repeatCount = s.repeatCount := rfl
@[simp] theorem modCur_frames (f : Frame → Frame) (s : State) : (modCur f s).frames = s.frames.modify s.host.argFrame f := rfl
@[simp] theorem modCur_pendAlloc (f : Frame → Frame) (s : State) : (modCur f s).pendAlloc = s.pendAlloc := rfl
@[simp] theorem modCur_pendRec (f : Frame → Frame) (s : State) : (modCur f s).pendRec = s.pendRec := rfl
@[simp] theorem modCur_lzw (f : Frame → Frame) (s : State) : (modCur f s).lzw = s.lzw := rfl
@[simp] theorem modCur_lzwRuns (f : Frame → Frame) (s : State) : (modCur f s).lzwRuns = s.lzwRuns := rfl
@[simp] theorem modCur_endReason (f : Frame → Frame) (s : State) : (modCur f s).endReason = s.endReason := rfl
@[simp] theorem modCur_result (f : Frame → Frame) (s : State) : (modCur f s).result = s.result := rfl
@[simp] theorem modCur_engine (f : Frame → Frame) (s : State) : (modCur f s).engine = s.engine := rfl
@[simp] theorem modCur_hostq (f : Frame → Frame) (s : State) : (modCur f s).hostq = s.hostq := rfl
@[simp] theorem modCur_docHidden (f : Frame → Frame) (s : State) : (modCur f s).docHidden = s.docHidden := rfl
@[simp] theorem modCur_docEpoch (f : Frame → Frame) (s : State) : (modCur f s).docEpoch = s.docEpoch := rfl
@[simp] theorem modCur_caps (f : Frame → Frame) (s : State) : (modCur f s).caps = s.caps := rfl

/-! ### setDec -/

@[simp] theorem setDec_host (d : List Byte) (s : State) : (setDec d s).host = s.host := rfl
@[simp] theorem setDec_inMem (d : List Byte) (s : State) : (setDec d s).inMem = s.inMem := rfl
@[simp] theorem setDec_status (d : List Byte) (s : State) : (setDec d s).status = s.status := rfl
@[simp] theorem setDec_err (d : List Byte) (s : State) : (setDec d s).err = s.err := rfl
@[simp] theorem setDec_pos (d : List Byte) (s : State) : (setDec d s).pos = s.pos := rfl
@[simp] theorem setDec_endPos (d : List Byte) (s : State) : (setDec d s).endPos = s.endPos := rfl
@[simp] theorem setDec_trailCount (d : List Byte) (s : State) : (setDec d s).trailCount = s.trailCount := rfl
@[simp] theorem setDec_screen (d : List Byte) (s : State) : (setDec d s).screen = s.screen := rfl
@[simp] theorem setDec_gpal (d : List Byte) (s : State) : (setDec d s).gpal = s.gpal := rfl
@[simp] theorem setDec_repeatCount (d : List Byte) (s : State) : (setDec d s).repeatCount = s.repeatCount := rfl
@[simp] theorem setDec_frames (d : List Byte) (s : State) : (setDec d s).frames = s.frames.modify s.host.argFrame fun f => { f with dec := some d } := rfl
@[simp] theorem setDec_pendAlloc (d : List Byte) (s : State) : (setDec d s).pendAlloc = s.pendAlloc := rfl
@[simp] theorem setDec_pendRec (d : List Byte) (s : State) : (setDec d s).pendRec = s.pendRec := rfl
@[simp] theorem setDec_lzw (d : List Byte) (s : State) : (setDec d s).lzw = s.lzw := rfl
@[simp] theorem setDec_lzwRuns (d : List Byte) (s : State) : (setDec d s).lzwRuns = s.lzwRuns := rfl
@[simp] theorem setDec_endReason (d : List Byte) (s : State) : (setDec d s).endReason = s.endReason := rfl
@[simp] theorem setDec_result (d : List Byte) (s : State) : (setDec d s).result = s.result := rfl
@[simp] theorem setDec_engine (d : List Byte) (s : State) : (setDec d s).engine = s.engine := rfl
@[simp] theorem setDec_hostq (d : List Byte) (s : State) : (setDec d s).hostq = s.hostq := rfl
@[simp] theorem setDec_docHidden (d : List Byte) (s : State) : (setDec d s).docHidden = s.docHidden := rfl
@[simp] theorem setDec_docEpoch (d : List Byte) (s : State) : (setDec d s).docEpoch = s.docEpoch := rfl
@[simp] theorem setDec_caps (d : List Byte) (s : State) : (setDec d s).caps = s.caps := rfl

/-! ### raiseParse -/

@[simp] theorem raiseParse_host (e : ErrorName) (off : Nat) (b : Option Byte) (s : State) : (raiseParse e off b s).host = s.host := rfl
@[simp] theorem raiseParse_inMem (e : ErrorName) (off : Nat) (b : Option Byte) (s : State) : (raiseParse e off b s).inMem = s.inMem := rfl
@[simp] theorem raiseParse_status (e : ErrorName) (off : Nat) (b : Option Byte) (s : State) : (raiseParse e off b s).status = { s.status with err := true } := rfl
@[simp] theorem raiseParse_err (e : ErrorName) (off : Nat) (b : Option Byte) (s : State) : (raiseParse e off b s).err = ⟨e.code, off, b.getD 0#8, b.isSome, s.frames.length⟩ := rfl
@[simp] theorem raiseParse_pos (e : ErrorName) (off : Nat) (b : Option Byte) (s : State) : (raiseParse e off b s).pos = s.pos := rfl
@[simp] theorem raiseParse_endPos (e : ErrorName) (off : Nat) (b : Option Byte) (s : State) : (raiseParse e off b s).endPos = s.endPos := rfl
@[simp] theorem raiseParse_trailCount (e : ErrorName) (off : Nat) (b : Option Byte) (s : State) : (raiseParse e off b s).trailCount = s.trailCount := rfl
@[simp] theorem raiseParse_screen (e : ErrorName) (off : Nat) (b : Option Byte) (s : State) : (raiseParse e off b s).screen = s.screen := rfl
@[simp] theorem raiseParse_gpal (e : ErrorName) (off : Nat) (b : Option Byte) (s : State) : (raiseParse e off b s).gpal = s.gpal := rfl
@[simp] theorem raiseParse_repeatCount (e : ErrorName) (off : Nat) (b : Option Byte) (s : State) : (raiseParse e off b s).repeatCount = s.repeatCount := rfl
@[simp] theorem raiseParse_frames (e : ErrorName) (off : Nat) (b : Option Byte) (s : State) : (raiseParse e off b s).frames = s.frames := rfl
@[simp] theorem raiseParse_pendAlloc (e : ErrorName) (off : Nat) (b : Option Byte) (s : State) : (raiseParse e off b s).pendAlloc = s.pendAlloc := rfl
@[simp] theorem raiseParse_pendRec (e : ErrorName) (off : Nat) (b : Option Byte) (s : State) : (raiseParse e off b s).pendRec = s.pendRec := rfl
@[simp] theorem raiseParse_lzw (e : ErrorName) (off : Nat) (b : Option Byte) (s : State) : (raiseParse e off b s).lzw = s.lzw := rfl
@[simp] theorem raiseParse_lzwRuns (e : ErrorName) (off : Nat) (b : Option Byte) (s : State) : (raiseParse e off b s).lzwRuns = s.lzwRuns := rfl
@[simp] theorem raiseParse_endReason (e : ErrorName) (off : Nat) (b : Option Byte) (s : State) : (raiseParse e off b s).endReason = s.endReason := rfl
@[simp] theorem raiseParse_result (e : ErrorName) (off : Nat) (b : Option Byte) (s : State) : (raiseParse e off b s).result = s.result := rfl
@[simp] theorem raiseParse_engine (e : ErrorName) (off : Nat) (b : Option Byte) (s : State) : (raiseParse e off b s).engine = .idle := rfl
@[simp] theorem raiseParse_hostq (e : ErrorName) (off : Nat) (b : Option Byte) (s : State) : (raiseParse e off b s).hostq = s.hostq := rfl
@[simp] theorem raiseParse_docHidden (e : ErrorName) (off : Nat) (b : Option Byte) (s : State) : (raiseParse e off b s).docHidden = true := rfl
@[simp] theorem raiseParse_docEpoch (e : ErrorName) (off : Nat) (b : Option Byte) (s : State) : (raiseParse e off b s).docEpoch = s.docEpoch := rfl
@[simp] theorem raiseParse_caps (e : ErrorName) (off : Nat) (b : Option Byte) (s : State) : (raiseParse e off b s).caps = s.caps := rfl

/-! ### raiseUsage -/

@[simp] theorem raiseUsage_host (e : ErrorName) (b : Option Byte) (s : State) : (raiseUsage e b s).host = s.host := rfl
@[simp] theorem raiseUsage_inMem (e : ErrorName) (b : Option Byte) (s : State) : (raiseUsage e b s).inMem = s.inMem := rfl
@[simp] theorem raiseUsage_status (e : ErrorName) (b : Option Byte) (s : State) : (raiseUsage e b s).status = { s.status with err := true } := rfl
@[simp] theorem raiseUsage_err (e : ErrorName) (b : Option Byte) (s : State) : (raiseUsage e b s).err = ⟨e.code, 0, b.getD 0#8, b.isSome, s.host.argFrame⟩ := rfl
@[simp] theorem raiseUsage_pos (e : ErrorName) (b : Option Byte) (s : State) : (raiseUsage e b s).pos = s.pos := rfl
@[simp] theorem raiseUsage_endPos (e : ErrorName) (b : Option Byte) (s : State) : (raiseUsage e b s).endPos = s.endPos := rfl
@[simp] theorem raiseUsage_trailCount (e : ErrorName) (b : Option Byte) (s : State) : (raiseUsage e b s).trailCount = s.trailCount := rfl
@[simp] theorem raiseUsage_screen (e : ErrorName) (b : Option Byte) (s : State) : (raiseUsage e b s).screen = s.screen := rfl
@[simp] theorem raiseUsage_gpal (e : ErrorName) (b : Option Byte) (s : State) : (raiseUsage e b s).gpal = s.gpal := rfl
@[simp] theorem raiseUsage_repeatCount (e : ErrorName) (b : Option Byte) (s : State) : (raiseUsage e b s).repeatCount = s.repeatCount := rfl
@[simp] theorem raiseUsage_frames (e : ErrorName) (b : Option Byte) (s : State) : (raiseUsage e b s).frames = s.frames := rfl
@[simp] theorem raiseUsage_pendAlloc (e : ErrorName) (b : Option Byte) (s : State) : (raiseUsage e b s).pendAlloc = s.pendAlloc := rfl
@[simp] theorem raiseUsage_pendRec (e : ErrorName) (b : Option Byte) (s : State) : (raiseUsage e b s).pendRec = s.pendRec := rfl
@[simp] theorem raiseUsage_lzw (e : ErrorName) (b : Option Byte) (s : State) : (raiseUsage e b s).lzw = s.lzw := rfl
@[simp] theorem raiseUsage_lzwRuns (e : ErrorName) (b : Option Byte) (s : State) : (raiseUsage e b s).lzwRuns = s.lzwRuns := rfl
@[simp] theorem raiseUsage_endReason (e : ErrorName) (b : Option Byte) (s : State) : (raiseUsage e b s).endReason = s.endReason := rfl
@[simp] theorem raiseUsage_result (e : ErrorName) (b : Option Byte) (s : State) : (raiseUsage e b s).result = s.result := rfl
@[simp] theorem raiseUsage_engine (e : ErrorName) (b : Option Byte) (s : State) : (raiseUsage e b s).engine = .idle := rfl
@[simp] theorem raiseUsage_hostq (e : ErrorName) (b : Option Byte) (s : State) : (raiseUsage e b s).hostq = s.hostq := rfl
@[simp] theorem raiseUsage_docHidden (e : ErrorName) (b : Option Byte) (s : State) : (raiseUsage e b s).docHidden = s.docHidden := rfl
@[simp] theorem raiseUsage_docEpoch (e : ErrorName) (b : Option Byte) (s : State) : (raiseUsage e b s).docEpoch = s.docEpoch := rfl
@[simp] theorem raiseUsage_caps (e : ErrorName) (b : Option Byte) (s : State) : (raiseUsage e b s).caps = s.caps := rfl

/-! ### startCommand -/

@[simp] theorem startCommand_host (s : State) : (startCommand s).host = s.host := rfl
@[simp] theorem startCommand_inMem (s : State) : (startCommand s).inMem = s.inMem := rfl
@[simp] theorem startCommand_status (s : State) : (startCommand s).status = { s.status with err := false } := rfl
@[simp] theorem startCommand_err (s : State) : (startCommand s).err = { s.err with code := 0#8 } := rfl
@[simp] theorem startCommand_pos (s : State) : (startCommand s).pos = s.pos := rfl
@[simp] theorem startCommand_endPos (s : State) : (startCommand s).endPos = s.endPos := rfl
@[simp] theorem startCommand_trailCount (s : State) : (startCommand s).trailCount = s.trailCount := rfl
@[simp] theorem startCommand_screen (s : State) : (startCommand s).screen = s.screen := rfl
@[simp] theorem startCommand_gpal (s : State) : (startCommand s).gpal = s.gpal := rfl
@[simp] theorem startCommand_repeatCount (s : State) : (startCommand s).repeatCount = s.repeatCount := rfl
@[simp] theorem startCommand_frames (s : State) : (startCommand s).frames = s.frames := rfl
@[simp] theorem startCommand_pendAlloc (s : State) : (startCommand s).pendAlloc = s.pendAlloc := rfl
@[simp] theorem startCommand_pendRec (s : State) : (startCommand s).pendRec = s.pendRec := rfl
@[simp] theorem startCommand_lzw (s : State) : (startCommand s).lzw = s.lzw := rfl
@[simp] theorem startCommand_lzwRuns (s : State) : (startCommand s).lzwRuns = s.lzwRuns := rfl
@[simp] theorem startCommand_endReason (s : State) : (startCommand s).endReason = s.endReason := rfl
@[simp] theorem startCommand_result (s : State) : (startCommand s).result = s.result := rfl
@[simp] theorem startCommand_engine (s : State) : (startCommand s).engine = s.engine := rfl
@[simp] theorem startCommand_hostq (s : State) : (startCommand s).hostq = s.hostq := rfl
@[simp] theorem startCommand_docHidden (s : State) : (startCommand s).docHidden = s.docHidden := rfl
@[simp] theorem startCommand_docEpoch (s : State) : (startCommand s).docEpoch = s.docEpoch := rfl
@[simp] theorem startCommand_caps (s : State) : (startCommand s).caps = s.caps := rfl

/-! ### showWindow -/

@[simp] theorem showWindow_host (sel : OutSel) (n : Nat) (s : State) : (showWindow sel n s).host = s.host := rfl
@[simp] theorem showWindow_inMem (sel : OutSel) (n : Nat) (s : State) : (showWindow sel n s).inMem = s.inMem := rfl
@[simp] theorem showWindow_status (sel : OutSel) (n : Nat) (s : State) : (showWindow sel n s).status = s.status := rfl
@[simp] theorem showWindow_err (sel : OutSel) (n : Nat) (s : State) : (showWindow sel n s).err = s.err := rfl
@[simp] theorem showWindow_pos (sel : OutSel) (n : Nat) (s : State) : (showWindow sel n s).pos = s.pos := rfl
@[simp] theorem showWindow_endPos (sel : OutSel) (n : Nat) (s : State) : (showWindow sel n s).endPos = s.endPos := rfl
@[simp] theorem showWindow_trailCount (sel : OutSel) (n : Nat) (s : State) : (showWindow sel n s).trailCount = s.trailCount := rfl
@[simp] theorem showWindow_screen (sel : OutSel) (n : Nat) (s : State) : (showWindow sel n s).screen = s.screen := rfl
@[simp] theorem showWindow_gpal (sel : OutSel) (n : Nat) (s : State) : (showWindow sel n s).gpal = s.gpal := rfl
@[simp] theorem showWindow_repeatCount (sel : OutSel) (n : Nat) (s : State) : (showWindow sel n s).repeatCount = s.repeatCount := rfl
@[simp] theorem showWindow_frames (sel : OutSel) (n : Nat) (s : State) : (showWindow sel n s).frames = s.frames := rfl
@[simp] theorem showWindow_pendAlloc (sel : OutSel) (n : Nat) (s : State) : (showWindow sel n s).pendAlloc = s.pendAlloc := rfl
@[simp] theorem showWindow_pendRec (sel : OutSel) (n : Nat) (s : State) : (showWindow sel n s).pendRec = s.pendRec := rfl
@[simp] theorem showWindow_lzw (sel : OutSel) (n : Nat) (s : State) : (showWindow sel n s).lzw = s.lzw := rfl
@[simp] theorem showWindow_lzwRuns (sel : OutSel) (n : Nat) (s : State) : (showWindow sel n s).lzwRuns = s.lzwRuns := rfl
@[simp] theorem showWindow_endReason (sel : OutSel) (n : Nat) (s : State) : (showWindow sel n s).endReason = s.endReason := rfl
@[simp] theorem showWindow_result (sel : OutSel) (n : Nat) (s : State) : (showWindow sel n s).result = { s.result with sel := sel, len := n, rgba := none } := rfl
@[simp] theorem showWindow_engine (sel : OutSel) (n : Nat) (s : State) : (showWindow sel n s).engine = .idle := rfl
@[simp] theorem showWindow_hostq (sel : OutSel) (n : Nat) (s : State) : (showWindow sel n s).hostq = s.hostq := rfl
@[simp] theorem showWindow_docHidden (sel : OutSel) (n : Nat) (s : State) : (showWindow sel n s).docHidden = s.docHidden := rfl
@[simp] theorem showWindow_docEpoch (sel : OutSel) (n : Nat) (s : State) : (showWindow sel n s).docEpoch = s.docEpoch := rfl
@[simp] theorem showWindow_caps (sel : OutSel) (n : Nat) (s : State) : (showWindow sel n s).caps = s.caps := rfl

/-! ### composeInto -/

@[simp] theorem composeInto_host (q : List Byte) (s : State) : (composeInto q s).host = s.host := rfl
@[simp] theorem composeInto_inMem (q : List Byte) (s : State) : (composeInto q s).inMem = s.inMem := rfl
@[simp] theorem composeInto_status (q : List Byte) (s : State) : (composeInto q s).status = s.status := rfl
@[simp] theorem composeInto_err (q : List Byte) (s : State) : (composeInto q s).err = s.err := rfl
@[simp] theorem composeInto_pos (q : List Byte) (s : State) : (composeInto q s).pos = s.pos := rfl
@[simp] theorem composeInto_endPos (q : List Byte) (s : State) : (composeInto q s).endPos = s.endPos := rfl
@[simp] theorem composeInto_trailCount (q : List Byte) (s : State) : (composeInto q s).trailCount = s.trailCount := rfl
@[simp] theorem composeInto_screen (q : List Byte) (s : State) : (composeInto q s).screen = s.screen := rfl
@[simp] theorem composeInto_gpal (q : List Byte) (s : State) : (composeInto q s).gpal = s.gpal := rfl
@[simp] theorem composeInto_repeatCount (q : List Byte) (s : State) : (composeInto q s).repeatCount = s.repeatCount := rfl
@[simp] theorem composeInto_frames (q : List Byte) (s : State) : (composeInto q s).frames = s.frames := rfl
@[simp] theorem composeInto_pendAlloc (q : List Byte) (s : State) : (composeInto q s).pendAlloc = s.pendAlloc := rfl
@[simp] theorem composeInto_pendRec (q : List Byte) (s : State) : (composeInto q s).pendRec = s.pendRec := rfl
@[simp] theorem composeInto_lzw (q : List Byte) (s : State) : (composeInto q s).lzw = s.lzw := rfl
@[simp] theorem composeInto_lzwRuns (q : List Byte) (s : State) : (composeInto q s).lzwRuns = s.lzwRuns := rfl
@[simp] theorem composeInto_endReason (q : List Byte) (s : State) : (composeInto q s).endReason = s.endReason := rfl
@[simp] theorem composeInto_engine (q : List Byte) (s : State) : (composeInto q s).engine = .idle := rfl
@[simp] theorem composeInto_hostq (q : List Byte) (s : State) : (composeInto q s).hostq = s.hostq := rfl
@[simp] theorem composeInto_docHidden (q : List Byte) (s : State) : (composeInto q s).docHidden = s.docHidden := rfl
@[simp] theorem composeInto_docEpoch (q : List Byte) (s : State) : (composeInto q s).docEpoch = s.docEpoch := rfl
@[simp] theorem composeInto_caps (q : List Byte) (s : State) : (composeInto q s).caps = s.caps := rfl

/-! ### startRun -/

@[simp] theorem startRun_host (c : Caller) (s : State) : (startRun c s).host = s.host := rfl
@[simp] theorem startRun_inMem (c : Caller) (s : State) : (startRun c s).inMem = s.inMem := rfl
@[simp] theorem startRun_status (c : Caller) (s : State) : (startRun c s).status = s.status := rfl
@[simp] theorem startRun_err (c : Caller) (s : State) : (startRun c s).err = s.err := rfl
@[simp] theorem startRun_pos (c : Caller) (s : State) : (startRun c s).pos = s.pos := rfl
@[simp] theorem startRun_endPos (c : Caller) (s : State) : (startRun c s).endPos = s.endPos := rfl
@[simp] theorem startRun_trailCount (c : Caller) (s : State) : (startRun c s).trailCount = s.trailCount := rfl
@[simp] theorem startRun_screen (c : Caller) (s : State) : (startRun c s).screen = s.screen := rfl
@[simp] theorem startRun_gpal (c : Caller) (s : State) : (startRun c s).gpal = s.gpal := rfl
@[simp] theorem startRun_repeatCount (c : Caller) (s : State) : (startRun c s).repeatCount = s.repeatCount := rfl
@[simp] theorem startRun_frames (c : Caller) (s : State) : (startRun c s).frames = s.frames := rfl
@[simp] theorem startRun_pendAlloc (c : Caller) (s : State) : (startRun c s).pendAlloc = s.pendAlloc := rfl
@[simp] theorem startRun_pendRec (c : Caller) (s : State) : (startRun c s).pendRec = s.pendRec := rfl
@[simp] theorem startRun_lzwRuns (c : Caller) (s : State) : (startRun c s).lzwRuns = s.lzwRuns + 1#32 := rfl
@[simp] theorem startRun_endReason (c : Caller) (s : State) : (startRun c s).endReason = s.endReason := rfl
@[simp] theorem startRun_result (c : Caller) (s : State) : (startRun c s).result = s.result := rfl
@[simp] theorem startRun_engine (c : Caller) (s : State) : (startRun c s).engine = .lzw c := rfl
@[simp] theorem startRun_hostq (c : Caller) (s : State) : (startRun c s).hostq = s.hostq := rfl
@[simp] theorem startRun_docHidden (c : Caller) (s : State) : (startRun c s).docHidden = s.docHidden := rfl
@[simp] theorem startRun_docEpoch (c : Caller) (s : State) : (startRun c s).docEpoch = s.docEpoch := rfl
@[simp] theorem startRun_caps (c : Caller) (s : State) : (startRun c s).caps = s.caps := rfl

/-! ### advanceCode -/

@[simp] theorem advanceCode_host (s : State) : (advanceCode s).host = s.host := rfl
@[simp] theorem advanceCode_inMem (s : State) : (advanceCode s).inMem = s.inMem := rfl
@[simp] theorem advanceCode_status (s : State) : (advanceCode s).status = s.status := rfl
@[simp] theorem advanceCode_err (s : State) : (advanceCode s).err = s.err := rfl
@[simp] theorem advanceCode_pos (s : State) : (advanceCode s).pos = s.pos := rfl
@[simp] theorem advanceCode_endPos (s : State) : (advanceCode s).endPos = s.endPos := rfl
@[simp] theorem advanceCode_trailCount (s : State) : (advanceCode s).trailCount = s.trailCount := rfl
@[simp] theorem advanceCode_screen (s : State) : (advanceCode s).screen = s.screen := rfl
@[simp] theorem advanceCode_gpal (s : State) : (advanceCode s).gpal = s.gpal := rfl
@[simp] theorem advanceCode_repeatCount (s : State) : (advanceCode s).repeatCount = s.repeatCount := rfl
@[simp] theorem advanceCode_frames (s : State) : (advanceCode s).frames = s.frames := rfl
@[simp] theorem advanceCode_pendAlloc (s : State) : (advanceCode s).pendAlloc = s.pendAlloc := rfl
@[simp] theorem advanceCode_pendRec (s : State) : (advanceCode s).pendRec = s.pendRec := rfl
@[simp] theorem advanceCode_lzwRuns (s : State) : (advanceCode s).lzwRuns = s.lzwRuns := rfl
@[simp] theorem advanceCode_endReason (s : State) : (advanceCode s).endReason = s.endReason := rfl
@[simp] theorem advanceCode_result (s : State) : (advanceCode s).result = s.result := rfl
@[simp] theorem advanceCode_engine (s : State) : (advanceCode s).engine = s.engine := rfl
@[simp] theorem advanceCode_hostq (s : State) : (advanceCode s).hostq = s.hostq := rfl
@[simp] theorem advanceCode_docHidden (s : State) : (advanceCode s).docHidden = s.docHidden := rfl
@[simp] theorem advanceCode_docEpoch (s : State) : (advanceCode s).docEpoch = s.docEpoch := rfl
@[simp] theorem advanceCode_caps (s : State) : (advanceCode s).caps = s.caps := rfl

/-! ### preAllocate -/

@[simp] theorem preAllocate_host (s : State) : (preAllocate s).host = s.host := by
  unfold preAllocate; split <;> rfl
@[simp] theorem preAllocate_inMem (s : State) : (preAllocate s).inMem = s.inMem := by
  unfold preAllocate; split <;> rfl
@[simp] theorem preAllocate_status (s : State) : (preAllocate s).status = s.status := by
  unfold preAllocate; split <;> rfl
@[simp] theorem preAllocate_err (s : State) : (preAllocate s).err = s.err := by
  unfold preAllocate; split <;> rfl
@[simp] theorem preAllocate_pos (s : State) : (preAllocate s).pos = s.pos := by
  unfold preAllocate; split <;> rfl
@[simp] theorem preAllocate_endPos (s : State) : (preAllocate s).endPos = s.endPos := by
  unfold preAllocate; split <;> rfl
@[simp] theorem preAllocate_trailCount (s : State) : (preAllocate s).trailCount = s.trailCount := by
  unfold preAllocate; split <;> rfl
@[simp] theorem preAllocate_screen (s : State) : (preAllocate s).screen = s.screen := by
  unfold preAllocate; split <;> rfl
@[simp] theorem preAllocate_gpal (s : State) : (preAllocate s).gpal = s.gpal := by
  unfold preAllocate; split <;> rfl
@[simp] theorem preAllocate_repeatCount (s : State) : (preAllocate s).repeatCount = s.repeatCount := by
  unfold preAllocate; split <;> rfl
@[simp] theorem preAllocate_frames (s : State) : (preAllocate s).frames = s.frames := by
  unfold preAllocate; split <;> rfl
@[simp] theorem preAllocate_lzw (s : State) : (preAllocate s).lzw = s.lzw := by
  unfold preAllocate; split <;> rfl
@[simp] theorem preAllocate_lzwRuns (s : State) : (preAllocate s).lzwRuns = s.lzwRuns := by
  unfold preAllocate; split <;> rfl
@[simp] theorem preAllocate_endReason (s : State) : (preAllocate s).endReason = s.endReason := by
  unfold preAllocate; split <;> rfl
@[simp] theorem preAllocate_result (s : State) : (preAllocate s).result = s.result := by
  unfold preAllocate; split <;> rfl
@[simp] theorem preAllocate_engine (s : State) : (preAllocate s).engine = s.engine := by
  unfold preAllocate; split <;> rfl
@[simp] theorem preAllocate_hostq (s : State) : (preAllocate s).hostq = s.hostq := by
  unfold preAllocate; split <;> rfl
@[simp] theorem preAllocate_docHidden (s : State) : (preAllocate s).docHidden = s.docHidden := by
  unfold preAllocate; split <;> rfl
@[simp] theorem preAllocate_docEpoch (s : State) : (preAllocate s).docEpoch = s.docEpoch := by
  unfold preAllocate; split <;> rfl
@[simp] theorem preAllocate_caps (s : State) : (preAllocate s).caps = s.caps := by
  unfold preAllocate; split <;> rfl

@[simp] theorem preAllocate_pendAlloc (s : State) : (preAllocate s).pendAlloc = true := by
  unfold preAllocate; split <;> simp_all

/-- A record already allocated by a Graphic Control extension is kept (R170). -/
theorem preAllocate_of_alloc (s : State) (h : s.pendAlloc = true) : preAllocate s = s := by
  simp [preAllocate, h]

end Sys2Proof.Machine
end

