-- ==== Sys2Proof/Laws/Frame.lean ====
section
/-! SUPPORT. The laws of the frame table and of the per-frame stores: the current frame after a write to it,
the length of a deinterlaced sequence, the capacities. -/

namespace Sys2Proof.Machine

/-! ### The current frame -/

/-- An addressable frame is one of the table's (R31). -/
theorem curFrame_mem {s : State} (h : s.host.argFrame < s.frames.length) : curFrame s ∈ s.frames := by
  simp [curFrame, List.getElem?_eq_getElem h]

/-- A write to the current frame is what it reads as afterwards. -/
theorem curFrame_modCur {s : State} (f : Frame → Frame) (h : s.host.argFrame < s.frames.length) :
    curFrame (modCur f s) = f (curFrame s) := by
  simp [curFrame, modCur, List.getElem?_eq_getElem h]

/-- A write to the current frame leaves every other frame alone (R72, R135). -/
theorem modCur_frame_ne {s : State} (f : Frame → Frame) {j : Nat} (h : j ≠ s.host.argFrame) :
    (modCur f s).frames[j]? = s.frames[j]? := by
  rw [modCur_frames, List.getElem?_modify]
  simp [Ne.symm h]

/-- What holds of every frame holds of every frame after a write that keeps it. -/
theorem mem_modCur {s : State} {f : Frame → Frame} {P : Frame → Prop} (hall : ∀ g ∈ s.frames, P g)
    (hf : s.host.argFrame < s.frames.length → P (f (curFrame s))) : ∀ g ∈ (modCur f s).frames, P g := by
  intro g hg
  rw [modCur_frames] at hg
  obtain ⟨i, hi, rfl⟩ := List.mem_iff_getElem.1 hg
  rw [List.getElem_modify]
  split
  · rename_i h
    have hi' : s.host.argFrame < s.frames.length := by simp at hi; omega
    have := hf hi'
    simp only [curFrame, List.getElem?_eq_getElem hi', Option.getD_some] at this
    subst h
    exact this
  · exact hall _ (List.getElem_mem _)

/-! ### The deinterlacer's buffer -/

/-- A write inside a buffer keeps its length. -/
theorem writeAt_length {out : List Byte} {i : Nat} {vals : List Byte} (h : i + vals.length ≤ out.length) :
    (writeAt out i vals).length = out.length := by
  simp only [writeAt, List.length_append, List.length_take, List.length_drop]
  omega

/-- Rows below the height are placed inside the buffer (R282). -/
theorem placeRows_length (rd : Nat → Byte) (w h : Nat) (rows : List Nat) (src : Nat) (out : List Byte)
    (hr : ∀ r ∈ rows, r < h) (ho : out.length = w * h) :
    (placeRows rd w rows src out).length = w * h := by
  induction rows generalizing src out with
  | nil => exact ho
  | cons r rs ih =>
    simp only [placeRows]
    refine ih _ _ (fun x hx => hr x (List.mem_cons_of_mem _ hx)) ?_
    rw [writeAt_length]
    · exact ho
    · have : r < h := hr r List.mem_cons_self
      simp only [sourceRow, List.length_map, List.length_range, ho]
      calc r * w + w = (r + 1) * w := by ring
        _ ≤ h * w := Nat.mul_le_mul_right _ this
        _ = w * h := Nat.mul_comm _ _

/-- A pass takes only rows below the height (R282). -/
theorem passRows_lt (stride h n r : Nat) : ∀ x ∈ passRows stride h n r, x < h := by
  induction n generalizing r with
  | zero => simp [passRows]
  | succ n ih =>
    simp only [passRows]
    split
    · rename_i hr
      intro x hx
      rcases List.mem_cons.1 hx with rfl | hx
      · exact hr
      · exact ih _ x hx
    · simp

/-- The transmitted rows are rows of the frame (R282). -/
theorem rowOrder_lt (h : Nat) : ∀ r ∈ rowOrder h, r < h := by
  intro r hr
  simp only [rowOrder, List.mem_flatMap] at hr
  obtain ⟨p, _, hr⟩ := hr
  exact passRows_lt _ _ _ _ r hr

/-- A deinterlaced sequence has `WIDTH*HEIGHT` elements (R280). -/
theorem deinterlaced_length (s : State) (d : List Byte) : (deinterlaced s d).length = npix s := by
  unfold deinterlaced deinterlaceRows npix Frame.npix
  exact placeRows_length _ _ _ _ _ _ (rowOrder_lt _) (by simp)

/-! ### Capacities (R6): ample ones refuse nothing -/

@[simp] theorem fits_none (n : Nat) : Config.fits none n = true := rfl

/-- Two 16-bit fields multiply to at most 65535 * 65535 (R320). -/
theorem npix_le (s : State) : npix s ≤ 4294836225 := by
  unfold npix Frame.npix
  have h1 := (curFrame s).width.isLt
  have h2 := (curFrame s).height.isLt
  calc _ ≤ 65535 * 65535 := Nat.mul_le_mul (by omega) (by omega)
    _ = 4294836225 := by norm_num

/-- A capacity that takes an amount takes every smaller one. -/
theorem fits_mono {cap : Option Nat} {m n : Nat} (h : Config.fits cap n = true) (hm : m ≤ n) :
    Config.fits cap m = true := by
  cases cap with
  | none => rfl
  | some c =>
    simp only [Config.fits, decide_eq_true_eq] at h ⊢
    exact Nat.le_trans hm h

/-- Every frame fits ample capacities (R6). -/
theorem fits_npix {s : State} (h : s.caps.Ample) : Config.fits s.caps.pix (npix s) = true :=
  fits_mono h.pix (npix_le s)

/-- The defaults of R6 are ample. -/
theorem defaults_ample : Capacities.Ample Config.defaults := ⟨rfl, rfl, rfl, rfl, by decide⟩

/-- What a per-frame command does with an addressable frame that fits `PIX_CAPACITY` (R132, R221, R222). -/
theorem fillDecoded_eq {s : State} (c : Caller) (h : Config.fits s.caps.pix (npix s) = true) :
    fillDecoded c s =
      match (curFrame s).dec with
      | some _ => .next (finishCommand c s)
      | none => if (curFrame s).rawLen = 0 then .next (finishCommand c (setDec [0#8] s)) else .next (startRun c s) := by
  unfold fillDecoded
  rw [h]
  cases (curFrame s).dec <;> simp

/-- A per-frame command that fills no slot needs no capacity (R132 to R134). -/
theorem fillDecoded_full {s : State} {c : Caller} (h : fillsSlot c (curFrame s) = false) :
    fillDecoded c s = .next (finishCommand c s) := by
  unfold fillDecoded
  rw [h]
  cases hd : (curFrame s).dec with
  | some d => rfl
  | none => simp [fillsSlot, hd] at h

/-! ### The end of a per-frame command -/

/-- The deinterlace fill writes the frame table only (R133). -/
theorem fillDei_rest (s : State) : fillDei s = { s with frames := (fillDei s).frames } := by
  unfold fillDei
  split <;> rfl

/-- The fold writes the frame table only (R283). -/
theorem foldDei_rest (s : State) : foldDei s = { s with frames := (foldDei s).frames } := rfl

/-- A per-frame command, once the frame is decoded, writes the frame table and the result window, and ends (R132 to
R134, R326). -/
theorem finishCommand_rest (c : Caller) (s : State) :
    finishCommand c s =
      { s with frames := (finishCommand c s).frames, result := (finishCommand c s).result, engine := .idle } := by
  cases c with
  | decode => rfl
  | deinterlace =>
    simp only [finishCommand, finishDeinterlace]
    rw [fillDei_rest s]
    split
    · rfl
    · rfl
    · split
      · rw [foldDei_rest]
        rfl
      · rfl
  | compose =>
    simp only [finishCommand, finishCompose]
    split
    · rw [fillDei_rest s]
      rfl
    · rfl

/-! ### Shared checks -/

/-- The common checks of the per-frame commands let an addressable frame of a document through (R140,
R141). -/
theorem checkFrame_eq_none (s : State) :
    checkFrame s = none ↔ s.status.docValid = true ∧ s.host.argFrame < s.frames.length := by
  unfold checkFrame
  rcases h : s.status.docValid with _ | _
  · simp
  · simp only [Bool.true_eq_false, if_false, true_and]
    split <;> simp_all

/-- Padding reaches `NPIX` exactly (R237). -/
theorem padOut_length {n : Nat} {out : List Byte} (h : out.length ≤ n) : (padOut n out).length = n := by
  simp only [padOut, List.length_append, List.length_replicate]
  omega

end Sys2Proof.Machine
end

