-- ==== Sys2Proof/Laws/Memory.lean ====
section
/-! SUPPORT. The laws of the sparse memories: a read after a write, and that every memory operation keeps
the canonical form. -/

namespace Sys2Proof.Machine

/-- A read at the written key gives the written value. -/
@[simp] theorem sparseGet_set_self {α : Type} (m : List (Nat × α)) (a : Nat) (x : α) :
    sparseGet (sparseSet m a x) a = some x := by
  induction m with
  | nil => simp [sparseSet, sparseGet]
  | cons c m ih =>
    obtain ⟨k, v⟩ := c
    simp only [sparseSet]
    split
    · simp [sparseGet]
    · split
      · simp [sparseGet]
      · rename_i h1 h2
        simp [sparseGet, h2, ih]

/-- A key that no entry has is not listed. -/
theorem sparseGet_eq_none {α : Type} {m : List (Nat × α)} {a : Nat} (h : ∀ p ∈ m, a ≠ p.1) : sparseGet m a = none := by
  induction m with
  | nil => rfl
  | cons p m ih =>
    obtain ⟨k, v⟩ := p
    simp only [sparseGet]
    rw [if_neg (h _ List.mem_cons_self)]
    exact ih fun q hq => h q (List.mem_cons_of_mem _ hq)

/-- A read at another key is not changed by a write. -/
theorem sparseGet_set_ne {α : Type} (m : List (Nat × α)) {a b : Nat} (x : α) (h : b ≠ a) :
    sparseGet (sparseSet m a x) b = sparseGet m b := by
  induction m with
  | nil => simp [sparseSet, sparseGet, h]
  | cons c m ih =>
    obtain ⟨k, v⟩ := c
    simp only [sparseSet]
    split
    · simp [sparseGet, h]
    · split
      · rename_i h1 h2
        subst h2
        simp [sparseGet, h]
      · simp only [sparseGet, ih]

/-- The canonical form of a list with a head: every later key is above it. -/
theorem sparseWf_cons {α : Type} (k : Nat) (v : α) (m : List (Nat × α)) :
    sparseWf ((k, v) :: m) = true ↔ (∀ c ∈ m, k < c.1) ∧ sparseWf m = true := by
  induction m generalizing k v with
  | nil => simp [sparseWf]
  | cons c m ih =>
    obtain ⟨k', v'⟩ := c
    have ih' := ih k' v'
    simp only [sparseWf, Bool.and_eq_true, decide_eq_true_eq, List.mem_cons, forall_eq_or_imp]
    constructor
    · rintro ⟨hk, hm⟩
      exact ⟨⟨hk, fun c hc => Nat.lt_trans hk ((ih'.1 hm).1 c hc)⟩, hm⟩
    · rintro ⟨⟨hk, _⟩, hm⟩
      exact ⟨hk, hm⟩

/-- The keys after a write are the old ones and the written one. -/
theorem mem_sparseSet {α : Type} (m : List (Nat × α)) (a : Nat) (x : α) (c : Nat × α)
    (h : c ∈ sparseSet m a x) : c.1 = a ∨ c ∈ m := by
  induction m with
  | nil => simp [sparseSet] at h; simp [h]
  | cons d m ih =>
    obtain ⟨k, v⟩ := d
    simp only [sparseSet] at h
    split at h
    · rcases List.mem_cons.1 h with rfl | h
      · exact .inl rfl
      · exact .inr h
    · split at h
      · rcases List.mem_cons.1 h with rfl | h
        · exact .inl rfl
        · exact .inr (List.mem_cons_of_mem _ h)
      · rcases List.mem_cons.1 h with rfl | h
        · exact .inr List.mem_cons_self
        · exact (ih h).imp_right (List.mem_cons_of_mem _)

/-- A write keeps the canonical form. -/
theorem sparseWf_set {α : Type} (m : List (Nat × α)) (a : Nat) (x : α) (h : sparseWf m = true) :
    sparseWf (sparseSet m a x) = true := by
  induction m with
  | nil => simp [sparseSet, sparseWf]
  | cons c m ih =>
    obtain ⟨k, v⟩ := c
    obtain ⟨hk, hm⟩ := (sparseWf_cons k v m).1 h
    simp only [sparseSet]
    split
    · rename_i hlt
      refine (sparseWf_cons _ _ _).2 ⟨fun c hc => ?_, h⟩
      rcases List.mem_cons.1 hc with rfl | hc
      · exact hlt
      · exact Nat.lt_trans hlt (hk c hc)
    · split
      · rename_i heq
        subst heq
        exact (sparseWf_cons _ _ _).2 ⟨hk, hm⟩
      · rename_i h1 h2
        refine (sparseWf_cons _ _ _).2 ⟨fun c hc => ?_, ih hm⟩
        rcases mem_sparseSet m a x c hc with rfl | hc
        · omega
        · exact hk c hc

/-- A list in canonical form followed by one in canonical form above it is in canonical form. -/
theorem sparseWf_append {α : Type} (m n : List (Nat × α)) (hm : sparseWf m = true) (hn : sparseWf n = true)
    (h : ∀ c ∈ m, ∀ d ∈ n, c.1 < d.1) : sparseWf (m ++ n) = true := by
  induction m with
  | nil => exact hn
  | cons c m ih =>
    obtain ⟨k, v⟩ := c
    obtain ⟨hk, hm'⟩ := (sparseWf_cons k v m).1 hm
    refine (sparseWf_cons _ _ _).2 ⟨fun d hd => ?_, ih hm' fun c hc => h c (List.mem_cons_of_mem _ hc)⟩
    rcases List.mem_append.1 hd with hd | hd
    · exact hk d hd
    · exact h _ List.mem_cons_self d hd

/-- Keeping some entries keeps the canonical form. -/
theorem sparseWf_filter {α : Type} (m : List (Nat × α)) (p : Nat × α → Bool) (h : sparseWf m = true) :
    sparseWf (m.filter p) = true := by
  induction m with
  | nil => rfl
  | cons c m ih =>
    obtain ⟨k, v⟩ := c
    obtain ⟨hk, hm⟩ := (sparseWf_cons k v m).1 h
    simp only [List.filter_cons]
    split
    · exact (sparseWf_cons _ _ _).2 ⟨fun d hd => hk d (List.mem_of_mem_filter hd), ih hm⟩
    · exact ih hm

/-- A write to `IN` keeps its canonical form. -/
theorem Memory.wf_write (m : Memory) (a : Nat) (b : Byte) (h : m.wf = true) : (m.write a b).wf = true :=
  sparseWf_set m a b h

/-- A read of `IN` after a write to the same offset. -/
@[simp] theorem Memory.read_write_self (m : Memory) (a : Nat) (b : Byte) : (m.write a b).read a = b := by
  simp [Memory.read, Memory.write]

/-- A read of `IN` after a write to another offset. -/
theorem Memory.read_write_ne (m : Memory) {a o : Nat} (b : Byte) (h : o ≠ a) :
    (m.write a b).read o = m.read o := by
  simp [Memory.read, Memory.write, sparseGet_set_ne m b h]

/-- A dictionary write keeps its canonical form. -/
theorem Dict.wf_write (d : Dict) (k : Nat) (e : DictEntry) (h : d.wf = true) : (d.write k e).wf = true :=
  sparseWf_set d k e h

/-- A run of cells at consecutive addresses is in canonical form. -/
theorem sparseWf_map_range {α : Type} (f : Nat → α) (a n : Nat) :
    sparseWf ((List.range n).map fun k => (a + k, f k)) = true := by
  induction n with
  | zero => rfl
  | succ n ih =>
    rw [List.range_succ, List.map_append]
    refine sparseWf_append _ _ ih (by simp [sparseWf]) ?_
    simp only [List.mem_map, List.mem_range, List.map_cons, List.map_nil, List.mem_singleton, forall_eq]
    rintro _ ⟨k, hk, rfl⟩
    omega

/-- Replacing a range of cells keeps the canonical form. -/
theorem Memory.wf_splice (m : Memory) (a n nbits w : Nat) (h : m.wf = true) :
    (m.splice a n (wordCells nbits w a n)).wf = true := by
  have hin : ∀ c ∈ wordCells nbits w a n, a ≤ c.1 ∧ c.1 < a + n := by
    simp only [wordCells, List.mem_map, List.mem_range]
    rintro _ ⟨k, hk, rfl⟩
    omega
  refine sparseWf_append _ _ (sparseWf_append _ _ (sparseWf_filter m _ h) (sparseWf_map_range _ a n) ?_)
    (sparseWf_filter m _ h) ?_
  · intro c hc d hd
    have h1 : c.1 < a := by simpa using List.of_mem_filter hc
    have h2 := hin d hd
    omega
  · intro c hc d hd
    have h2 : a + n ≤ d.1 := by simpa using List.of_mem_filter hd
    rcases List.mem_append.1 hc with hc | hc
    · have h1 : c.1 < a := by simpa using List.of_mem_filter hc
      omega
    · have h1 := hin c hc
      omega

/-- A block of consecutive keys reads as what it lists. -/
theorem sparseGet_map_range {α : Type} (f : Nat → α) (a n : Nat) {j : Nat} (h : j < n) :
    sparseGet ((List.range n).map fun k => (a + k, f k)) (a + j) = some (f j) := by
  induction n generalizing a j f with
  | zero => omega
  | succ n ih =>
    rw [List.range_succ_eq_map, List.map_cons, List.map_map]
    simp only [sparseGet]
    rcases j with _ | j
    · simp
    · rw [if_neg (by omega)]
      have := ih (fun k => f (k + 1)) (a + 1) (j := j) (by omega)
      rw [show a + 1 + j = a + (j + 1) by omega] at this
      rw [← this]
      congr 1
      apply List.map_congr_left
      intro k _
      simp only [Function.comp_apply]
      rw [show a + 1 + k = a + (k + 1) by omega]

/-- The memory after reset is in canonical form. -/
theorem State.reset_mem_wf : State.reset.inMem.wf = true := rfl

end Sys2Proof.Machine
end

