-- ==== Sys2Proof/Laws/Lzw.lean ====
section
/-! SUPPORT. The laws of the LZW sub-steps (42_lzw_decompressor R233 to R236, R241, R243): what a walk can
do, what a dictionary add does to the dictionary and the width, and what an emission writes. -/

namespace Sys2Proof.Machine

/-! ### Emission -/

/-- Emitting a stack appends as much of it as fits (R236). -/
theorem emitAll_eq (n : Nat) (st out : List Byte) :
    st.foldl (emit n) out = out ++ st.take (n - out.length) := by
  induction st generalizing out with
  | nil => simp
  | cons v st ih =>
    rw [List.foldl_cons, ih]
    by_cases h : out.length < n
    · have : n - out.length = (n - (out.length + 1)) + 1 := by omega
      simp [emit, h, this]
    · have : n - out.length = 0 := by omega
      simp [emit, h, this]

/-- An emission never goes beyond `NPIX` (R236). -/
theorem emitAll_length_le (n : Nat) (st out : List Byte) (h : out.length ≤ n) :
    (st.foldl (emit n) out).length ≤ n := by
  rw [emitAll_eq]
  simp only [List.length_append, List.length_take]
  omega

/-- What was emitted is old output or a popped pixel (R236). -/
theorem mem_emitAll {n : Nat} {st out : List Byte} {v : Byte} (h : v ∈ st.foldl (emit n) out) :
    v ∈ out ∨ v ∈ st := by
  rw [emitAll_eq] at h
  exact (List.mem_append.1 h).imp_right List.mem_of_mem_take

/-- The pixel of a root code is not above the code. -/
theorem rootPixel_le (c : Code) : (rootPixel c).toNat ≤ c.toNat := by
  simp only [rootPixel, BitVec.toNat_setWidth]
  exact Nat.mod_le _ _

/-! ### The walk -/

/-- A code a walk can start from: a root, or an entry of the dictionary (R241). -/
def CodeOk (clear avail : Nat) (c : Code) : Prop :=
  c.toNat < clear ∨ (clear + 2 ≤ c.toNat ∧ c.toNat < avail)

/-- One step of the walk (R233). -/
theorem walk_succ (d : Dict) (clear n : Nat) (c : Code) (st : List Byte) :
    walk d clear (n + 1) c st =
      if clear < c.toNat then walk d clear n (d.read c.toNat).pre ((d.read c.toNat).suffix :: st)
      else some (c, rootPixel c :: st) := rfl

/-- What is below on the stack does not matter to a walk (R233). -/
theorem walk_append (d : Dict) (clear n : Nat) (c : Code) (a b : List Byte) :
    walk d clear n c (a ++ b) = (walk d clear n c a).map fun r => (r.1, r.2 ++ b) := by
  induction n generalizing c a with
  | zero => rfl
  | succ n ih =>
    simp only [walk]
    split
    · exact ih _ (_ :: a)
    · rfl

/-- A walk that fits in some room fits in more, with the same result. -/
theorem walk_mono {d : Dict} {clear n m : Nat} {c : Code} {st : List Byte} {r : Code × List Byte}
    (h : walk d clear n c st = some r) (hm : n ≤ m) : walk d clear m c st = some r := by
  induction n generalizing m c st with
  | zero => simp [walk] at h
  | succ n ih =>
    obtain ⟨m, rfl⟩ : ∃ k, m = k + 1 := ⟨m - 1, by omega⟩
    simp only [walk] at h ⊢
    split
    · rename_i hc
      rw [if_pos hc] at h
      exact ih h (by omega)
    · rename_i hc
      rw [if_neg hc] at h
      exact h

/-- A walk that ends needs exactly as much room as it pushes: with less it does not end, with enough it gives the
same (R233, R6). -/
theorem walk_room {d : Dict} {clear n : Nat} {c : Code} {st : List Byte} {r : Code × List Byte}
    (h : walk d clear n c st = some r) :
    ∃ k, r.2.length = k + st.length ∧ ∀ m, walk d clear m c st = if k ≤ m then some r else none := by
  induction n generalizing c st with
  | zero => simp [walk] at h
  | succ n ih =>
    rw [walk_succ] at h
    split at h
    · rename_i hc
      obtain ⟨k, hk, hm⟩ := ih h
      refine ⟨k + 1, by simp only [List.length_cons] at hk; omega, fun m => ?_⟩
      cases m with
      | zero => simp [walk]
      | succ m => simp [walk_succ, hc, hm]
    · rename_i hc
      injection h with h
      subst h
      refine ⟨1, by simp; omega, fun m => ?_⟩
      cases m with
      | zero => simp [walk]
      | succ m => simp [walk_succ, hc]

/-- What a walk does in a dictionary of a run: it ends at a root, and pushes the string of the code, root
on top, at most `c - CLEAR` pixels for an entry (R233, R243). -/
theorem walk_ok {d : Dict} {clear avail : Nat} (hd : d.Ok clear avail) {n : Nat} {c : Code}
    (st : List Byte) (hc : CodeOk clear avail c) (hn : 1 ≤ n) (hroom : c.toNat - clear ≤ n) :
    ∃ root str, walk d clear n c st = some (root, str ++ st) ∧ root.toNat < clear ∧
      (∀ v ∈ str, v.toNat < clear) ∧ str.head? = some (rootPixel root) ∧
      str.length ≤ max 1 (c.toNat - clear) := by
  induction n generalizing c st with
  | zero => omega
  | succ n ih =>
    simp only [walk]
    rcases hc with hroot | ⟨hlo, hhi⟩
    · rw [if_neg (by omega)]
      refine ⟨c, [rootPixel c], rfl, hroot, ?_, rfl, by simp⟩
      simp only [List.mem_singleton, forall_eq]
      exact Nat.lt_of_le_of_lt (rootPixel_le c) hroot
    · obtain ⟨e, he, hlt, hpre, hsuf⟩ := hd c.toNat hlo hhi
      have hread : d.read c.toNat = e := by simp [Dict.read, he]
      rw [if_pos (by omega), hread]
      have hpok : CodeOk clear avail e.pre := hpre.imp_right fun h => ⟨h, by omega⟩
      obtain ⟨root, str, hw, hr, hv, hh, hl⟩ := ih (e.suffix :: st) hpok (by omega) (by omega)
      refine ⟨root, str ++ [e.suffix], by simp [hw], hr, ?_, ?_, ?_⟩
      · intro v hv'
        rcases List.mem_append.1 hv' with h | h
        · exact hv v h
        · simp only [List.mem_singleton] at h
          exact h ▸ hsuf
      · cases str with
        | nil => simp at hh
        | cons x xs => simpa using hh
      · simp only [List.length_append, List.length_singleton]
        omega

/-- A walk sees only the entries below the pointer: a dictionary that agrees there gives the same walk. -/
theorem walk_congr {d d' : Dict} {clear avail : Nat} (hd : d.Ok clear avail)
    (hdd : ∀ k, k < avail → sparseGet d' k = sparseGet d k) (n : Nat) {c : Code} (st : List Byte)
    (hc : CodeOk clear avail c) : walk d' clear n c st = walk d clear n c st := by
  induction n generalizing c st with
  | zero => rfl
  | succ n ih =>
    simp only [walk]
    rcases hc with hroot | ⟨hlo, hhi⟩
    · rw [if_neg (by omega), if_neg (by omega)]
    · obtain ⟨e, he, hlt, hpre, _⟩ := hd c.toNat hlo hhi
      have h1 : d.read c.toNat = e := by simp [Dict.read, he]
      have h2 : d'.read c.toNat = e := by simp [Dict.read, hdd _ hhi, he]
      rw [if_pos (by omega), if_pos (by omega), h1, h2]
      exact ih _ (hpre.imp_right fun h => ⟨h, by omega⟩)

/-! ### The dictionary add -/

/-- The fields a dictionary add leaves alone. -/
theorem addEntry_frame (p : Code) (v : Byte) (l : Lzw) :
    (addEntry p v l).clear = l.clear ∧ (addEntry p v l).eoi = l.eoi ∧ (addEntry p v l).prev = l.prev ∧
    (addEntry p v l).first = l.first ∧ (addEntry p v l).bitpos = l.bitpos ∧ (addEntry p v l).code = l.code ∧
    (addEntry p v l).out = l.out ∧ (addEntry p v l).stack = l.stack ∧ (addEntry p v l).ended = l.ended := by
  unfold addEntry growWidth
  split
  · split <;> exact ⟨rfl, rfl, rfl, rfl, rfl, rfl, rfl, rfl, rfl⟩
  · exact ⟨rfl, rfl, rfl, rfl, rfl, rfl, rfl, rfl, rfl⟩

/-- A dictionary add below the limit writes one entry and moves the pointer (R234). -/
theorem addEntry_dict (p : Code) (v : Byte) (l : Lzw) (h : l.avail < Config.maxCodes) :
    (addEntry p v l).dict = l.dict.write l.avail ⟨p, v⟩ ∧ (addEntry p v l).avail = l.avail + 1 := by
  unfold addEntry growWidth
  rw [if_pos h]
  split <;> exact ⟨rfl, rfl⟩

/-- A full dictionary is frozen (R234, R239). -/
theorem addEntry_full (p : Code) (v : Byte) (l : Lzw) (h : Config.maxCodes ≤ l.avail) : addEntry p v l = l := by
  unfold addEntry
  rw [if_neg (by omega)]

/-- The width after an add (R235). -/
theorem addEntry_cw (p : Code) (v : Byte) (l : Lzw) (h : l.avail < Config.maxCodes) :
    (addEntry p v l).cw = if l.avail + 1 = 2 ^ l.cw ∧ l.cw < Config.maxWidth then l.cw + 1 else l.cw := by
  unfold addEntry growWidth
  rw [if_pos h]
  split <;> rename_i hc <;> simp_all

/-- Everything the end of a data code does (R231, R232, R234 to R236). -/
theorem finishData_eq (n : Nat) (prev code root : Code) (st : List Byte) (l : Lzw) :
    finishData n prev code root st l = { l with
      out := l.out ++ st.take (n - l.out.length)
      stack := []
      first := rootPixel root
      prev := some code
      dict := if l.avail < Config.maxCodes then l.dict.write l.avail ⟨prev, rootPixel root⟩ else l.dict
      avail := if l.avail < Config.maxCodes then l.avail + 1 else l.avail
      cw := if l.avail < Config.maxCodes ∧ l.avail + 1 = 2 ^ l.cw ∧ l.cw < Config.maxWidth then l.cw + 1
            else l.cw } := by
  unfold finishData emitStack
  by_cases h : l.avail < Config.maxCodes
  · simp only [addEntry, growWidth, if_pos h, emitAll_eq]
    by_cases h2 : l.avail + 1 = 2 ^ l.cw ∧ l.cw < Config.maxWidth
    · simp [h2, h]
    · have h3 : ¬(l.avail < Config.maxCodes ∧ l.avail + 1 = 2 ^ l.cw ∧ l.cw < Config.maxWidth) := fun h' => h2 h'.2
      simp only [if_neg h2, if_neg h3]
  · simp only [addEntry, h, false_and, if_false, emitAll_eq]

/-! ### The string of a code -/

/-- A walk that ends pushes the string its code spells (R233). -/
theorem walk_spells {d : Dict} {clear avail n : Nat} {c root : Code} {str : List Byte} (hd : d.Ok clear avail)
    (hc : CodeOk clear avail c) (h : walk d clear n c [] = some (root, str)) : Spells d clear c str := by
  induction n generalizing c root str with
  | zero => simp [walk] at h
  | succ n ih =>
    simp only [walk] at h
    rcases hc with hr | ⟨hlo, hhi⟩
    · rw [if_neg (by omega)] at h
      simp only [Option.some.injEq, Prod.mk.injEq] at h
      obtain ⟨-, rfl⟩ := h
      have : rootPixel c = BitVec.ofNat 8 c.toNat := by apply BitVec.eq_of_toNat_eq; simp [rootPixel]
      exact this ▸ .root c hr
    · obtain ⟨e, he, hlt, hpre, -⟩ := hd c.toNat hlo hhi
      have hread : d.read c.toNat = e := by simp [Dict.read, he]
      rw [if_pos (by omega), hread, show [e.suffix] = [] ++ [e.suffix] from rfl, walk_append] at h
      rcases hw : walk d clear n e.pre [] with _ | ⟨r, s'⟩
      · simp [hw] at h
      · simp only [hw, Option.map_some, Option.some.injEq, Prod.mk.injEq] at h
        obtain ⟨-, rfl⟩ := h
        exact .entry c e s' (by omega) he (ih (hpre.imp_right fun h => ⟨h, by omega⟩) hw)

/-- A code spells at most one string (R233). -/
theorem Spells.unique {d : Dict} {clear : Nat} {c : Code} {a b : List Byte} (ha : Spells d clear c a)
    (hb : Spells d clear c b) : a = b := by
  induction ha generalizing b with
  | root c h =>
    cases hb with
    | root => rfl
    | entry _ e s h' => omega
  | entry c e s h he _ ih =>
    cases hb with
    | root h' => omega
    | entry _ e' s' h' he' hs' =>
      rw [he] at he'
      injection he' with he'
      subst he'
      rw [ih hs']

/-- An add changes no string of the codes below the pointer (R241). -/
theorem Spells.write {d : Dict} {clear avail : Nat} (hd : d.Ok clear avail) {c : Code} {str : List Byte}
    (e : DictEntry) (hc : CodeOk clear avail c) (h : Spells d clear c str) :
    Spells (d.write avail e) clear c str := by
  induction h with
  | root c h => exact .root c h
  | entry c e' s h he _ ih =>
    rcases hc with hc | hc
    · omega
    · obtain ⟨e2, he2, hlt, hpre, -⟩ := hd c.toNat hc.1 hc.2
      rw [he] at he2
      injection he2 with he2
      subst he2
      refine .entry c e' s h ?_ (ih (hpre.imp_right fun h => ⟨h, by omega⟩))
      rw [Dict.write, sparseGet_set_ne _ _ (by omega)]
      exact he

end Sys2Proof.Machine
end

