-- ==== Sys2Proof/Laws/PerInstr.lean ====
section
/-! SUPPORT. Laws made per instruction. `EncLength`: the number of bytes of an item's encoding is the length
30_encoding R90 gives it (up to the bytes its own rule reads: a chain and an image's later parts are items of
their own). -/

namespace Sys2Proof

/-- The length in bytes of an item or a command (R90, R101, R109); a code has no bytes of its own (R104). A
Graphic Control extension is written with at least the seven bytes its rule reads (D8). -/
def Laws.itemLength (i : Instr) : Nat :=
  match i with
  | .hdrSig _ => 6
  | .hdrLsd _ _ _ _ _ => 7
  | .gct es => 3 * es.length
  | .extGce len _ _ _ _ => max 7 (3 + len.toNat + 1)
  | .extApp _ _ => 14
  | .extAppNs _ _ _ _ => 19
  | .extAppX _ => 14
  | .extComment => 2
  | .extPtext => 2
  | .extUnknown _ => 2
  | .img _ _ _ _ _ => 10
  | .lct es => 3 * es.length
  | .mcs _ => 1
  | .imgData => 0
  | .subblock body => 1 + (body.getD []).length
  | .subblockEnd => 1
  | .trailer => 1
  | .blockUnknown _ => 1
  | .clear => 0
  | .eoi => 0
  | .badcode _ => 0
  | .dataFirst _ => 0
  | .data _ => 0
  | .dataKwkwk => 0
  | .parse => 1
  | .decode => 1
  | .deinterlace => 1
  | .compose => 1
  | .cmdIllegal _ => 1

/-- A palette of `n` entries takes `3n` bytes (R93). -/
theorem encPalette_length (es : List Rgb) : (encPalette es).length = 3 * es.length := by
  induction es with
  | nil => rfl
  | cons e es ih =>
    simp only [encPalette, List.flatMap_cons, List.length_append, List.length_cons, List.length_nil] at ih ⊢
    omega

/-- A well-formed instruction is encoded in the bytes its item takes. -/
def Laws.EncLength.Statement (i : Instr) : Prop :=
  i.wellFormed = true → (encodeBytes i).length = Laws.itemLength i

theorem Laws.EncLength.hdrSig (bytes) : Statement (.hdrSig bytes) := by
  intro h
  have h : bytes = Config.sig.map some := by simpa [Instr.wellFormed] using h
  subst h
  rfl
theorem Laws.EncLength.hdrLsd (w h pk bg a) : Statement (.hdrLsd w h pk bg a) := fun _ => rfl
theorem Laws.EncLength.gct (es) : Statement (.gct es) := fun _ => encPalette_length es
theorem Laws.EncLength.extGce (len pk d i t) : Statement (.extGce len pk d i t) := by
  intro _
  simp only [encodeBytes, Laws.itemLength, encHalf]
  split <;> simp <;> omega
theorem Laws.EncLength.extApp (len ident) : Statement (.extApp len ident) := by
  intro h
  have h : ident.length = 11 := by
    simp only [Instr.wellFormed, Bool.and_eq_true, beq_iff_eq] at h
    exact h.1.2
  simp [encodeBytes, Laws.itemLength, h]
theorem Laws.EncLength.extAppNs (s i l t) : Statement (.extAppNs s i l t) := fun _ => rfl
theorem Laws.EncLength.extAppX (ident) : Statement (.extAppX ident) := by
  intro h
  have h : ident.length = 11 := by
    simp only [Instr.wellFormed, Bool.and_eq_true, beq_iff_eq] at h
    exact h.1.1
  simp [encodeBytes, Laws.itemLength, h]
theorem Laws.EncLength.extComment : Statement .extComment := fun _ => rfl
theorem Laws.EncLength.extPtext : Statement .extPtext := fun _ => rfl
theorem Laws.EncLength.extUnknown (l) : Statement (.extUnknown l) := fun _ => rfl
theorem Laws.EncLength.img (l t w h pk) : Statement (.img l t w h pk) := fun _ => rfl
theorem Laws.EncLength.lct (es) : Statement (.lct es) := fun _ => encPalette_length es
theorem Laws.EncLength.mcs (m) : Statement (.mcs m) := fun _ => rfl
theorem Laws.EncLength.imgData : Statement .imgData := fun _ => rfl
theorem Laws.EncLength.subblock (b) : Statement (.subblock b) := by
  intro h
  cases b with
  | none => simp [Instr.wellFormed] at h
  | some d => simp [encodeBytes, Laws.itemLength, Nat.add_comm]
theorem Laws.EncLength.subblockEnd : Statement .subblockEnd := fun _ => rfl
theorem Laws.EncLength.trailer : Statement .trailer := fun _ => rfl
theorem Laws.EncLength.blockUnknown (t) : Statement (.blockUnknown t) := fun _ => rfl
theorem Laws.EncLength.clear : Statement .clear := fun _ => rfl
theorem Laws.EncLength.eoi : Statement .eoi := fun _ => rfl
theorem Laws.EncLength.badcode (c) : Statement (.badcode c) := fun _ => rfl
theorem Laws.EncLength.dataFirst (c) : Statement (.dataFirst c) := fun _ => rfl
theorem Laws.EncLength.data (c) : Statement (.data c) := fun _ => rfl
theorem Laws.EncLength.dataKwkwk : Statement .dataKwkwk := fun _ => rfl
theorem Laws.EncLength.parse : Statement .parse := fun _ => rfl
theorem Laws.EncLength.decode : Statement .decode := fun _ => rfl
theorem Laws.EncLength.deinterlace : Statement .deinterlace := fun _ => rfl
theorem Laws.EncLength.compose : Statement .compose := fun _ => rfl
theorem Laws.EncLength.cmdIllegal (c) : Statement (.cmdIllegal c) := fun _ => rfl

end Sys2Proof
end

