-- ==== Sys2Proof/Laws/Run.lean ====
section
/-! SUPPORT. What the shared steps of an LZW run do to its invariants (42_lzw_decompressor R241): the start
of a run, a change of the fields no invariant but the bit offset is about, the end of a data code. -/

namespace Sys2Proof.Machine

/-- The invariants do not depend on `CODE`, on the loop flag, or, within the payload, on `BITPOS`. -/
theorem Lzw.Ok.withPos {mcs rawLen n : Nat} {l : Lzw} (h : l.Ok mcs rawLen n) (code : Code) (bitpos : Nat)
    (ended : Bool) (hb : bitpos ≤ 8 * rawLen) :
    Lzw.Ok mcs rawLen n { l with code := code, bitpos := bitpos, ended := ended } :=
  ⟨h.clear, h.eoi, h.availLo, h.availHi, h.cwLo, h.cwHi, h.widthLo, h.widthHi, h.start, h.prev, h.dict,
    h.dictWf, h.stack, hb, h.outLen, h.outRange⟩

/-- A minimum code size of 2 to 8 gives a clear code of 4 to 256 (R38). -/
theorem clear_range {m : Nat} (h2 : 2 ≤ m) (h8 : m ≤ 8) : 4 ≤ 2 ^ m ∧ 2 ^ m ≤ 256 :=
  ⟨Nat.pow_le_pow_right (n := 2) (by omega) h2, Nat.pow_le_pow_right (n := 2) (by omega) h8⟩

/-- A run starts with its invariants (R222, R241). -/
theorem startRun_ok {s : State} (c : Caller) (hm : (curFrame s).McsOk) (hwf : s.lzw.dict.wf = true) :
    (startRun c s).lzw.Ok (curFrame s).mcs.toNat (curFrame s).rawLen (npix s) := by
  obtain ⟨h2, h8⟩ := hm
  obtain ⟨hp, hp8⟩ := clear_range h2 h8
  have hs : 2 ^ ((curFrame s).mcs.toNat + 1) = 2 * 2 ^ (curFrame s).mcs.toNat := by rw [Nat.pow_succ]; ring
  constructor
  all_goals simp only [startRun, resetCodes]
  · exact Nat.le_refl _
  · show _ ≤ 4096; omega
  · exact Nat.le_refl _
  · show _ ≤ 12; omega
  · simp
  · intro _; rw [hs]; omega
  · intro _; trivial
  · intro p hp; cases hp
  · intro k h1 h2; omega
  · exact hwf
  · simp
  · simp
  · simp

/-- The end of a data code keeps the invariants: the string `str` of the code is on the stack, `root` its
root; a code that is the entry being added has the string of `PREV` (R231, R232, R234, R235, R241). -/
theorem finishData_ok {mcs rawLen npix : Nat} {l : Lzw} (hl : l.Ok mcs rawLen npix) {p : Code}
    (hp : l.prev = some p) {code root : Code} {str : List Byte}
    (hcode : CodeOk l.clear l.avail code ∨ (code.toNat = l.avail ∧ l.avail < Config.maxCodes))
    (hroot : root.toNat < l.clear) (hstr : ∀ v ∈ str, v.toNat < l.clear)
    (hwalk : CodeOk l.clear l.avail code → ∃ s', walk l.dict l.clear Config.maxCodes code [] = some (root, s'))
    (hkw : code.toNat = l.avail → ∃ s', walk l.dict l.clear Config.maxCodes p [] = some (root, s')) :
    (finishData npix p code root str l).Ok mcs rawLen npix := by
  obtain ⟨hpa, hpc, hpe, _⟩ := hl.prev p hp
  have heoi := hl.eoi
  have hlo := hl.availLo
  have hhi := hl.availHi
  have hpok : CodeOk l.clear l.avail p := by unfold CodeOk; omega
  set l1 : Lzw := { l with stack := str, first := rootPixel root } with hl1
  obtain ⟨hcl, heo, hpr, hfi, hbp, hcd, hou, hst, hen⟩ := addEntry_frame p (rootPixel root) l1
  have hrp : (rootPixel root).toNat < l.clear := Nat.lt_of_le_of_lt (rootPixel_le root) hroot
  have key : (addEntry p (rootPixel root) l1).dict.Ok l.clear (addEntry p (rootPixel root) l1).avail ∧
      (addEntry p (rootPixel root) l1).dict.wf = true ∧
      l.avail ≤ (addEntry p (rootPixel root) l1).avail ∧
      (l.avail < Config.maxCodes → (addEntry p (rootPixel root) l1).avail = l.avail + 1) ∧
      (addEntry p (rootPixel root) l1).avail ≤ Config.maxCodes ∧
      (∀ k, k < l.avail → sparseGet (addEntry p (rootPixel root) l1).dict k = sparseGet l.dict k) ∧
      (l.avail < Config.maxCodes → sparseGet (addEntry p (rootPixel root) l1).dict l.avail = some ⟨p, rootPixel root⟩) ∧
      l.cw ≤ (addEntry p (rootPixel root) l1).cw ∧ (addEntry p (rootPixel root) l1).cw ≤ Config.maxWidth ∧
      2 ^ ((addEntry p (rootPixel root) l1).cw - 1) ≤ (addEntry p (rootPixel root) l1).avail ∧
      ((addEntry p (rootPixel root) l1).cw < Config.maxWidth →
        (addEntry p (rootPixel root) l1).avail < 2 ^ (addEntry p (rootPixel root) l1).cw) := by
    by_cases h : l.avail < Config.maxCodes
    · obtain ⟨hd, ha⟩ := addEntry_dict p (rootPixel root) l1 h
      have hc := addEntry_cw p (rootPixel root) l1 h
      rw [hd, ha]
      refine ⟨?_, ?_, ?_, fun _ => rfl, ?_, ?_, ?_, ?_, ?_, ?_, ?_⟩
      · intro k hk1 hk2
        by_cases hk : k = l.avail
        · subst hk
          exact ⟨_, sparseGet_set_self _ _ _, hpa, hpok.imp_right (·.1), hrp⟩
        · have : k < l.avail := by have : l1.avail = l.avail := rfl; omega
          obtain ⟨e, he⟩ := hl.dict k hk1 this
          exact ⟨e, by rw [← he.1]; exact sparseGet_set_ne _ _ hk, he.2⟩
      · exact Dict.wf_write _ _ _ hl.dictWf
      · exact Nat.le_succ _
      · exact h
      · intro k hk
        exact sparseGet_set_ne _ _ (by have : l1.avail = l.avail := rfl; omega)
      · intro _; exact sparseGet_set_self _ _ _
      · rw [hc]; split <;> simp [hl1]
      · rw [hc]; have := hl.cwHi
        split
        · rename_i h'; exact h'.2
        · exact this
      · rw [hc]
        have := hl.widthLo
        split
        · rename_i h'; simp only [Nat.add_sub_cancel]; exact Nat.le_of_eq h'.1.symm
        · exact Nat.le_trans this (Nat.le_succ _)
      · rw [hc]
        have h1 := hl.widthHi
        split
        · rename_i h'
          intro _
          rw [h'.1]
          exact Nat.pow_lt_pow_right (by omega) (by omega)
        · rename_i h'
          intro h2
          have h3 := h1 h2
          have : l1.cw = l.cw := rfl
          have : l1.avail = l.avail := rfl
          rcases Nat.lt_or_ge (l1.avail + 1) (2 ^ l1.cw) with h4 | h4
          · exact h4
          · exact absurd ⟨Nat.le_antisymm h3 h4, h2⟩ h'
    · rw [addEntry_full p _ l1 (by have : l1.avail = l.avail := rfl; omega)]
      exact ⟨hl.dict, hl.dictWf, Nat.le_refl _, fun h' => absurd h' h, hhi, fun _ _ => rfl, fun h' => absurd h' h,
        Nat.le_refl _, hl.cwHi, hl.widthLo, hl.widthHi⟩
  obtain ⟨kd, kw, ka, ka1, ka2, kg, kg1, kc, kc2, kwl, kwh⟩ := key
  constructor
  · exact hcl.trans hl.clear
  · show (addEntry p (rootPixel root) l1).eoi = (addEntry p (rootPixel root) l1).clear + 1
    rw [heo, hcl]; exact heoi
  · show (addEntry p (rootPixel root) l1).clear + 2 ≤ (addEntry p (rootPixel root) l1).avail
    rw [hcl]; exact Nat.le_trans hlo ka
  · exact ka2
  · exact Nat.le_trans hl.cwLo kc
  · exact kc2
  · exact kwl
  · exact kwh
  · intro h; cases h
  · intro q hq
    have hq : q = code := by injection hq with h; exact h.symm
    subst hq
    show q.toNat < (addEntry p (rootPixel root) l1).avail ∧ q.toNat ≠ (addEntry p (rootPixel root) l1).clear ∧
      q.toNat ≠ (addEntry p (rootPixel root) l1).eoi ∧ ∃ r s', walk (addEntry p (rootPixel root) l1).dict
        (addEntry p (rootPixel root) l1).clear Config.maxCodes q [] = some (r, s') ∧
        r.toNat < (addEntry p (rootPixel root) l1).clear ∧ (addEntry p (rootPixel root) l1).first = rootPixel r
    rw [hcl, heo, hfi]
    show _ < _ ∧ q.toNat ≠ l.clear ∧ q.toNat ≠ l.eoi ∧ _
    rcases hcode with hc | ⟨hc, hav⟩
    · refine ⟨by unfold CodeOk at hc; omega, by unfold CodeOk at hc; omega, by unfold CodeOk at hc; omega, ?_⟩
      obtain ⟨s', hs⟩ := hwalk hc
      refine ⟨root, s', ?_, hroot, rfl⟩
      exact (walk_congr hl.dict kg _ [] hc).trans hs
    · have := ka1 hav
      refine ⟨by omega, by omega, by omega, ?_⟩
      obtain ⟨s', hs⟩ := hkw hc
      have hread : (addEntry p (rootPixel root) l1).dict.read q.toNat = ⟨p, rootPixel root⟩ := by
        simp [Dict.read, hc, kg1 hav]
      obtain ⟨r2, s2, hw2, hr2, -⟩ := walk_ok hl.dict (n := 4095) [rootPixel root] hpok (by omega)
        (by have : Config.maxCodes = 4096 := rfl; omega)
      have hroot2 : r2 = root := by
        have h1 := walk_mono hw2 (show 4095 ≤ Config.maxCodes by decide)
        rw [show ([rootPixel root] : List Byte) = [] ++ [rootPixel root] from rfl, walk_append, hs] at h1
        simp at h1; exact h1.1.symm
      subst hroot2
      refine ⟨r2, s2 ++ [rootPixel r2], ?_, hroot, rfl⟩
      show walk _ l.clear (4095 + 1) q [] = _
      rw [walk_succ, if_pos (show l.clear < q.toNat by omega), hread]
      exact (walk_congr hl.dict kg 4095 _ hpok).trans hw2
  · show Dict.Ok (addEntry p (rootPixel root) l1).dict (addEntry p (rootPixel root) l1).clear _
    rw [hcl]; exact kd
  · exact kw
  · rfl
  · show (addEntry p (rootPixel root) l1).bitpos ≤ _
    rw [hbp]; exact hl.bitpos
  · show ((addEntry p (rootPixel root) l1).stack.foldl (emit npix) (addEntry p (rootPixel root) l1).out).length ≤ _
    rw [hst, hou]
    exact emitAll_length_le _ _ _ hl.outLen
  · show ∀ v ∈ ((addEntry p (rootPixel root) l1).stack.foldl (emit npix) (addEntry p (rootPixel root) l1).out), v.toNat < (addEntry p (rootPixel root) l1).clear
    rw [hst, hou, hcl]
    intro v hv
    rcases mem_emitAll hv with h | h
    · exact hl.outRange v h
    · exact hstr v h

end Sys2Proof.Machine
end

