-- ==== Sys2Proof/Laws/Step.lean ====
section
/-! SUPPORT. Everything one step can do, said once (`step_cases`), and the decoding of a code in the fields of
the engine. -/

namespace Sys2Proof.Machine

/-- The fetch of a code, in the engine's own fields (R224, R225). -/
theorem decode_lzwCtx (s : State) (rd : Nat → Option Byte) :
    decode (.lzw (lzwCtx s)) rd =
      if 8 * (curFrame s).rawLen - s.lzw.bitpos < s.lzw.cw then .error .exhausted
      else .ok (decodeCode (lzwCtx s) (codeAt rd s.lzw.bitpos s.lzw.cw)) := rfl

/-- A code of `n` bits is below `2^n` (R224). -/
theorem codeAt_lt (rd : Nat → Option Byte) (bp n : Nat) : codeAt rd bp n < 2 ^ n := by
  induction n with
  | zero => simp [codeAt]
  | succ n ih =>
    simp only [codeAt, Nat.pow_succ]
    have : streamBit rd (bp + n) ≤ 1 := by unfold streamBit; exact Bool.toNat_le _
    nlinarith [Nat.mul_le_mul_right (2 ^ n) this]

/-- Everything a step can do: wait, take a host write, run a command, run the item at hand, leave the LZW loop
for its count or for lack of input, run the code at hand, or end the run. -/
theorem step_cases (s : State) :
    (s.engine = .idle ∧ s.hostq = [] ∧ step s = .next s) ∨
    (∃ w q, s.engine = .idle ∧ s.hostq = w :: q ∧ (∀ code, w ≠ .command code) ∧
      step s = .next (applyWrite w { s with hostq := q })) ∨
    (∃ code q, s.engine = .idle ∧ s.hostq = .command code :: q ∧
      step s = exec (decodeCommand code) (applyWrite (.command code) { s with hostq := q })) ∨
    (∃ ph, s.engine = .parse ph ∧ step s = exec (decodeItem ph (palSizeAt ph s) (itemReader ph s)) s) ∨
    (∃ c, s.engine = .lzw c ∧ s.lzw.ended = true ∧ step s = .next (finishRun c s)) ∨
    (∃ c, s.engine = .lzw c ∧ s.lzw.ended = false ∧ npix s ≤ s.lzw.out.length ∧
      step s = .next (leaveLoop .count s)) ∨
    (∃ c, s.engine = .lzw c ∧ s.lzw.ended = false ∧ s.lzw.out.length < npix s ∧
      8 * (curFrame s).rawLen - s.lzw.bitpos < s.lzw.cw ∧ step s = .next (leaveLoop .exhausted s)) ∨
    (∃ c, s.engine = .lzw c ∧ s.lzw.ended = false ∧ s.lzw.out.length < npix s ∧
      s.lzw.cw ≤ 8 * (curFrame s).rawLen - s.lzw.bitpos ∧
      step s = exec (decodeCode (lzwCtx s) (codeAt (rawReader s) s.lzw.bitpos s.lzw.cw)) (advanceCode s)) := by
  unfold step fetch
  rcases he : s.engine with _ | ph | c
  · rcases hq : s.hostq with _ | ⟨w, q⟩
    · exact .inl ⟨rfl, rfl, by simp [fetchHost, hq]⟩
    · cases w with
      | command code => exact .inr (.inr (.inl ⟨code, q, rfl, rfl, by simp [fetchHost, hq, he]⟩))
      | inByte o b => exact .inr (.inl ⟨_, q, rfl, rfl, by simp, by simp [fetchHost, hq, he]⟩)
      | len n => exact .inr (.inl ⟨_, q, rfl, rfl, by simp, by simp [fetchHost, hq, he]⟩)
      | argFrame n => exact .inr (.inl ⟨_, q, rfl, rfl, by simp, by simp [fetchHost, hq, he]⟩)
      | argFlags b => exact .inr (.inl ⟨_, q, rfl, rfl, by simp, by simp [fetchHost, hq, he]⟩)
  · exact .inr (.inr (.inr (.inl ⟨ph, rfl, rfl⟩)))
  · simp only [fetchCode, decode_lzwCtx]
    rcases h1 : s.lzw.ended with _ | _
    · by_cases h2 : npix s ≤ s.lzw.out.length
      · exact .inr (.inr (.inr (.inr (.inr (.inl ⟨c, rfl, rfl, h2, by simp [h2]⟩)))))
      · by_cases h3 : 8 * (curFrame s).rawLen - s.lzw.bitpos < s.lzw.cw
        · exact .inr (.inr (.inr (.inr (.inr (.inr (.inl ⟨c, rfl, rfl, by omega, h3, by simp [h2, h3]⟩))))))
        · exact .inr (.inr (.inr (.inr (.inr (.inr (.inr ⟨c, rfl, rfl, by omega, by omega, by simp [h2, h3]⟩))))))
    · exact .inr (.inr (.inr (.inr (.inl ⟨c, rfl, rfl, by simp⟩))))

end Sys2Proof.Machine
end

