-- ==== Sys2Proof/Tests/Slice0.lean ====
section
/-! SUPPORT. The model's own tests: the smoke test of WellFormed, a written-out word for every constructor, one or
two small steps for every instruction (from the examples of the spec's rules), and for every statement with
hypotheses a witness that meets them. -/

namespace Sys2Proof.Tests

open Sys2Proof.Machine

/-! ## Helpers -/

/-- The bytes decode, at that place, to that instruction. -/
def decodesTo (c : Ctx) (bytes : List Byte) (i : Instr) : Bool :=
  match decode c (fun k => bytes[k]?) with
  | .ok j => decide (j = i)
  | .error _ => false

/-- The answer is a next state with a property. -/
def isNext (a : Answer) (p : State → Bool) : Bool :=
  match a with
  | .next t => p t
  | .fault _ => false
  | .refused _ => false

/-- A parser about to read an item of a kind at an offset of an input. -/
def input (bytes : List Byte) (pos : Nat) (ph : ParsePhase) : State :=
  { State.reset with
    host := { State.reset.host with len := bytes.length }
    inMem := bytes.zipIdx.map fun p => (p.2, p.1)
    pos := pos
    engine := .parse ph }

/-- A document of these frames, between commands. -/
def doc (fs : List Frame) : State :=
  { State.reset with status := { State.reset.status with docValid := true }, frames := fs }

/-- The frame of R132's example: 2 by 2, `MCS` = 2, `RAW` = `8C 53`. -/
def frame2 : Frame := { Frame.blank with width := 2, height := 2, mcs := 2, raw := [0x8C#8, 0x53#8], rawLen := 2 }

/-- An interlaced frame of one column and ten rows, decoded (R282's example). -/
def frame10 : Frame :=
  { Frame.blank with
    width := 1, height := 10, mcs := 4, interlace := true, raw := [0#8], rawLen := 1
    dec := some [0#8, 1#8, 2#8, 3#8, 4#8, 5#8, 6#8, 7#8, 8#8, 9#8] }

/-- The same rows in display order (R282's example). -/
def rows10 : List Byte := [0#8, 5#8, 3#8, 6#8, 2#8, 7#8, 4#8, 8#8, 1#8, 9#8]

/-- A run on `frame2` after the codes 4 and 1 (R232's example). -/
def run2 : State :=
  { doc [frame2] with
    engine := .lzw .decode
    lzw := { clear := 4, eoi := 5, cw := 3, avail := 6, prev := some 1#12, first := 1#8, bitpos := 6, code := 1#12,
             out := [1#8], stack := [], dict := [], ended := false } }

/-- A run with one entry, 6 = (0, 1), after the codes 4, 0, 1 (R231's example), on a payload of three bytes. -/
def run3 : State :=
  { doc [{ frame2 with raw := [0#8, 0#8, 0#8], rawLen := 3 }] with
    engine := .lzw .decode
    lzw := { clear := 4, eoi := 5, cw := 3, avail := 7, prev := some 1#12, first := 1#8, bitpos := 9, code := 1#12,
             out := [0#8, 1#8], stack := [], dict := [(6, ⟨0#12, 1#8⟩)], ended := false } }

/-! ## WellFormed refuses ill-formed terms -/

theorem test_wf_signature : (Instr.hdrSig (([0x47, 0x49, 0x46, 0x38, 0x37, 0x61] : List Byte).map some)).wellFormed = false := by decide
theorem test_wf_signature_absent : (Instr.hdrSig (List.replicate 6 none)).wellFormed = false := by decide
theorem test_wf_gct : (Instr.gct [⟨0, 0, 0⟩, ⟨0, 0, 0⟩, ⟨0, 0, 0⟩]).wellFormed = false := by decide
theorem test_wf_lct : (Instr.lct []).wellFormed = false := by decide
theorem test_wf_gce_terminator : (Instr.extGce 4 0 0 0 none).wellFormed = false := by decide
theorem test_wf_gce_inner : (Instr.extGce 1 5 2 0 (some 0)).wellFormed = false := by decide
theorem test_wf_app_length : (Instr.extApp (some 10) (List.replicate 11 (some 0))).wellFormed = false := by decide
theorem test_wf_app_short : (Instr.extApp (some 11) (List.replicate 10 (some 0))).wellFormed = false := by decide
theorem test_wf_app_absent : (Instr.extApp (some 11) (List.replicate 11 none)).wellFormed = false := by decide
theorem test_wf_netscape : (Instr.extAppNs (some 4) (some 1) 0 (some 0)).wellFormed = false ∧
    (Instr.extAppNs (some 3) (some 2) 0 (some 0)).wellFormed = false ∧
    (Instr.extAppNs (some 3) (some 1) 0 (some 1)).wellFormed = false := by decide
theorem test_wf_other_app : (Instr.extAppX (Config.netscape.map some)).wellFormed = false := by decide
theorem test_wf_label : (Instr.extUnknown (some 0xF9)).wellFormed = false ∧
    (Instr.extUnknown none).wellFormed = false := by decide
theorem test_wf_mcs : (Instr.mcs (some 1)).wellFormed = false ∧ (Instr.mcs (some 9)).wellFormed = false ∧
    (Instr.mcs none).wellFormed = false := by decide
theorem test_wf_subblock : (Instr.subblock (some [])).wellFormed = false ∧ (Instr.subblock none).wellFormed = false ∧
    (Instr.subblock (some (List.replicate 256 0))).wellFormed = false := by decide +kernel
theorem test_wf_tag : (Instr.blockUnknown (some 0x2C)).wellFormed = false ∧
    (Instr.blockUnknown none).wellFormed = false := by decide
theorem test_wf_root : (Instr.dataFirst 256).wellFormed = false := by decide
theorem test_wf_command : (Instr.cmdIllegal 4).wellFormed = false := by decide
theorem test_stands_palette : (Instr.gct [⟨0, 0, 0⟩, ⟨0, 0, 0⟩]).standsAt (.container .gct 1#3) = false := by decide
theorem test_stands_block : Instr.trailer.standsAt (.container .mcs 0#3) = false := by decide
theorem test_stands_code : Instr.dataKwkwk.standsAt (.lzw ⟨4, 4096, 12, true, 0, 2⟩) = false ∧
    (Instr.data 5).standsAt (.lzw ⟨4, 7, 3, true, 0, 2⟩) = false ∧
    (Instr.dataFirst 4).standsAt (.lzw ⟨4, 6, 3, false, 0, 2⟩) = false ∧
    (Instr.badcode 6).standsAt (.lzw ⟨4, 6, 3, true, 0, 2⟩) = false ∧
    Instr.clear.standsAt (.lzw ⟨4, 5, 3, false, 0, 2⟩) = false := by decide

/-! ## A written-out word for every constructor (30_encoding; the examples of 41 and 42) -/

theorem test_dec_sig : decodesTo (.container .sig 0) [0x47, 0x49, 0x46, 0x38, 0x39, 0x61]
    (.hdrSig [some 0x47, some 0x49, some 0x46, some 0x38, some 0x39, some 0x61]) = true := by decide
theorem test_dec_lsd : decodesTo (.container .lsd 0) [0x02, 0x00, 0x03, 0x01, 0x80, 0x05, 0x06]
    (.hdrLsd 2 259 0x80 5 6) = true := by decide
theorem test_dec_gct : decodesTo (.container .gct 0) [0x00, 0x00, 0x00, 0xFF, 0x80, 0x40]
    (.gct [⟨0, 0, 0⟩, ⟨255, 128, 64⟩]) = true := by decide
theorem test_dec_gce : decodesTo (.container .block 0) [0x21, 0xF9, 0x04, 0x05, 0x0A, 0x00, 0x07, 0x00]
    (.extGce 4 5 10 7 (some 0)) = true := by decide
theorem test_dec_gce_short : decodesTo (.container .block 0) [0x21, 0xF9, 0x00, 0x00, 0x3B]
    (.extGce 0 0 0x3B 0 (some 0)) = true := by decide
theorem test_dec_app : decodesTo (.container .block 0)
    [0x21, 0xFF, 0x0B, 0x4E, 0x45, 0x54, 0x53, 0x43, 0x41, 0x50, 0x45, 0x32, 0x2E, 0x30, 0x03]
    (.extApp (some 11) ([0x4E, 0x45, 0x54, 0x53, 0x43, 0x41, 0x50, 0x45, 0x32, 0x2E, 0x30].map some)) = true := by decide
theorem test_dec_netscape : decodesTo (.container (.app true) 0)
    [0x21, 0xFF, 0x0B, 0x4E, 0x45, 0x54, 0x53, 0x43, 0x41, 0x50, 0x45, 0x32, 0x2E, 0x30, 0x03, 0x01, 0x05, 0x00, 0x00]
    (.extAppNs (some 3) (some 1) 5 (some 0)) = true := by decide
theorem test_dec_other_app : decodesTo (.container (.app false) 0)
    [0x21, 0xFF, 0x0B, 0x58, 0x58, 0x58, 0x58, 0x58, 0x58, 0x58, 0x58, 0x58, 0x58, 0x58, 0x02]
    (.extAppX (List.replicate 11 (some 0x58))) = true := by decide
theorem test_dec_comment : decodesTo (.container .block 0) [0x21, 0xFE, 0x02, 0x68, 0x69, 0x00] .extComment = true := by
  decide
theorem test_dec_ptext : decodesTo (.container .block 0) [0x21, 0x01, 0x00] .extPtext = true := by decide
theorem test_dec_label : decodesTo (.container .block 0) [0x21, 0xF8] (.extUnknown (some 0xF8)) = true := by decide
theorem test_dec_img : decodesTo (.container .block 0)
    [0x2C, 0x01, 0x00, 0x02, 0x00, 0x03, 0x00, 0x04, 0x01, 0xC1] (.img 1 2 3 260 0xC1) = true := by decide
theorem test_dec_lct : decodesTo (.container .lct 0) [0x01, 0x02, 0x03, 0x04, 0x05, 0x06]
    (.lct [⟨1, 2, 3⟩, ⟨4, 5, 6⟩]) = true := by decide
theorem test_dec_mcs : decodesTo (.container .mcs 0) [0x08] (.mcs (some 8)) = true := by decide
theorem test_dec_imgdata : decodesTo (.container .imgData 0) [0x02, 0x8C, 0x53, 0x00] .imgData = true := by decide
theorem test_dec_subblock : decodesTo (.container (.chain .image) 0) [0x02, 0x8C, 0x53, 0x00]
    (.subblock (some [0x8C, 0x53])) = true := by decide
theorem test_dec_subblock_end : decodesTo (.container (.chain (.skip 3)) 0) [0x00] .subblockEnd = true := by decide
theorem test_dec_trailer : decodesTo (.container .block 0) [0x3B] .trailer = true := by decide
theorem test_dec_tag : decodesTo (.container .block 0) [0x00] (.blockUnknown (some 0)) = true ∧
    decodesTo (.container .block 0) [] (.blockUnknown none) = true := by decide
theorem test_dec_clear : decodesTo (.lzw ⟨4, 6, 3, false, 0, 2⟩) [0x8C, 0x53] .clear = true := by decide
theorem test_dec_eoi : decodesTo (.lzw ⟨4, 6, 3, true, 6, 2⟩) [0x4C, 0x01] .eoi = true := by decide
theorem test_dec_badcode : decodesTo (.lzw ⟨4, 6, 3, true, 6, 2⟩) [0xCC, 0x01] (.badcode 7) = true ∧
    decodesTo (.lzw ⟨4, 6, 3, false, 3, 1⟩) [0x34] (.badcode 6) = true := by decide
theorem test_dec_first : decodesTo (.lzw ⟨4, 6, 3, false, 3, 2⟩) [0x8C, 0x53] (.dataFirst 1) = true := by decide
theorem test_dec_data : decodesTo (.lzw ⟨4, 7, 3, true, 9, 2⟩) [0x8C, 0x53] (.data 1) = true := by decide
theorem test_dec_kwkwk : decodesTo (.lzw ⟨4, 6, 3, true, 6, 2⟩) [0x8C, 0x53] .dataKwkwk = true := by decide
theorem test_dec_commands : decodesTo .host [0x01] .parse = true ∧ decodesTo .host [0x02] .decode = true ∧
    decodesTo .host [0x03] .deinterlace = true ∧ decodesTo .host [0x04] .compose = true ∧
    decodesTo .host [0x05] (.cmdIllegal 5) = true := by decide
theorem test_pack : pack [(4, 3), (1, 3), (6, 3), (1, 3), (5, 4)] = [0x8C, 0x53] := by decide
theorem test_lzw_pseudo : encodeLzw 2 [4, 1, 6, 1, 5] = [0x02, 0x02, 0x8C, 0x53, 0x00] := by decide
theorem test_minimal : minimalStream =
    [0x47, 0x49, 0x46, 0x38, 0x39, 0x61, 0x00, 0x00, 0x00, 0x00, 0x00, 0x00, 0x00, 0x3B] := by decide

/-! ## One step of each container item (the examples of 41_container_parser) -/

theorem test_sig_gif87a : isNext (step (input [0x47, 0x49, 0x46, 0x38, 0x37, 0x61] 0 .sig))
    (fun t => t.err.code == 0x10 && t.err.offset == 4 && t.err.byte == 0x37 && t.err.byteValid) = true := by decide
theorem test_sig_short : isNext (step (input [0x47, 0x49] 0 .sig))
    (fun t => t.err.offset == 2 && !t.err.byteValid && decide (t.engine = .idle)) = true := by decide
theorem test_lsd : isNext (exec (.hdrLsd 2 2 0xA9 3 4) State.reset)
    (fun t => t.screen.gctFlag && t.screen.colorRes == 2 && t.screen.sort && t.screen.gctSize == 1 &&
      t.screen.bgIndex == 3 && t.pos == 13 && decide (t.engine = .parse .gct)) = true := by decide
theorem test_gct : isNext (step (input [0x00, 0x00, 0x00, 0xFF, 0x80, 0x40] 0 .gct))
    (fun t => decide (t.gpal = [⟨0, 0, 0⟩, ⟨255, 128, 64⟩]) && t.pos == 6) = true := by decide
theorem test_gce : isNext (step (input [0x21, 0xF9, 0x04, 0x05, 0x0A, 0x00, 0x07, 0x00] 0 .block))
    (fun t => t.pendRec.disposal == 1 && !t.pendRec.userInput && t.pendRec.transpFlag && t.pendRec.delayMs == 100 &&
      t.pendRec.transpIndex == 7 && t.pos == 8 && t.pendAlloc) = true := by decide
theorem test_gce_terminator : isNext (step (input [0x21, 0xF9, 0x01, 0x05, 0x0A] 0 .block))
    (fun t => t.err.code == 0x22 && t.err.offset == 4 && t.err.byte == 0x0A) = true := by decide
theorem test_app_length : isNext (step (input [0x21, 0xFF, 0x0A] 0 .block))
    (fun t => t.err.code == 0x24 && t.err.offset == 2 && t.err.byte == 0x0A) = true := by decide
theorem test_app_case : isNext (exec (.extApp (some 11) (List.replicate 11 (some 0x6E))) State.reset)
    (fun t => decide (t.engine = .parse (.app false)) && t.pos == 0) = true := by decide
theorem test_netscape : isNext (exec (.extAppNs (some 3) (some 1) 5 (some 0)) State.reset)
    (fun t => t.repeatCount == 5 && t.status.repeatValid && t.pos == 19) = true := by decide
theorem test_netscape_order : isNext (exec (.extAppNs (some 3) (some 2) 5 (some 1)) State.reset)
    (fun t => t.err.code == 0x26 && t.err.offset == 15 && !t.status.repeatValid) = true := by decide
theorem test_other_app : isNext (exec (.extAppX (List.replicate 11 (some 0x58))) State.reset)
    (fun t => t.pos == 0 && decide (t.engine = .parse (.chain (.skip 14))) && !t.status.repeatValid) = true := by decide
theorem test_comment : isNext (Sys2Proof.core.run 3 (input [0x21, 0xFE, 0x02, 0x68, 0x69, 0x00] 0 .block))
    (fun t => t.pos == 6 && decide (t.engine = .parse .block)) = true := by decide
theorem test_ptext : isNext (Sys2Proof.core.run 2 (input [0x21, 0x01, 0x00] 0 .block))
    (fun t => t.pos == 3 && decide (t.engine = .parse .block)) = true := by decide
theorem test_label : isNext (step (input [0x21, 0xF8] 0 .block))
    (fun t => t.err.code == 0x21 && t.err.offset == 1 && t.err.byte == 0xF8) = true := by decide
theorem test_img : isNext (step (input [0x2C, 0, 0, 0, 0, 0x02, 0x00, 0x02, 0x00, 0x00] 0 .block))
    (fun t => t.pendRec.width == 2 && t.pendRec.height == 2 && !t.pendRec.lctFlag && t.pendAlloc &&
      decide (t.engine = .parse .mcs) && t.pos == 10) = true := by decide
theorem test_lct : isNext (exec (.lct [⟨1, 2, 3⟩, ⟨4, 5, 6⟩]) State.reset)
    (fun t => t.pendRec.lpal.length == 2 && t.pos == 6 && t.gpal.isEmpty) = true := by decide
theorem test_mcs_nine : isNext (step (input (List.replicate 29 0 ++ [0x09]) 29 .mcs))
    (fun t => t.err.code == 0x28 && t.err.offset == 29 && t.err.byte == 0x09) = true := by decide
theorem test_mcs_eight : isNext (exec (.mcs (some 8)) State.reset) (fun t => t.pendRec.mcs == 8) = true := by decide
theorem test_imgdata : isNext (Sys2Proof.core.run 3 (input [0x02, 0x8C, 0x53, 0x00] 0 .imgData))
    (fun t => decide (t.frames.map (·.raw) = [[0x8C, 0x53]]) && decide (t.frames.map (·.rawLen) = [2]) && t.pos == 4 && !t.pendAlloc) = true := by decide
theorem test_subblock_absent : isNext (step (input [0x02] 1 (.chain (.skip 3))))
    (fun t => t.err.code == 0x23 && t.err.offset == 3 && !t.err.byteValid && t.pos == 1) = true := by decide
theorem test_comment_cut : isNext (Sys2Proof.core.run 3 (input [0x21, 0xFE, 0x02, 0x68] 0 .block))
    (fun t => t.err.code == 0x23 && t.err.offset == 5 && t.pos == 0 && decide (t.engine = .idle)) = true := by decide
theorem test_image_cut : isNext (Sys2Proof.core.run 3 (input [0x02, 0x8C, 0x53] 0 .imgData))
    (fun t => t.err.offset == 3 && t.pos == 3 && decide (t.pendRec.raw = [0x8C, 0x53]) && t.pendRec.rawLen == 0) = true := by
  decide
theorem test_subblock_end : isNext (step (input [0x00] 0 (.chain .image)))
    (fun t => t.frames.length == 1 && t.pos == 1) = true := by decide
theorem test_trailer : isNext (step (input [0x3B, 0xAA, 0xBB] 0 .block))
    (fun t => t.status.docValid && t.status.warnTrailing && t.trailCount == 2 && t.endPos == 1) = true := by decide
theorem test_tag : isNext (step (input (List.replicate 14 0) 13 .block))
    (fun t => t.err.code == 0x20 && t.err.offset == 13 && t.err.byte == 0 && t.err.byteValid) = true := by decide

/-! ## One step of each code class (the examples of 42_lzw_decompressor) -/

theorem test_clear : isNext (exec .clear { run2 with lzw := { run2.lzw with cw := 4, avail := 9, prev := some 6 } })
    (fun t => t.lzw.cw == 3 && t.lzw.avail == 6 && t.lzw.prev.isNone) = true := by decide
theorem test_eoi : isNext (exec .eoi run2)
    (fun t => t.lzw.ended && decide (t.endReason = .eoi) && t.lzw.out.length == 1) = true := by decide
theorem test_badcode : isNext (exec (.badcode 7) run2) (fun t => t.lzw.ended && t.endReason.num == 2) = true := by decide
theorem test_first : isNext (exec (.dataFirst 1) { run2 with lzw := { run2.lzw with out := [], prev := none } })
    (fun t => t.lzw.out == [1] && t.lzw.prev == some 1 && t.lzw.first == 1 && t.lzw.avail == 6) = true := by decide
theorem test_data : isNext (exec (.data 6) run3)
    (fun t => t.lzw.out == [0, 1, 0, 1] && t.lzw.dict.read 7 == ⟨1, 0⟩ && t.lzw.avail == 8 && t.lzw.cw == 4 &&
      t.lzw.prev == some 6) = true := by decide
theorem test_kwkwk : isNext (exec .dataKwkwk run2)
    (fun t => t.lzw.out == [1, 1, 1] && t.lzw.dict.read 6 == ⟨1, 1⟩ && t.lzw.avail == 7 && t.lzw.prev == some 6) = true := by
  decide
theorem test_exhausted : isNext (step { run2 with lzw := { run2.lzw with bitpos := 14 } })
    (fun t => decide (t.endReason = .exhausted) && t.lzw.ended) = true := by decide

/-! ## The host commands (the examples of 40, 43, 44) -/

theorem test_parse_minimal : isNext (runCommand 1
      { State.reset with host := ⟨0, 0, 0, 14⟩, inMem := minimalStream.zipIdx.map fun p => (p.2, p.1) })
    (fun t => t.status.docValid && !t.status.err && t.endPos == 14 && t.frames.isEmpty) = true := by decide
theorem test_parse_empty : isNext (runCommand 1 State.reset)
    (fun t => t.err.code == 0x10 && t.err.offset == 0 && !t.err.byteValid && t.docHidden) = true := by decide
theorem test_decode : isNext (runCommand 2 (doc [frame2]))
    (fun t => decide (t.frames.map (·.dec) = [some [1, 1, 1, 1]]) && t.lzwRuns == 1 && t.result.len == 4 &&
      decide (t.endReason = .count)) = true := by decide
theorem test_decode_empty : isNext (runCommand 2 (doc [{ frame2 with raw := [], rawLen := 0 }]))
    (fun t => decide (t.frames.map (·.dec) = [some [0]]) && t.lzwRuns == 0) = true := by decide
theorem test_deinterlace : isNext (exec .deinterlace (doc [frame10]))
    (fun t => decide (t.frames.map (·.dei) = [.valid rows10]) && decide (t.result.sel = .dei)) = true := by decide
theorem test_deinterlace_fold : isNext (exec .deinterlace { doc [frame10] with host := ⟨0, 0, 1, 0⟩ })
    (fun t => decide (t.frames.map (·.dec) = [some rows10]) && decide (t.frames.map (·.dei) = [.folded])) = true := by
  decide
theorem test_compose : isNext (exec .compose
      { doc [{ frame2 with dec := some [1, 1, 1, 1] }] with
        screen := { State.reset.screen with gctFlag := true }, gpal := [⟨0, 0, 0⟩, ⟨0xFF, 0x80, 0x40⟩] })
    (fun t => decide (t.result.rgba = some [0xFF, 0x80, 0x40, 0xFF, 0xFF, 0x80, 0x40, 0xFF, 0xFF, 0x80, 0x40, 0xFF,
      0xFF, 0x80, 0x40, 0xFF]) && t.result.pix == 4 && t.result.width == 2) = true := by decide
theorem test_compose_transparent : isNext (exec .compose (doc [{ frame2 with dec := some [0, 3, 0, 3] }]))
    (fun t => decide (t.result.rgba = some [0, 0, 0, 0, 0, 0, 0, 255, 0, 0, 0, 0, 0, 0, 0, 255])) = true := by decide
theorem test_command_illegal : isNext (runCommand 9 (doc [frame2]))
    (fun t => t.err.code == 0x33 && t.err.byte == 9 && t.err.byteValid && t.status.docValid) = true := by decide
theorem test_command_range : isNext (runCommand 4 { doc [frame2] with host := ⟨0, 1, 0, 0⟩ })
    (fun t => t.err.code == 0x31 && t.err.frame == 1 && t.lzwRuns == 0) = true := by decide

/-! ## Beyond a capacity (R6) -/

/-- The answer is a refusal. -/
def isRefused (a : Answer) (r : Refusal) : Bool :=
  match a with
  | .next _ => false
  | .fault _ => false
  | .refused q => decide (q = r)

theorem test_capacity_input :
    isRefused (exec .parse { State.reset with host := ⟨0, 0, 0, 3⟩, caps := { Config.defaults with input := some 2 } })
      .inCapacity = true ∧
    isNext (exec .parse { State.reset with host := ⟨0, 0, 0, 2⟩, caps := { Config.defaults with input := some 2 } })
      (fun _ => true) = true := by decide
theorem test_capacity_pix :
    isRefused (exec .decode { doc [frame2] with caps := { Config.defaults with pix := some 3 } }) .pixCapacity = true ∧
    isNext (exec .decode { doc [frame2] with caps := { Config.defaults with pix := some 4 } }) (fun _ => true) = true := by
  decide
theorem test_stack_depth :
    isRefused (exec (.data 6) { run3 with caps := { Config.defaults with stackDepth := 1 } }) .stackDepth = true ∧
    isNext (exec (.data 6) { run3 with caps := { Config.defaults with stackDepth := 2 } }) (fun _ => true) = true := by
  decide

/-! ## The placing of a table word -/

theorem test_table_word_host : decodeTableWord 8 3 = some .deinterlace ∧
    isNext (step (State.reset.withFetchWord 8 3)) (fun t => t.err.code == 0x32) = true := by decide
theorem test_table_word_img : (decodeTableWord 80 0x2C).isSome = true ∧
    isNext (step (State.reset.withFetchWord 80 0x2C)) (fun t => t.pendAlloc && t.pos == 10) = true := by decide +kernel

/-! ## The host's reads (R44, R142) -/

/-- The read answers that value. -/
def reads (a : HostRead Nat) (n : Nat) : Bool := decide (a = .value n)

theorem test_read_gce : reads (readReg (doc [{ frame2 with
      gcePresent := true, disposal := 1, transpFlag := true, transpIndex := 7, delay := 10 }]) 0x20) 0x105 = true ∧
    reads (readReg (doc [{ frame2 with lctFlag := true, interlace := true, lctSize := 1 }]) 0x27) 0xC1 = true := by
  decide
theorem test_read_dec_len : readReg (doc [frame2]) 0x2B = .unspecified ∧ readReg (doc [frame10]) 0x2B = .value 10 := by
  decide
theorem test_read_failed_parse : isNext (runCommand 1 State.reset)
    (fun t => decide (readReg t 0x0A = .refused .partialDocument) && reads (readReg t 0x09) 0 &&
      reads (readReg t 0x04) 0x10) = true := by decide

/-! ## Witnesses: states and operands that meet the hypotheses of each statement together -/

/-- The invariants of the run after the codes 4 and 1, a previous code and room in the dictionary. -/
theorem run2_ok : run2.lzw.Ok 2 2 (npix run2) :=
  { clear := rfl, eoi := rfl, availLo := by decide, availHi := by decide, cwLo := by decide, cwHi := by decide
    widthLo := by decide, widthHi := by decide, start := by decide, dictWf := rfl, stack := rfl, bitpos := by decide
    outLen := by decide, outRange := by decide
    prev := by
      intro p hp
      obtain rfl : 1#12 = p := by injection hp
      exact ⟨by decide, by decide, by decide, 1#12, [1#8], rfl, by decide, rfl⟩
    dict := by
      intro k h1 h2
      have h1 : 6 ≤ k := h1
      have h2 : k < 6 := h2
      omega }

/-- The same with one entry in the dictionary. -/
theorem run3_ok : run3.lzw.Ok 2 3 (npix run3) :=
  { clear := rfl, eoi := rfl, availLo := by decide, availHi := by decide, cwLo := by decide, cwHi := by decide
    widthLo := by decide, widthHi := by decide, start := by decide, dictWf := rfl, stack := rfl, bitpos := by decide
    outLen := by decide, outRange := by decide
    prev := by
      intro p hp
      obtain rfl : 1#12 = p := by injection hp
      exact ⟨by decide, by decide, by decide, 1#12, [1#8], rfl, by decide, rfl⟩
    dict := by
      intro k h1 h2
      have h1 : 6 ≤ k := h1
      have h2 : k < 7 := h2
      obtain rfl : k = 6 := by omega
      exact ⟨⟨0#12, 1#8⟩, rfl, by decide, by decide, by decide⟩ }

/-- `n` entries from 258 on, each (0, 0). -/
@[irreducible] def zeroEntries (n : Nat) : Dict := (List.range n).map fun k => (258 + k, ⟨0#12, 0#8⟩)

theorem zeroEntries_wf (n : Nat) : (zeroEntries n).wf = true := by
  unfold zeroEntries
  exact sparseWf_map_range _ _ _

theorem zeroEntries_get (n : Nat) {k : Nat} (h1 : 258 ≤ k) (h2 : k < 258 + n) :
    sparseGet (zeroEntries n) k = some ⟨0#12, 0#8⟩ := by
  have := sparseGet_map_range (fun _ => (⟨0#12, 0#8⟩ : DictEntry)) 258 n (j := k - 258) (by omega)
  rw [show 258 + (k - 258) = k by omega] at this
  unfold zeroEntries
  exact this

/-- A run whose dictionary is full (R239). -/
def fullRun : Lzw :=
  { clear := 256, eoi := 257, cw := 12, avail := 4096, prev := some 7#12, first := 7#8, bitpos := 0, code := 7#12,
    out := [], stack := [], dict := zeroEntries 3838, ended := false }

/-- A frame for it: 100 by 100, `MCS` = 8. -/
def frame100 : Frame := { Frame.blank with width := 100, height := 100, mcs := 8, raw := [7#8, 0#8], rawLen := 2 }

/-- The run with the full dictionary. -/
def runFull : State := { doc [frame100] with engine := .lzw .decode, lzw := fullRun }

theorem runFull_ok : runFull.lzw.Ok 8 2 (npix runFull) := by
  show fullRun.Ok 8 2 10000
  constructor
  case dictWf => exact zeroEntries_wf 3838
  case dict =>
    intro k h1 h2
    have h1 : 258 ≤ k := h1
    have h2 : k < 4096 := h2
    exact ⟨⟨0#12, 0#8⟩, zeroEntries_get 3838 h1 (by omega), by show 0 < k; omega, .inl (by decide), by decide⟩
  case prev =>
    intro p hp
    obtain rfl : 7#12 = p := by injection hp
    exact ⟨by decide, by decide, by decide, 7#12, [7#8], rfl, by decide, rfl⟩
  case start => intro h; cases h
  case outRange => intro v hv; cases hv
  all_goals first | exact rfl | decide

/-- A completed frame record as PARSE leaves it meets its invariant. -/
theorem frame2_ok : frame2.Ok :=
  { gce := ⟨fun _ => ⟨rfl, rfl, rfl, rfl⟩, fun _ => rfl⟩, mcs := by unfold Frame.McsOk; decide, lpal := rfl, rawLen := rfl
    decLen := fun _ h => by cases h
    deiLen := fun _ h => by cases h
    deiAfterDec := fun _ => rfl
    deiInterlaced := fun h => absurd rfl h }

/-- An idle machine with a document meets the invariant. -/
theorem doc2_inv : (doc [frame2]).Inv :=
  { mem := rfl, dict := rfl
    frames := by intro f hf; obtain rfl : f = frame2 := by simpa [doc] using hf
                 exact frame2_ok
    gpal := fun _ => rfl
    hidden := fun h => by cases h
    parse := fun _ h => by cases h
    run := fun _ h => by cases h }

/-- A machine in a run meets the invariant. -/
theorem run2_inv : run2.Inv :=
  { mem := rfl, dict := rfl
    frames := by intro f hf; obtain rfl : f = frame2 := by simpa [run2, doc] using hf
                 exact frame2_ok
    gpal := fun _ => rfl
    hidden := fun h => by cases h
    parse := fun _ h => by cases h
    run := by
      intro c h
      obtain rfl : Caller.decode = c := by injection h
      exact ⟨rfl, ⟨rfl, rfl⟩, by decide, by decide, rfl, (fun h => by cases h), by decide, run2_ok⟩ }

/-- The run at its end, out of codes. -/
def run2End : State := { run2 with lzw := { run2.lzw with ended := true } }

/-- It meets the invariants of a run for each command that can have started it. -/
theorem run2End_runOk (c : Caller) (h : c = .deinterlace → (curFrame run2End).interlace = true) : run2End.RunOk c :=
  ⟨rfl, ⟨rfl, rfl⟩, by decide, by decide, rfl, h, by decide, run2_ok.withPos 1#12 6 true (by decide)⟩

theorem run2End_inv : run2End.Inv :=
  { mem := rfl, dict := rfl
    frames := by intro f hf; obtain rfl : f = frame2 := by simpa [run2End, run2, doc] using hf
                 exact frame2_ok
    gpal := fun _ => rfl
    hidden := fun h => by cases h
    parse := fun _ h => by cases h
    run := by
      intro c h
      obtain rfl : Caller.decode = c := by injection h
      exact run2End_runOk .decode (fun h => by cases h) }

/-- The frame of R132's example, interlaced. -/
def frame2i : Frame := { frame2 with interlace := true }

theorem frame2i_ok : frame2i.Ok :=
  { gce := ⟨fun _ => ⟨rfl, rfl, rfl, rfl⟩, fun _ => rfl⟩, mcs := by unfold Frame.McsOk; decide, lpal := rfl, rawLen := rfl
    decLen := fun _ h => by cases h
    deiLen := fun _ h => by cases h
    deiAfterDec := fun _ => rfl
    deiInterlaced := fun _ => rfl }

/-- The same run for DEINTERLACE, on that frame. -/
def run2EndDei : State := { run2End with frames := [frame2i], engine := .lzw .deinterlace }

theorem run2EndDei_runOk (c : Caller) : run2EndDei.RunOk c :=
  ⟨rfl, ⟨rfl, rfl⟩, by decide, by decide, rfl, fun _ => rfl, by decide, run2_ok.withPos 1#12 6 true (by decide)⟩

theorem run2EndDei_inv : run2EndDei.Inv :=
  { mem := rfl, dict := rfl
    frames := by
      intro f hf
      obtain rfl : f = frame2i := by simpa [run2EndDei] using hf
      exact frame2i_ok
    gpal := fun _ => rfl
    hidden := fun h => by cases h
    parse := fun _ h => by cases h
    run := fun c _ => run2EndDei_runOk c }

/-- An instance that holds no pixel, and one whose stack has two entries. -/
def noPixels : Capacities := { Config.defaults with pix := some 0 }
def stackOfTwo : Capacities := { Config.defaults with stackDepth := 2 }

/-- A parser about to read the trailer of a stream without frames. -/
def atTrailer : State := input (List.replicate 13 0#8 ++ [0x3B#8]) 13 .block

theorem atTrailer_inv : atTrailer.Inv ∧ atTrailer.PosOk :=
  ⟨{ mem := by decide, dict := rfl
     frames := by intro f hf; cases hf
     gpal := fun h => by cases h
     hidden := fun h => by cases h
     parse := by
       intro ph h
       obtain rfl : ParsePhase.block = ph := by injection h
       exact ⟨rfl, rfl, rfl, fun h => by cases h⟩
     run := fun _ h => by cases h }, by show 13 ≤ _; decide⟩

/-- ByteAndBitOrder: the last bit of the last code of a payload. -/
theorem witness_ByteAndBitOrder : 2 < 3 ∧ 13 + 3 ≤ 8 * ([0x8C#8, 0x53#8] : List Byte).length := by decide

/-- AccumulatorFormFetchesTheSameCode: a start whose code fits exactly, an empty input, and an accumulator in the
middle of a byte. -/
theorem witness_AccumulatorFormFetchesTheSameCode :
    Accum.At [0x8C#8, 0x53#8] 0 Accum.start ∧ 12 ≤ 8 * 2 - 0 ∧ Accum.At [0x8C#8] 3 ⟨17, 5, 1⟩ ∧ 8 * 1 - 3 < 6 ∧ 5 ≤ 8 * 1 - 3 :=
  ⟨⟨by decide, by decide, rfl, rfl⟩, by decide, ⟨by decide, by decide, rfl, by decide⟩, by decide, by decide⟩

/-- ItemsDecodeFromTheirEncoding: the edges of the length byte, of a sub-block, of a palette; a host command. -/
theorem witness_ItemsDecodeFromTheirEncoding :
    ((Instr.extGce 0 0 0x3B 7 (some 0)).wellFormed = true ∧
      (Instr.extGce 0 0 0x3B 7 (some 0)).standsAt (.container .block 0) = true) ∧
    ((Instr.extGce 255 5 10 7 (some 0)).wellFormed = true ∧
      (Instr.extGce 255 5 10 7 (some 0)).standsAt (.container .block 0) = true) ∧
    ((Instr.subblock (some (List.replicate 255 0))).wellFormed = true ∧
      (Instr.subblock (some (List.replicate 255 0))).standsAt (.container (.chain .image) 0) = true) ∧
    ((Instr.gct [⟨0, 0, 0⟩, ⟨255, 128, 64⟩]).wellFormed = true ∧
      (Instr.gct [⟨0, 0, 0⟩, ⟨255, 128, 64⟩]).standsAt (.container .gct 0) = true) ∧
    ((Instr.cmdIllegal 5).wellFormed = true ∧ (Instr.cmdIllegal 5).standsAt .host = true) := by decide +kernel

/-- CodesDecodeFromTheirEncoding: each class, at an edge of its range. -/
theorem witness_CodesDecodeFromTheirEncoding :
    Instr.clear.standsAt (.lzw ⟨256, 4096, 12, true, 0, 0⟩) = true ∧
    Instr.eoi.standsAt (.lzw ⟨4, 6, 3, false, 0, 0⟩) = true ∧
    (Instr.badcode 7).standsAt (.lzw ⟨4, 6, 3, true, 0, 0⟩) = true ∧
    (Instr.badcode 6).standsAt (.lzw ⟨4, 6, 3, false, 0, 0⟩) = true ∧
    ((Instr.dataFirst 255).wellFormed = true ∧ (Instr.dataFirst 255).standsAt (.lzw ⟨256, 258, 9, false, 0, 0⟩) = true) ∧
    (Instr.data 4095).standsAt (.lzw ⟨256, 4096, 12, true, 0, 0⟩) = true ∧
    Instr.dataKwkwk.standsAt (.lzw ⟨4, 4095, 12, true, 0, 0⟩) = true := by decide

/-- PackedCodesReadBack: the codes of R112's example, cut before its last. -/
theorem witness_PackedCodesReadBack :
    (∀ c ∈ [(4, 3), (1, 3), (6, 3), (1, 3), (5, 4)], c.1 < 2 ^ c.2) ∧
    [(4, 3), (1, 3), (6, 3), (1, 3), (5, 4)] = [(4, 3), (1, 3), (6, 3), (1, 3)] ++ (5, 4) :: [] := by decide

/-- EncoderWidthsFollowTheDecoder: the code at hand is answered and does not end the run. -/
theorem witness_EncoderWidthsFollowTheDecoder :
    2 = (curFrame run2).mcs.toNat ∧ run2.lzw.Ok 2 2 (npix run2) ∧
    isNext (exec (decodeCode (lzwCtx run2) (codeAt (rawReader run2) run2.lzw.bitpos run2.lzw.cw)) (advanceCode run2))
      (fun t => !t.lzw.ended) = true :=
  ⟨rfl, run2_ok, by decide⟩

/-- CodesAreClassedInOrder: the premises, without and with a previous code, and each clause at an edge. -/
theorem witness_CodesAreClassedInOrder :
    (4 + 2 ≤ 6 ∧ ((false = false) → 6 = 4 + 2)) ∧ (4 + 2 ≤ 7 ∧ (true = false → 7 = 4 + 2)) ∧
    decodeCode ⟨4, 6, 3, false, 0, 2⟩ 4 = .clear ∧ decodeCode ⟨4, 6, 3, false, 0, 2⟩ 5 = .eoi ∧
    decodeCode ⟨4, 6, 3, false, 0, 2⟩ 6 = .badcode 6#12 ∧ decodeCode ⟨4, 6, 3, false, 0, 2⟩ 3 = .dataFirst 3#12 ∧
    decodeCode ⟨4, 7, 3, true, 0, 2⟩ 6 = .data 6#12 ∧ decodeCode ⟨4, 7, 3, true, 0, 2⟩ 7 = .dataKwkwk ∧
    decodeCode ⟨4, 6, 3, true, 0, 2⟩ 7 = .badcode 7#12 := by decide

/-- StepRunsTheDecodedInstruction: a command, an item, a code. -/
theorem witness_StepRunsTheDecodedInstruction :
    ({ doc [frame2] with hostq := [.command 0xFF#8, .len 3] }.engine = .idle ∧
      decodesTo .host [0xFF] (.cmdIllegal 0xFF) = true) ∧
    decodesTo (.container .block (palSizeAt .block atTrailer)) [0x3B] .trailer = true ∧
    (run2.engine = .lzw .decode ∧ run2.lzw.ended = false ∧ run2.lzw.out.length < npix run2 ∧
      decodesTo (.lzw (lzwCtx run2)) [0x8C, 0x53] .dataKwkwk = true) := by decide

/-- HostWritesLandBetweenCommands: an idle machine with each kind of write, and with none. -/
theorem witness_HostWritesLandBetweenCommands :
    State.reset.engine = .idle ∧ State.reset.hostq = [] ∧
    { State.reset with hostq := [.len 3] }.hostq = .len 3 :: [] ∧
    { State.reset with hostq := [.argFrame 1] }.hostq = .argFrame 1 :: [] ∧
    { State.reset with hostq := [.argFlags 1#8] }.hostq = .argFlags 1#8 :: [] ∧
    { State.reset with hostq := [.inByte 0 7#8, .len 1] }.hostq = .inByte 0 7#8 :: [.len 1] := by decide

/-- LoopHeadTestsCountThenInput: exactly all pixels out; one bit too few. -/
theorem witness_LoopHeadTestsCountThenInput :
    (run2.engine = .lzw .decode ∧ run2.lzw.ended = false ∧ run2.frames[run2.host.argFrame]? = some frame2) ∧
    2 * 2 ≤ ([1#8, 1#8, 1#8, 1#8] : List Byte).length ∧
    ([1#8, 1#8, 1#8] : List Byte).length < 2 * 2 ∧ 8 * frame2.rawLen - 14 < 3 := by decide

/-- RunEndPadsAndFillsTheCache: the end of a run for each of the three commands. -/
theorem witness_RunEndPadsAndFillsTheCache :
    (run2End.engine = .lzw .decode ∧ run2End.RunOk .decode ∧ run2End.lzw.ended = true ∧
      run2End.frames[run2End.host.argFrame]? = some frame2 ∧
      (Caller.decode, Instr.decode) ∈ [(Caller.decode, Instr.decode), (.deinterlace, .deinterlace), (.compose, .compose)]) ∧
    (run2EndDei.engine = .lzw .deinterlace ∧ run2EndDei.RunOk .deinterlace ∧
      (Caller.deinterlace, Instr.deinterlace) ∈
        [(Caller.decode, Instr.decode), (.deinterlace, .deinterlace), (.compose, .compose)]) ∧
    ({ run2End with engine := .lzw .compose }.RunOk .compose ∧
      (Caller.compose, Instr.compose) ∈
        [(Caller.decode, Instr.decode), (.deinterlace, .deinterlace), (.compose, .compose)]) :=
  ⟨⟨rfl, run2End_runOk _ (fun h => by cases h), rfl, rfl, by decide⟩, ⟨rfl, run2EndDei_runOk _, by decide⟩,
    ⟨rfl, ⟨rfl, rfl⟩, by decide, by decide, rfl, (fun h => by cases h), by decide, (run2End_runOk .decode (fun h => by cases h)).lzw⟩,
    by decide⟩

/-- SignatureIsCheckedByteByByte: the first byte wrong; the last absent. -/
theorem witness_SignatureIsCheckedByteByByte :
    (([some 0x67#8, none, none, none, none, none] : List (Option Byte))[0]? = some (some 0x67#8) ∧
      (some 0x67#8 : Option Byte) ≠ Config.sig[0]?) ∧
    ((∀ j, j < 5 → ([some 0x47#8, some 0x49#8, some 0x46#8, some 0x38#8, some 0x39#8, none] : List (Option Byte))[j]? =
        some (Config.sig[j]?)) ∧ (none : Option Byte) ≠ Config.sig[5]?) := by decide

/-- PalettesGoToTheirStore: six bytes of input for a palette of two entries, at each place. -/
theorem witness_PalettesGoToTheirStore :
    (input [1#8, 2#8, 3#8, 4#8, 5#8, 6#8] 0 .gct).Holds 0 [1#8, 2#8, 3#8, 4#8, 5#8, 6#8] ∧
    (input [1#8, 2#8, 3#8, 4#8, 5#8, 6#8] 0 .lct).Holds 0 [1#8, 2#8, 3#8, 4#8, 5#8, 6#8] ∧
    6 = 3 * 2 ^ ((input [] 0 .gct).screen.gctSize.toNat + 1) ∧
    6 = 3 * 2 ^ ((input [] 0 .lct).pendRec.lctSize.toNat + 1) := by unfold State.Holds; decide

/-- GraphicControlFillsThePendingRecord, ApplicationIdentifierSelectsThePayload, LoopCountIsCheckedInOffsetOrder,
MinimumCodeSizeIsTwoToEight: each clause, absent bytes and the edges 2, 8, 1 and 9 included. -/
theorem witness_checked_bytes :
    (some 0#8 : Option Byte) = some 0#8 ∧ (none : Option Byte) ≠ some 0#8 ∧ (some 1#8 : Option Byte) ≠ some 0#8 ∧
    (some 10#8 : Option Byte) ≠ some 11#8 ∧ (some 12#8 : Option Byte) ≠ some 11#8 ∧
    (some 4#8 : Option Byte) ≠ some 3#8 ∧ (some 0#8 : Option Byte) ≠ some 1#8 ∧
    2 ≤ (2#8).toNat ∧ (8#8).toNat ≤ 8 ∧ (1#8).toNat < 2 ∧ 8 < (9#8).toNat := by decide

/-- The same statements, ScreenDescriptorIsStored, ChainsStartAfterTheirItem, UnknownTagsAndLabelsFail,
ImageDescriptorFillsTheRecord, TrailerEndsTheParse: a parser at each kind of item. -/
theorem witness_items_at_the_parser :
    (input [0x21#8, 0xF9#8] 0 .block).engine = .parse .block ∧
    (inByte (input [0x21#8, 0xF9#8] 0 .block) 0 = some 0x21#8 ∧ inByte (input [0x21#8, 0xF9#8] 0 .block) 1 = some 0xF9#8) ∧
    inByte (input [0x21#8, 0xFF#8] 0 .block) 1 = some 0xFF#8 ∧ inByte (input [0x21#8, 0xFE#8] 0 .block) 1 = some 0xFE#8 ∧
    inByte (input [0x21#8, 0x01#8] 0 .block) 1 = some 0x01#8 ∧ inByte (input [0x21#8] 0 .block) 1 = none ∧
    inByte (input [0x21#8, 0xF8#8] 0 .block) 1 = some 0xF8#8 ∧ inByte (input [0x2C#8] 0 .block) 0 = some 0x2C#8 ∧
    inByte (input [0x3B#8] 0 .block) 0 = some 0x3B#8 ∧ inByte (input [] 0 .block) 0 = none ∧
    inByte (input [0x22#8] 0 .block) 0 = some 0x22#8 ∧ (input [] 0 .sig).engine = .parse .sig ∧
    (input [] 0 .lsd).engine = .parse .lsd ∧ (input [9#8] 0 .mcs).engine = .parse .mcs ∧
    (input [] 0 (.app true)).engine = .parse (.app true) := by decide

/-- SubblocksMoveTheCursor: a skipped chain and an image's chain; the length byte absent, 0, the least and the
largest. -/
theorem witness_SubblocksMoveTheCursor :
    inByte (input [] 0 (.chain (.skip 0))) 0 = none ∧ inByte (input [0#8] 0 (.chain .image)) 0 = some 0#8 ∧
    (inByte (input [1#8, 7#8] 0 (.chain (.skip 0))) 0 = some 1#8 ∧ (1#8 : Byte) ≠ 0#8) ∧
    inByte (input [255#8] 0 (.chain .image)) 0 = some 255#8 ∧
    (input [0x02#8] 0 (.chain (.skip 0))).engine = .parse (.chain (.skip 0)) ∧
    (input [0x02#8] 0 (.chain .image)).engine = .parse (.chain .image) := by decide

/-- SkipChainOnlyMovesPos: sub-blocks of two and one bytes after a comment's tag and label; the empty chain; an input
that ends after a sub-block, inside one, and before the first. -/
theorem witness_SkipChainOnlyMovesPos :
    SubblocksOk [[7#8, 0#8], [9#8]] ∧
    (input [0x21#8, 0xFE#8, 2#8, 7#8, 0#8, 1#8, 9#8, 0#8] 0 (.chain (.skip 2))).Holds 2 (chainOf [[7#8, 0#8], [9#8]]) ∧
    SubblocksOk [] ∧ (input [0#8] 0 (.chain (.skip 0))).Holds 0 (chainOf []) ∧
    (input [0x21#8, 0xFE#8, 2#8, 7#8, 0#8, 1#8, 9#8] 0 (.chain (.skip 2))).HoldsCut 2 [[7#8, 0#8], [9#8]] ∧
    (input [0x21#8, 0xFE#8, 2#8, 7#8] 0 (.chain (.skip 2))).HoldsCut 2 [[7#8, 0#8]] ∧
    (input [0x21#8, 0xFE#8] 0 (.chain (.skip 2))).HoldsCut 2 [] := by
  simp only [SubblocksOk, State.Holds, State.HoldsCut]; decide

/-- ImageChainConcatenatesAndCommits: the same chain as image data; capacities it just fits; an input that ends inside
it. -/
theorem witness_ImageChainConcatenatesAndCommits :
    SubblocksOk [[7#8, 0#8], [9#8]] ∧ (input [] 0 .imgData).engine = .parse .imgData ∧
    (input [2#8, 7#8, 0#8, 1#8, 9#8, 0#8] 0 .imgData).Holds 0 (chainOf [[7#8, 0#8], [9#8]]) ∧
    (input [2#8, 7#8, 0#8, 1#8] 0 .imgData).HoldsCut 0 [[7#8, 0#8], [0#8]] ∧
    Config.fits (some 3) (0 + ([[7#8, 0#8], [9#8]] : List (List Byte)).flatten.length) = true ∧
    Config.fits (some 1) ((input [] 0 .imgData).frames.length + 1) = true := by
  simp only [SubblocksOk, State.Holds, State.HoldsCut]; decide

/-- ExhaustedInputFailsAtTheFirstCheckedRead: an input that ends at each of the ten places. -/
theorem witness_ExhaustedInputFailsAtTheFirstCheckedRead :
    (∀ j, j < 5 → inByte (input [0x47#8, 0x49#8, 0x46#8, 0x38#8, 0x39#8] 0 .sig) j = Config.sig[j]?) ∧
    (input [] 0 .block).host.len ≤ 0 ∧
    (inByte (input [0x21#8] 0 .block) 0 = some 0x21#8 ∧ (input [0x21#8] 0 .block).host.len = 0 + 1) ∧
    (inByte (input [0x21#8, 0xF9#8, 0#8] 0 .block) 1 = some 0xF9#8 ∧
      (input [0x21#8, 0xF9#8, 0#8] 0 .block).host.len ≤
        0 + 3 + ((inByte (input [0x21#8, 0xF9#8, 0#8] 0 .block) 2).getD 0#8).toNat) ∧
    (inByte (input [0x21#8, 0xFF#8] 0 .block) 1 = some 0xFF#8 ∧ (input [0x21#8, 0xFF#8] 0 .block).host.len = 0 + 2) ∧
    (input (List.replicate 14 0#8) 0 (.app true)).host.len = 0 + 14 ∧
    (inByte (input (List.replicate 14 0#8 ++ [3#8]) 0 (.app true)) 14 = some 3#8 ∧
      (input (List.replicate 14 0#8 ++ [3#8]) 0 (.app true)).host.len = 0 + 15) ∧
    (inByte (input (List.replicate 14 0#8 ++ [3#8, 1#8, 5#8, 0#8]) 0 (.app true)) 15 = some 1#8 ∧
      (input (List.replicate 14 0#8 ++ [3#8, 1#8, 5#8, 0#8]) 0 (.app true)).host.len ≤ 0 + 18) ∧
    (input [0#8] 0 (.chain (.skip 1))).host.len ≤ 1 ∧ (input [0#8] 1 (.chain .image)).host.len ≤ 1 ∧ (input [0#8] 1 .mcs).host.len ≤ 1 := by decide

/-- PosStaysNearTheInput: a parser at the trailer. -/
theorem witness_PosStaysNearTheInput : atTrailer.Inv ∧ atTrailer.PosOk ∧ isNext (step atTrailer) (fun _ => true) = true :=
  ⟨atTrailer_inv.1, atTrailer_inv.2, by decide⟩

/-- RunStartsFresh: a frame with a payload, interlaced, its caches empty. -/
theorem witness_RunStartsFresh :
    (doc [frame2i]).status.docValid = true ∧
    (doc [frame2i]).frames[0]? = some frame2i ∧
    frame2i.dec = none ∧ frame2i.rawLen ≠ 0 ∧
    frame2i.dei = .empty ∧
    (Caller.deinterlace, Instr.deinterlace) ∈
      [(Caller.decode, Instr.decode), (.deinterlace, .deinterlace), (.compose, .compose)] ∧
    Config.fits State.reset.caps.pix (2 * 2) = true ∧ Config.fits noPixels.pix (2 * 2) = false := by decide

/-- ClearCodeResetsTheWidths, FirstDataCodeEmitsItself: a frame, the largest root, one pixel to go. -/
theorem witness_FirstDataCodeEmitsItself :
    run2.frames[run2.host.argFrame]? = some frame2 ∧ (255#12).toNat < 256 ∧
    ([1#8, 1#8, 1#8] : List Byte).length < 2 * 2 := by decide

/-- DataCodeEmitsItsString: an entry and a root of a small dictionary; a full dictionary and its last entry; a stack
that takes the string, and one that does not (test_stack_depth). -/
theorem witness_DataCodeEmitsItsString :
    (2 ≤ 2 ∧ 2 ≤ 8 ∧ run3.lzw.Ok 2 3 (npix run3) ∧ run3.lzw.prev = some 1#12 ∧ (6#12).toNat < run3.lzw.avail ∧
      (6#12).toNat ≠ run3.lzw.clear ∧ (6#12).toNat ≠ run3.lzw.eoi ∧ (0#12).toNat < run3.lzw.avail) ∧
    (runFull.lzw.Ok 8 2 (npix runFull) ∧ runFull.lzw.prev = some 7#12 ∧ (4095#12).toNat < runFull.lzw.avail ∧
      (4095#12).toNat ≠ runFull.lzw.clear ∧ (4095#12).toNat ≠ runFull.lzw.eoi) ∧
    (([0#8, 1#8] : List Byte).length ≤ stackOfTwo.stackDepth ∧
      { stackOfTwo with stackDepth := 1 }.stackDepth < ([0#8, 1#8] : List Byte).length) :=
  ⟨⟨by decide, by decide, run3_ok, rfl, by decide⟩, ⟨runFull_ok, rfl, by decide, by decide, by decide⟩, by decide⟩

/-- KwkwkCodeRepeatsTheFirstPixel: the run of R232's example; a stack that takes the string, and one that does not. -/
theorem witness_KwkwkCodeRepeatsTheFirstPixel :
    2 ≤ 2 ∧ 2 ≤ 8 ∧ run2.lzw.Ok 2 2 (npix run2) ∧ run2.lzw.prev = some 1#12 ∧ run2.lzw.avail < 4096 ∧
    ([1#8] : List Byte).length + 1 ≤ stackOfTwo.stackDepth ∧
    isRefused (exec .dataKwkwk { run2 with caps := { stackOfTwo with stackDepth := 1 } }) .stackDepth = true :=
  ⟨by decide, by decide, run2_ok, rfl, by decide, by decide, by decide⟩

/-- DictionaryAddGrowsTheWidth: a full dictionary; the add that reaches `2^CW`; one that does not. -/
theorem witness_DictionaryAddGrowsTheWidth :
    4096 ≤ fullRun.avail ∧ (run3.lzw.avail < 4096 ∧ run3.lzw.avail + 1 = 2 ^ run3.lzw.cw ∧ run3.lzw.cw < 12) ∧
    run2.lzw.avail + 1 ≠ 2 ^ run2.lzw.cw := by decide

/-- EmissionStopsAtThePixelCount: a stack that just fits, and one that does not. -/
theorem witness_EmissionStopsAtThePixelCount :
    run2.lzw.out.length ≤ 4 ∧ 1 + ([1#8, 1#8, 1#8] : List Byte).length ≤ 4 ∧
    4 < 1 + ([1#8, 1#8, 1#8, 1#8] : List Byte).length := by decide

/-- WidthIsTheLengthOfThePointer: the narrowest and the widest code; a step of a run. -/
theorem witness_WidthIsTheLengthOfThePointer :
    (run2.lzw.Ok 2 2 (npix run2) ∧ runFull.lzw.Ok 8 2 (npix runFull)) ∧
    (run2.Inv ∧ isNext (step run2) (fun t => decide (t.engine = .lzw .decode)) = true) :=
  ⟨⟨run2_ok, runFull_ok⟩, run2_inv, by decide⟩

/-- CodesSpellBoundedStrings: the largest root and the largest entry. -/
theorem witness_CodesSpellBoundedStrings :
    run3.lzw.dict.Ok 4 7 ∧ (3#12).toNat < 4 ∧ (4 + 2 ≤ (6#12).toNat ∧ (6#12).toNat < 7) :=
  ⟨run3_ok.dict, by decide, by decide⟩

/-- DecodedPixelsAreBelowClear: the end of a run for DECODE and for DEINTERLACE, which fills both slots. -/
theorem witness_DecodedPixelsAreBelowClear :
    (run2End.Inv ∧ run2End.engine = .lzw .decode ∧ run2End.lzw.ended = true ∧
      run2End.frames[run2End.host.argFrame]? = some frame2 ∧
      isNext (step run2End) (fun t => t.frames[run2End.host.argFrame]?.isSome) = true) ∧
    (run2EndDei.Inv ∧ run2EndDei.engine = .lzw .deinterlace ∧
      isNext (step run2EndDei) (fun t => decide (t.frames.map (·.dei) = [.valid [1#8, 0#8, 0#8, 0#8]])) = true) :=
  ⟨⟨run2End_inv, rfl, rfl, rfl, by decide⟩, run2EndDei_inv, rfl, by decide⟩

/-- DeinterlaceReordersTheFourPasses: the first and the last transmitted row of ten. -/
theorem witness_DeinterlaceReordersTheFourPasses :
    (rowOrder 10)[0]? = some 0 ∧ (rowOrder 10)[9]? = some 9 ∧ 0 < 1 := by decide

/-- ComposeMapsEveryPixel: a decoded frame with each state of its second slot; an empty payload; within and
beyond the capacity. -/
theorem witness_ComposeMapsEveryPixel :
    (doc [frame10]).status.docValid = true ∧ (doc [frame10]).frames[0]? = some frame10 ∧
    (frame10.dec = some (frame10.dec.getD []) ∧ frame10.interlace = true ∧ frame10.dei = .empty) ∧
    ({ frame10 with dei := .valid rows10 } : Frame).dei = .valid rows10 ∧
    ({ frame10 with dei := .folded } : Frame).dei = .folded ∧
    (({ frame2 with raw := [], rawLen := 0 } : Frame).dec = none ∧ ({ frame2 with raw := [], rawLen := 0 } : Frame).rawLen = 0 ∧
      ({ frame2 with raw := [], rawLen := 0 } : Frame).dei = .empty) ∧
    Config.fits (doc [frame10]).caps.pix (1 * 10) = true ∧ Config.fits noPixels.pix (1 * 10) = false := by decide

/-- A document whose frame is deinterlaced, with the `OVERWRITE` bit set. -/
def docFold : State := { doc [{ frame10 with dei := .valid rows10 }] with host := ⟨0, 0, 1, 0⟩ }

/-- FoldDoesNotChangeTheImage: all three commands answer. -/
theorem witness_FoldDoesNotChangeTheImage :
    docFold.status.docValid = true ∧ overwrite docFold = true ∧
    docFold.frames[docFold.host.argFrame]? = some { frame10 with dei := .valid rows10 } ∧
    isNext (exec .compose docFold) (fun _ => true) = true ∧
    isNext (exec .deinterlace docFold) (fun u => isNext (exec .compose u) (fun _ => true)) = true := by decide

/-- UsageErrorsChangeNothingElse: no document; the first index beyond the table; a frame that is not interlaced. -/
theorem witness_UsageErrorsChangeNothingElse :
    State.reset.status.docValid = false ∧
    ({ doc [frame2] with host := ⟨0, 1, 0, 0⟩ }.status.docValid = true ∧ (doc [frame2]).frames.length ≤ 1) ∧
    ((doc [frame2]).status.docValid = true ∧ (doc [frame2]).frames[0]? = some frame2 ∧ frame2.interlace = false) := by
  decide

/-- DecodeWithoutARun: a full cache; an empty payload, within and beyond the capacity. -/
theorem witness_DecodeWithoutARun :
    (doc [frame10]).status.docValid = true ∧ (doc [frame10]).frames[0]? = some frame10 ∧ frame10.dec ≠ none ∧
    ({ frame2 with raw := [], rawLen := 0 } : Frame).dec = none ∧ ({ frame2 with raw := [], rawLen := 0 } : Frame).rawLen = 0 ∧
    Config.fits State.reset.caps.pix (2 * 2) = true ∧ Config.fits noPixels.pix (2 * 2) = false := by decide

/-- DeinterlaceFillsShowsOrFolds: an empty slot with its reordered rows, a full one, a folded one; both values of the
bit; an empty payload; a capacity it is beyond. -/
theorem witness_DeinterlaceFillsShowsOrFolds :
    (frame10.dei = .empty ∧ rows10 = deinterlaceRows (fun i => (frame10.dec.getD [])[i]?.getD 0#8) 1 10) ∧
    frame10.interlace = true ∧ (doc [frame10]).host.argFlags.getLsbD 0 = false ∧ docFold.host.argFlags.getLsbD 0 = true ∧
    ({ frame10 with dei := .valid rows10 } : Frame).dei = .valid rows10 ∧
    ({ frame10 with dei := .folded } : Frame).dei = .folded ∧
    (({ frame10 with raw := [], rawLen := 0, dec := none } : Frame).dec = none ∧ ({ frame10 with raw := [], rawLen := 0, dec := none } : Frame).rawLen = 0 ∧
      ({ frame10 with raw := [], rawLen := 0, dec := none } : Frame).dei = .empty) ∧
    Config.fits State.reset.caps.pix (1 * 10) = true ∧ Config.fits noPixels.pix (1 * 10) = false := by decide

/-- FlagRegistersReadAsTheirBits: HDR_LSD answers; an idle machine with an addressed frame. -/
theorem witness_FlagRegistersReadAsTheirBits :
    isNext (exec (.hdrLsd 2 2 0xA9 3 4) State.reset) (fun t => t.screen.flags == 0xA9) = true ∧
    (doc [frame10]).engine = .idle ∧ (doc [frame10]).docHidden = false ∧
    (doc [frame10]).frames[(doc [frame10]).host.argFrame]? = some frame10 := by decide

/-- HostReadsAreRefused: during a run; after a failed PARSE, at the edges of the ranges; an index without a frame; the
edges of the numbers without a register; no window and its end. -/
theorem witness_HostReadsAreRefused :
    run2.engine ≠ .idle ∧
    ({ State.reset with docHidden := true }.engine = .idle ∧ { State.reset with docHidden := true }.docHidden = true ∧
      0x0A ≤ 0x0A ∧ 0x11 ≤ 0x11 ∧ 0x20 ≤ 0x2B) ∧
    (State.reset.engine = .idle ∧ State.reset.docHidden = false ∧ State.reset.frames.length ≤ State.reset.host.argFrame) ∧
    (0x1B ≤ 0x1F ∧ 0x2C ≤ 0x2C) ∧
    (State.reset.result.sel = .none ∧ { State.reset.result with sel := .rgba, len := 4 }.len ≤ 4) := by decide

/-- HostReadsAnswerTheMap: a decoded, deinterlaced frame with palettes, shown by each of the three windows. -/
theorem witness_HostReadsAnswerTheMap :
    let f : Frame := { frame10 with dei := .valid rows10, lpal := [⟨1, 2, 3⟩] }
    let s : State := { doc [f] with gpal := [⟨4, 5, 6⟩] }
    let w : OutSel → State := fun o =>
      { s with result := { s.result with sel := o, len := 4, rgba := some [1#8, 2#8, 3#8, 255#8] } }
    s.engine = .idle ∧ s.docHidden = false ∧ s.frames[s.host.argFrame]? = some f ∧ s.gpal[0]? = some ⟨4, 5, 6⟩ ∧
    f.lpal[0]? = some ⟨1, 2, 3⟩ ∧ f.raw[0]? = some 0#8 ∧ 0 < f.rawLen ∧
    readWindow (w .dec) 1 = .value 1#8 ∧ readWindow (w .dei) 1 = .value 5#8 ∧ readWindow (w .rgba) 3 = .value 255#8 := by
  decide

/-- InstructionsKeepTheirFrames: an item, a command and a code that answer. -/
theorem witness_InstructionsKeepTheirFrames :
    (isNext (exec .trailer State.reset) (fun _ => true) = true ∧ Instr.trailer.standsAt (.container .block 0) = true) ∧
    (isNext (exec .decode (doc [frame10])) (fun _ => true) = true ∧
      Instr.decode ∈ [Instr.decode, .deinterlace, .compose]) ∧
    (isNext (exec .eoi run2) (fun _ => true) = true ∧ Instr.eoi.standsAt (.lzw (lzwCtx run2)) = true) := by decide

/-- StepKeepsTheInvariant, StepAlwaysAnswers: an idle machine, a parser and a run that meet the invariant; the
defaults are ample. -/
theorem witness_StepKeepsTheInvariant :
    ((doc [frame2]).Inv ∧ atTrailer.Inv ∧ run2.Inv) ∧ isNext (step run2) (fun _ => true) = true ∧ run2.caps.Ample :=
  ⟨⟨doc2_inv, atTrailer_inv.1, run2_inv⟩, by decide, defaults_ample⟩

/-- EveryCommandTerminates, SecondDecodeDoesNotRunAgain, ComposeIsDecodeThenCompose: a document between commands, on
which all of the commands answer. -/
theorem witness_commands :
    (doc [frame2]).Inv ∧ (doc [frame2]).caps.Ample ∧ (doc [frame2]).engine = .idle ∧ (doc [frame2]).status.docValid = true ∧
    (doc [frame2]).frames[(doc [frame2]).host.argFrame]? = some frame2 ∧
    isNext (runCommand 2 (doc [frame2])) (fun t => isNext (runCommand 2 t) (fun _ => true)) = true ∧
    isNext (runCommand 4 (doc [frame2])) (fun _ => true) = true ∧
    isNext (runCommand 2 (doc [frame2])) (fun u => isNext (runCommand 4 u) (fun _ => true)) = true :=
  ⟨doc2_inv, defaults_ample, rfl, rfl, rfl, by decide, by decide, by decide⟩

/-- CachesAreFilledOnce, and ComposeIsDecodeThenCompose of DEINTERLACE: a document with a frame still to decode, one
that is deinterlaced and one that is folded. -/
theorem witness_CachesAreFilledOnce :
    (doc [frame2i, { frame10 with dei := .valid rows10 }, { frame10 with dei := .folded }]).Inv ∧
    overwrite (doc [frame2i]) = false ∧
    isNext (runCommand 3 (doc [frame2i, { frame10 with dei := .valid rows10 }])) (fun _ => true) = true ∧
    isNext (runCommand 2 (doc [frame2i])) (fun u => isNext (runCommand 3 u) (fun _ => true)) = true ∧
    (∀ f, (doc [frame2i]).frames[(doc [frame2i]).host.argFrame]? = some f → f.interlace = true) := by
  refine ⟨{ mem := rfl, dict := rfl, gpal := fun _ => rfl, hidden := fun h => by cases h
            parse := fun _ h => by cases h
            run := fun _ h => by cases h
            frames := ?_ },
    by decide, by decide, by decide, by intro f h; obtain rfl : frame2i = f := by injection h
                                        rfl⟩
  intro f hf
  simp only [doc, List.mem_cons, List.mem_nil_iff, or_false] at hf
  rcases hf with rfl | rfl | rfl
  · exact frame2i_ok
  all_goals exact
    { gce := ⟨fun _ => ⟨rfl, rfl, rfl, rfl⟩, fun _ => rfl⟩, mcs := by unfold Frame.McsOk; decide, lpal := rfl, rawLen := rfl
      decLen := by intro d h; injection h with h; subst h; exact .inl rfl
      deiLen := by intro d h; cases h <;> rfl
      deiAfterDec := fun h => by cases h
      deiInterlaced := fun _ => rfl }

/-- ParseLeavesADocumentOrAnError: PARSE answers, with either outcome. -/
theorem witness_ParseLeavesADocumentOrAnError :
    (doc [frame2]).Inv ∧ (doc [frame2]).engine = .idle ∧
    isNext (runCommand 1 (doc [frame2])) (fun t => t.status.err && !t.status.docValid) = true ∧
    isNext (runCommand 1 (input minimalStream 0 .sig)) (fun t => t.status.docValid) = true :=
  ⟨doc2_inv, rfl, by decide, by decide⟩

end Sys2Proof.Tests
end

section
/-! PROOFS. The stops of a step (R6, R220, R243, U12): from the invariant the only answer that is not a next state is
the refusal of a capacity that is reached (`OnlyCapacityStops`). One lemma for each place of the three streams; a step
is one of them by `step_cases`. -/

namespace Sys2Proof.Machine

/-! ### Refusals of a capacity -/

/-- The refusals of a state's capacities, each with the capacity that is reached (R6, U12, log 12). -/
inductive CapacityReached (s : State) : Refusal → Prop where
  | input (h : Config.fits s.caps.input s.host.len = false) : CapacityReached s .inCapacity
  | frames (h : Config.fits s.caps.frames (s.frames.length + 1) = false) : CapacityReached s .frameCapacity
  | raw (n : Nat) (hlo : 1 ≤ n) (hhi : n ≤ 255) (h : Config.fits s.caps.raw (rawTotal s + n) = false) :
      CapacityReached s .rawCapacity
  | pix (h : Config.fits s.caps.pix (npix s) = false) : CapacityReached s .pixCapacity
  | stack (h : s.caps.stackDepth < 4091) : CapacityReached s .stackDepth

/-- An answer that is a next state, or the refusal of a capacity that `s` reaches. -/
def OnlyCapacityStops (s : State) : Answer → Prop
  | .next _ => True
  | .fault _ => False
  | .refused r => CapacityReached s r

/-- Ample capacities are not reached: a frame has at most 65535 * 65535 pixels (R6, R243). -/
theorem CapacityReached.not_ample {s : State} {r : Refusal} (h : CapacityReached s r) : ¬ s.caps.Ample := by
  intro ha
  cases h with
  | input h => simp [ha.input] at h
  | frames h => simp [ha.frames] at h
  | raw n _ _ h => simp [ha.raw] at h
  | pix h => simp [fits_npix ha] at h
  | stack h => exact absurd ha.stackDepth (by omega)

/-- What a capacity is compared with: `LEN`, the frames, the pending record and `ARG_FRAME`. -/
theorem CapacityReached.of_eq {s u : State} {r : Refusal} (h : CapacityReached u r) (hcaps : u.caps = s.caps)
    (hlen : u.host.len = s.host.len) (harg : u.host.argFrame = s.host.argFrame) (hframes : u.frames = s.frames)
    (hpend : u.pendRec = s.pendRec) : CapacityReached s r := by
  have hraw : rawTotal u = rawTotal s := by simp only [rawTotal, hframes, hpend]
  have hpix : npix u = npix s := by simp only [npix, curFrame, hframes, harg]
  cases h with
  | input h => exact .input (hcaps ▸ hlen ▸ h)
  | frames h => exact .frames (hcaps ▸ hframes ▸ h)
  | raw n hlo hhi h => exact .raw n hlo hhi (hcaps ▸ hraw ▸ h)
  | pix h => exact .pix (hcaps ▸ hpix ▸ h)
  | stack h => exact .stack (hcaps ▸ h)

/-- The capacities seen from a state that differs in nothing they are compared with. -/
theorem OnlyCapacityStops.of_eq {s u : State} {a : Answer} (h : OnlyCapacityStops u a) (hcaps : u.caps = s.caps)
    (hlen : u.host.len = s.host.len) (harg : u.host.argFrame = s.host.argFrame) (hframes : u.frames = s.frames)
    (hpend : u.pendRec = s.pendRec) : OnlyCapacityStops s a := by
  cases a with
  | next t => trivial
  | fault r => exact h
  | refused r => exact CapacityReached.of_eq h hcaps hlen harg hframes hpend

/-! ### Host commands: PARSE needs room for the input, a filled slot for the pixels -/

theorem execParse_onlyCapacityStops (s : State) : OnlyCapacityStops s (execParse s) := by
  unfold execParse
  split
  · trivial
  · next h => exact .input (by simpa using h)

theorem fillDecoded_onlyCapacityStops (c : Caller) (s : State) : OnlyCapacityStops s (fillDecoded c s) := by
  cases hfit : Config.fits s.caps.pix (npix s) with
  | true =>
    rw [fillDecoded_eq c hfit]
    split
    · trivial
    · split <;> trivial
  | false =>
    cases hfill : fillsSlot c (curFrame s) with
    | true => simpa [fillDecoded, hfill, hfit, OnlyCapacityStops] using CapacityReached.pix hfit
    | false => rw [fillDecoded_full hfill]; trivial

theorem execDecode_onlyCapacityStops (s : State) : OnlyCapacityStops (startCommand s) (execDecode s) := by
  simp only [execDecode]
  split
  · trivial
  · exact fillDecoded_onlyCapacityStops _ _

theorem execDeinterlace_onlyCapacityStops (s : State) :
    OnlyCapacityStops (startCommand s) (execDeinterlace s) := by
  simp only [execDeinterlace]
  split
  · trivial
  · split
    · trivial
    · split
      · trivial
      · exact fillDecoded_onlyCapacityStops _ _

theorem execCompose_onlyCapacityStops (s : State) : OnlyCapacityStops (startCommand s) (execCompose s) := by
  simp only [execCompose]
  split
  · trivial
  · exact fillDecoded_onlyCapacityStops _ _

theorem exec_command_onlyCapacityStops (code : Byte) (s : State) :
    OnlyCapacityStops s (exec (decodeCommand code) s) := by
  unfold decodeCommand
  split
  · exact execParse_onlyCapacityStops s
  · split
    · exact (execDecode_onlyCapacityStops s).of_eq rfl rfl rfl rfl rfl
    · split
      · exact (execDeinterlace_onlyCapacityStops s).of_eq rfl rfl rfl rfl rfl
      · split
        · exact (execCompose_onlyCapacityStops s).of_eq rfl rfl rfl rfl rfl
        · trivial

/-! ### Container items: only a chain of image data needs a capacity -/

theorem execHdrSig_onlyCapacityStops (bytes : List (Option Byte)) (s : State) :
    OnlyCapacityStops s (execHdrSig bytes s) := by
  unfold execHdrSig
  split <;> trivial

theorem execExtGce_onlyCapacityStops (len pk : Byte) (delay : Half) (index : Byte) (term : Option Byte) (s : State) :
    OnlyCapacityStops s (execExtGce len pk delay index term s) := by
  unfold execExtGce
  split <;> trivial

theorem execExtApp_onlyCapacityStops (len : Option Byte) (ident : List (Option Byte)) (s : State) :
    OnlyCapacityStops s (execExtApp len ident s) := by
  unfold execExtApp
  split <;> trivial

theorem execExtAppNs_onlyCapacityStops (size ident : Option Byte) (loops : Half) (term : Option Byte) (s : State) :
    OnlyCapacityStops s (execExtAppNs size ident loops term s) := by
  unfold execExtAppNs
  split
  · trivial
  · split
    · trivial
    · split <;> trivial

theorem execMcs_onlyCapacityStops (m : Option Byte) (s : State) : OnlyCapacityStops s (execMcs m s) := by
  unfold execMcs
  split
  · trivial
  · split <;> trivial

/-- A sub-block of a length byte's range meets `RAW_CAPACITY` at most (R174, R178). -/
theorem execSubblock_onlyCapacityStops {body : Option (List Byte)} (s : State)
    (hbody : ∀ d, body = some d → 1 ≤ d.length ∧ d.length ≤ 255) : OnlyCapacityStops s (execSubblock body s) := by
  unfold execSubblock
  split
  · trivial
  · next d =>
    obtain ⟨hlo, hhi⟩ := hbody d rfl
    split
    · trivial
    · split
      · trivial
      · next h => exact .raw d.length hlo hhi (by simpa using h)

theorem execSubblockEnd_onlyCapacityStops (s : State) : OnlyCapacityStops s (execSubblockEnd s) := by
  unfold execSubblockEnd
  split
  · trivial
  · split
    · trivial
    · next h => exact .frames (by simpa using h)

theorem exec_extension_onlyCapacityStops (rd : Nat → Option Byte) (s : State) :
    OnlyCapacityStops s (exec (decodeExtension rd) s) := by
  unfold decodeExtension
  split
  · exact execExtGce_onlyCapacityStops ..
  · split
    · exact execExtApp_onlyCapacityStops ..
    · split
      · trivial
      · split <;> trivial

theorem exec_block_onlyCapacityStops (rd : Nat → Option Byte) (s : State) :
    OnlyCapacityStops s (exec (decodeBlock rd) s) := by
  unfold decodeBlock
  split
  · exact exec_extension_onlyCapacityStops rd s
  · split
    · trivial
    · split <;> trivial

/-- A length byte that is not zero is 1 to 255 (R101). -/
theorem inBytes_length_range (rd : Nat → Option Byte) (o : Nat) {n : Byte} (h : n ≠ 0#8) :
    1 ≤ (inBytes rd o n.toNat).length ∧ (inBytes rd o n.toNat).length ≤ 255 := by
  simp only [inBytes, List.length_map, List.length_range]
  bv_omega

theorem exec_chain_onlyCapacityStops (rd : Nat → Option Byte) (s : State) :
    OnlyCapacityStops s (exec (decodeChain rd) s) := by
  unfold decodeChain
  split
  · trivial
  · split
    · exact execSubblockEnd_onlyCapacityStops s
    · next hn =>
      refine execSubblock_onlyCapacityStops (body := some _) s fun d hd => ?_
      obtain rfl := Option.some.inj hd
      exact inBytes_length_range rd 1 hn

theorem exec_item_onlyCapacityStops (ph : ParsePhase) (size : BitVec 3) (rd : Nat → Option Byte) (s : State) :
    OnlyCapacityStops s (exec (decodeItem ph size rd) s) := by
  cases ph with
  | sig => exact execHdrSig_onlyCapacityStops ..
  | lsd => trivial
  | gct => trivial
  | block => exact exec_block_onlyCapacityStops rd s
  | app ns =>
    cases ns with
    | true => exact execExtAppNs_onlyCapacityStops ..
    | false => trivial
  | lct => trivial
  | mcs => exact execMcs_onlyCapacityStops ..
  | imgData => trivial
  | chain k => exact exec_chain_onlyCapacityStops rd s

/-! ### Codes: a string of a run has at most 4091 pixels (R243), and a data code has a previous one (R105) -/

/-- The code fetch keeps the invariants of the run (R224, R241). -/
theorem advanceCode_lzw_ok {s : State} {mcs rawLen n : Nat} (hl : s.lzw.Ok mcs rawLen n)
    (hbits : s.lzw.cw ≤ 8 * rawLen - s.lzw.bitpos) : (advanceCode s).lzw.Ok mcs rawLen n :=
  hl.withPos _ (s.lzw.bitpos + s.lzw.cw) s.lzw.ended (by have := hl.bitpos; omega)

/-- The previous code of a run starts a walk (R241, 4). -/
theorem Lzw.Ok.prev_codeOk {l : Lzw} {mcs rawLen n : Nat} (hl : l.Ok mcs rawLen n) {p : Code}
    (hp : l.prev = some p) : CodeOk l.clear l.avail p := by
  obtain ⟨hlt, hclear, heoi, -⟩ := hl.prev p hp
  have := hl.eoi
  unfold CodeOk
  omega

/-- The clear code of a run is at least 4 (R38). -/
theorem Lzw.Ok.four_le_clear {l : Lzw} {mcs rawLen n : Nat} (hl : l.Ok mcs rawLen n) (hmcs : 2 ≤ mcs) :
    4 ≤ l.clear :=
  hl.clear ▸ Nat.pow_le_pow_right (n := 2) (by omega) hmcs

/-- A walk that does not end has less room than the pixels of its code's string (R243). -/
theorem room_lt_of_walk_eq_none {d : Dict} {clear avail n : Nat} {c : Code} {st : List Byte} (hd : d.Ok clear avail)
    (hc : CodeOk clear avail c) (h : walk d clear n c st = none) : n < max 1 (c.toNat - clear) := by
  by_contra hn
  obtain ⟨root, str, hw, -⟩ := walk_ok hd (n := n) st hc (by omega) (by omega)
  simp [hw] at h

/-- DATA with a previous code: the string of a code below 4096 has at most 4091 pixels. -/
theorem execData_onlyCapacityStops {s : State} {mcs rawLen n : Nat} (hl : s.lzw.Ok mcs rawLen n) (hmcs : 2 ≤ mcs)
    {p code : Code} (hp : s.lzw.prev = some p) (hc : CodeOk s.lzw.clear s.lzw.avail code) :
    OnlyCapacityStops s (execData code s) := by
  have h4 := hl.four_le_clear hmcs
  unfold execData
  rw [hp, hl.stack]
  simp only [stackRoom, List.length_nil, Nat.sub_zero]
  split
  · next hw =>
    have hroom := room_lt_of_walk_eq_none hl.dict hc hw
    exact .stack (by omega)
  · trivial

/-- DATA_KWKWK with a previous code and a free entry: `PREV` is below 4095, so its string has at most 4090 pixels,
and `FIRST` is one more. -/
theorem execDataKwkwk_onlyCapacityStops {s : State} {mcs rawLen n : Nat} (hl : s.lzw.Ok mcs rawLen n)
    (hmcs : 2 ≤ mcs) {p : Code} (hp : s.lzw.prev = some p) (havail : s.lzw.avail < Config.maxCodes) :
    OnlyCapacityStops s (execDataKwkwk s) := by
  have h4 := hl.four_le_clear hmcs
  have hmax : Config.maxCodes = 4096 := rfl
  obtain ⟨hlt, -⟩ := hl.prev p hp
  unfold execDataKwkwk push
  rw [hp, hl.stack]
  by_cases hdepth : 0 < s.caps.stackDepth
  · simp only [List.length_nil, hdepth, if_true, stackRoom, List.length_singleton]
    split
    · next hw =>
      have hroom := room_lt_of_walk_eq_none hl.dict (hl.prev_codeOk hp) hw
      exact .stack (by omega)
    · trivial
  · simp only [List.length_nil, hdepth, if_false]
    exact .stack (by omega)

/-- The class of a code, tested as R105 does, gives DATA and DATA_KWKWK a previous code. -/
theorem exec_code_onlyCapacityStops {s : State} {mcs rawLen n : Nat} (hl : s.lzw.Ok mcs rawLen n) (hmcs : 2 ≤ mcs)
    {q : LzwCtx} (hclear : q.clear = s.lzw.clear) (havail : q.avail = s.lzw.avail)
    (hprev : q.hasPrev = s.lzw.prev.isSome) {c : Nat} (hc : c < Config.maxCodes) :
    OnlyCapacityStops s (exec (decodeCode q c) s) := by
  unfold decodeCode
  split
  · trivial
  · next hnotClear =>
    split
    · trivial
    · next hnotEoi =>
      split
      · trivial
      · next hnotBad =>
        split
        · trivial
        · next hsome =>
          obtain ⟨p, hp⟩ : ∃ p, s.lzw.prev = some p := by
            rw [← Option.isSome_iff_exists, ← hprev]
            simpa using hsome
          split
          · exact execDataKwkwk_onlyCapacityStops hl hmcs hp (by omega)
          · refine execData_onlyCapacityStops hl hmcs hp ?_
            have hval : (BitVec.ofNat 12 c).toNat = c := Nat.mod_eq_of_lt hc
            unfold CodeOk
            omega

/-- A code of the run at hand: its width is at most 12 (R38), its frame's code size at least 2 (R177). -/
theorem exec_fetchedCode_onlyCapacityStops {s : State} (hs : s.Inv) {c : Caller} (hrun : s.RunOk c)
    (hbits : s.lzw.cw ≤ 8 * (curFrame s).rawLen - s.lzw.bitpos) :
    OnlyCapacityStops s
      (exec (decodeCode (lzwCtx s) (codeAt (rawReader s) s.lzw.bitpos s.lzw.cw)) (advanceCode s)) := by
  have hmcs : 2 ≤ (curFrame s).mcs.toNat := (hs.frames _ (curFrame_mem hrun.index)).mcs.1
  have hcode : codeAt (rawReader s) s.lzw.bitpos s.lzw.cw < Config.maxCodes :=
    Nat.lt_of_lt_of_le (codeAt_lt _ _ _) (Nat.pow_le_pow_right (n := 2) (by omega) hrun.lzw.cwHi)
  exact (exec_code_onlyCapacityStops (s := advanceCode s) (advanceCode_lzw_ok hrun.lzw hbits) hmcs
    rfl rfl rfl hcode).of_eq rfl rfl rfl rfl rfl

/-! ### A step -/

/-- A step from the invariant stops only where a capacity is reached (R6, R220, R243, U12). -/
theorem step_onlyCapacityStops {s : State} (hs : s.Inv) : OnlyCapacityStops s (step s) := by
  obtain ⟨-, -, h⟩ | ⟨w, q, -, -, -, h⟩ | ⟨code, q, -, -, h⟩ | ⟨ph, -, h⟩ | ⟨c, -, -, h⟩ | ⟨c, -, -, -, h⟩ |
    ⟨c, -, -, -, -, h⟩ | ⟨c, hc, -, -, hbits, h⟩ := step_cases s <;> rw [h]
  · trivial
  · trivial
  · exact (exec_command_onlyCapacityStops code _).of_eq rfl rfl rfl rfl rfl
  · exact exec_item_onlyCapacityStops ..
  · trivial
  · trivial
  · trivial
  · exact exec_fetchedCode_onlyCapacityStops hs (hs.run c hc) hbits

/-- An answer from ample capacities is a next state. -/
theorem OnlyCapacityStops.next_of_ample {s : State} {a : Answer} (h : OnlyCapacityStops s a) (ha : s.caps.Ample) :
    ∃ t, a = .next t := by
  cases a with
  | next t => exact ⟨t, rfl⟩
  | fault r => exact h.elim
  | refused r => exact absurd ha (CapacityReached.not_ample h)

end Sys2Proof.Machine

open Sys2Proof.Machine in
/-- Settles O55: a step is one of the answers of `step_cases`, and each stops only at a capacity
(`step_onlyCapacityStops`); under ample capacities none is reached. -/
theorem stepAlwaysAnswers : Obligations.StepAlwaysAnswers := by
  unfold Obligations.StepAlwaysAnswers
  intro s hs
  have hstep := step_onlyCapacityStops hs
  refine ⟨hstep.next_of_ample, ?_⟩
  cases ha : step s with
  | next t => exact .inl ⟨t, rfl⟩
  | fault r => rw [ha] at hstep; exact hstep.elim
  | refused r =>
    rw [ha] at hstep
    cases hstep with
    | input h => exact .inr (.inl ⟨rfl, h⟩)
    | frames h => exact .inr (.inr (.inl ⟨rfl, h⟩))
    | raw n hlo hhi h => exact .inr (.inr (.inr (.inl ⟨rfl, n, hlo, hhi, h⟩)))
    | pix h => exact .inr (.inr (.inr (.inr (.inl ⟨rfl, h⟩))))
    | stack h => exact .inr (.inr (.inr (.inr (.inr ⟨rfl, h⟩))))
end

section
/-! PROOFS. Reset (R43) and the host's writes between commands (R22, R23, R382). -/

namespace Sys2Proof.Machine

/-- The engine of an idle block takes the host's oldest write that is not a command (R385, log 6). -/
theorem step_hostWrite {s : State} {w : HostWrite} {q : List HostWrite} (hidle : s.engine = .idle)
    (hq : s.hostq = w :: q) (hw : ∀ code, w ≠ .command code) :
    step s = .next (applyWrite w { s with hostq := q }) := by
  cases w with
  | command code => exact absurd rfl (hw code)
  | _ => simp [step, fetch, fetchHost, hidle, hq]

/-- A read of `IN` after a write to it (R60). -/
theorem Memory.read_write (m : Memory) (a o : Nat) (b : Byte) :
    (m.write a b).read o = if o = a then b else m.read o := by
  split
  · next h => rw [h, Memory.read_write_self]
  · next h => exact Memory.read_write_ne m b h

end Sys2Proof.Machine

open Sys2Proof.Machine in
/-- Settles O1: the reset state has each of these values by its definition; nothing is listed in its memories. -/
theorem resetRegisters : Obligations.ResetRegisters := by
  unfold Obligations.ResetRegisters
  refine ⟨rfl, rfl, rfl, rfl, rfl, rfl, rfl, rfl, rfl, rfl, rfl, rfl, rfl, rfl, rfl, rfl, rfl, rfl, rfl, rfl, rfl,
    fun _ => rfl, fun _ => rfl, rfl, rfl⟩

open Sys2Proof.Machine in
/-- Settles O2: the memories are empty, there is no frame and no document, and the engine is idle. -/
theorem invariantHoldsAtReset : Obligations.InvariantHoldsAtReset := by
  unfold Obligations.InvariantHoldsAtReset
  refine ⟨?_, trivial⟩
  exact {
    mem := State.reset_mem_wf
    dict := rfl
    frames := fun _ hf => absurd hf List.not_mem_nil
    gpal := fun hvalid => nomatch hvalid
    hidden := fun hhidden => nomatch hhidden
    parse := fun _ hparse => nomatch hparse
    run := fun _ hrun => nomatch hrun }

open Sys2Proof.Machine in
/-- Settles O13: the four writable numbers are the cases of `HostWrite.ofReg`; a write lands by `step_hostWrite`, and
a byte of the input by the laws of the memory. -/
theorem hostWritesLandBetweenCommands : Obligations.HostWritesLandBetweenCommands := by
  unfold Obligations.HostWritesLandBetweenCommands
  refine ⟨fun no v => ?_, fun s q n b hidle => ⟨?_, ?_, ?_, ?_, ?_⟩⟩
  · split
    · rfl
    · rfl
    · rfl
    · rfl
    · next h0 h1 h2 h8 =>
      unfold HostWrite.ofReg
      rw [if_neg h0, if_neg h1, if_neg h2, if_neg h8]
  · exact fun hq => step_hostWrite hidle hq (by simp)
  · exact fun hq => step_hostWrite hidle hq (by simp)
  · exact fun hq => step_hostWrite hidle hq (by simp)
  · exact fun hq => ⟨s.inMem.write n b, step_hostWrite hidle hq (by simp), fun o => Memory.read_write _ n o b,
      Memory.wf_write _ n b⟩
  · intro hq
    simp [step, fetch, fetchHost, hidle, hq]
end

section
/-! PROOFS. The items that start a chain, and `SkipChain` walked over whole and cut chains (R169, R171, R172, R174,
R178, R333). -/

namespace Sys2Proof.Machine

/-! ### Runs of steps -/

/-- The first step of a run. -/
theorem run_succ_of_step {M : Host.Core} {s u : M.State} (n : Nat) (hstep : M.step s = .next u) :
    M.run (n + 1) s = M.run n u := by
  rw [Host.Core.run, hstep]

/-- A run of one more step: the first step, and the run from there. -/
theorem runsTo_succ {n : Nat} {s t u : State} (hstep : step s = .next u) (hrun : runsTo n u t) :
    runsTo (n + 1) s t :=
  (run_succ_of_step (M := Sys2Proof.core) n hstep).trans hrun

/-- A run of no steps stays. -/
theorem runsTo_zero (s : State) : runsTo 0 s s := rfl

/-! ### What the parser reads next -/

/-- A step of the parser runs the item at hand (R160). -/
theorem step_parse {s : State} {ph : ParsePhase} (h : s.engine = .parse ph) :
    step s = exec (decodeItem ph (palSizeAt ph s) (itemReader ph s)) s := by
  simp [step, fetch, h]

/-- A block whose tag is `21` is an extension, told by its label (R164, R165). -/
theorem step_extension {s : State} (h : s.engine = .parse .block) (htag : inByte s s.pos = some 0x21#8) :
    step s = exec (decodeExtension (itemReader .block s)) s := by
  have hdecode : decodeBlock (itemReader .block s) = decodeExtension (itemReader .block s) := if_pos htag
  rw [step_parse h, ← hdecode]
  rfl

/-- The label of a Comment extension (R95). -/
theorem decodeExtension_comment {rd : Nat → Option Byte} (h : rd 1 = some 0xFE#8) :
    decodeExtension rd = .extComment := by
  simp [decodeExtension, h]

/-- The label of a Plain Text extension (R95). -/
theorem decodeExtension_ptext {rd : Nat → Option Byte} (h : rd 1 = some 0x01#8) :
    decodeExtension rd = .extPtext := by
  simp [decodeExtension, h]

/-- A length byte of a chain that is not zero is the number of data bytes after it (R101). -/
theorem decodeChain_subblock {rd : Nat → Option Byte} {n : Byte} (h : rd 0 = some n) (hn : n ≠ 0#8) :
    decodeChain rd = .subblock (some (inBytes rd 1 n.toNat)) := by
  simp [decodeChain, h, hn]

/-- A length byte of zero ends the chain (R101). -/
theorem decodeChain_end {rd : Nat → Option Byte} (h : rd 0 = some 0#8) : decodeChain rd = .subblockEnd := by
  simp [decodeChain, h]

/-- A length byte that is not there (R174). -/
theorem decodeChain_absent {rd : Nat → Option Byte} (h : rd 0 = none) : decodeChain rd = .subblock none := by
  simp [decodeChain, h]

/-! ### One step of `SkipChain` (R174) -/

/-- A sub-block is skipped: the cursor moves past its data. -/
theorem step_skip_subblock {s : State} {c : Nat} {n : Byte} (h : s.engine = .parse (.chain (.skip c)))
    (hn : n ≠ 0#8) (hlen : inByte s c = some n) : step s = .next (skipFrom (c + 1 + n.toNat) s) := by
  rw [step_parse h]
  show exec (decodeChain _) s = _
  rw [decodeChain_subblock (n := n) hlen hn]
  simp [exec, execSubblock, chainKind_of h, inBytes]

/-- The terminator ends the chain: `POS` is written from the cursor. -/
theorem step_skip_end {s : State} {c : Nat} (h : s.engine = .parse (.chain (.skip c)))
    (hend : inByte s c = some 0#8) : step s = .next (goto (c + 1) .block s) := by
  rw [step_parse h]
  show exec (decodeChain _) s = _
  rw [decodeChain_end hend]
  simp [exec, execSubblockEnd, chainKind_of h]

/-- A length byte that is not there is an error at its offset (R333). -/
theorem step_skip_absent {s : State} {c : Nat} (h : s.engine = .parse (.chain (.skip c)))
    (habsent : inByte s c = none) : step s = .next (s.afterParseError 0x23#8 c none) := by
  rw [step_parse h]
  show exec (decodeChain _) s = _
  rw [decodeChain_absent habsent]
  simp only [exec, execSubblock, chainKind_of h, chainAt_skip]
  rfl

/-! ### Chains in the input -/

/-- The length byte of a sub-block of 1 to 255 bytes is that number, and not the terminator (R101). -/
theorem subblock_lengthByte {b : List Byte} (h : 1 ≤ b.length ∧ b.length ≤ 255) :
    (BitVec.ofNat 8 b.length).toNat = b.length ∧ BitVec.ofNat 8 b.length ≠ 0#8 := by
  have htoNat : (BitVec.ofNat 8 b.length).toNat = b.length := by
    rw [BitVec.toNat_ofNat]
    omega
  refine ⟨htoNat, fun h0 => ?_⟩
  rw [h0] at htoNat
  simp at htoNat
  omega

theorem chainOf_cons (b : List Byte) (rest : List (List Byte)) :
    chainOf (b :: rest) = BitVec.ofNat 8 b.length :: (b ++ chainOf rest) := by
  simp [chainOf]

/-- The first byte held. -/
theorem State.Holds.head {s : State} {o : Nat} {x : Byte} {bytes : List Byte} (h : s.Holds o (x :: bytes)) :
    inByte s o = some x := by
  simpa using h 0 (by simp)

/-- The bytes held after the first ones. -/
theorem State.Holds.append_right {s : State} {o : Nat} {a b : List Byte} (h : s.Holds o (a ++ b)) :
    s.Holds (o + a.length) b := by
  intro k hk
  have hbyte := h (a.length + k) (by simp; omega)
  rw [List.getElem?_append_right (by omega), Nat.add_sub_cancel_left, ← Nat.add_assoc] at hbyte
  exact hbyte

/-- After the first sub-block of a chain the input holds the rest of it. -/
theorem State.Holds.chainOf_tail {s : State} {o : Nat} {b : List Byte} {rest : List (List Byte)}
    (h : s.Holds o (chainOf (b :: rest))) : s.Holds (o + 1 + b.length) (chainOf rest) := by
  rw [chainOf_cons, ← List.cons_append] at h
  have htail := h.append_right
  rw [List.length_cons, ← Nat.add_assoc, Nat.add_right_comm] at htail
  exact htail

/-- Where a chain is cut depends on the input only. -/
theorem State.HoldsCut.skipFrom {s : State} {o : Nat} {blocks : List (List Byte)} (cursor : Nat)
    (h : s.HoldsCut o blocks) : (skipFrom cursor s).HoldsCut o blocks := by
  induction blocks generalizing o with
  | nil => exact h
  | cons b rest ih =>
    obtain ⟨hlen, hdata, hrest⟩ := h
    exact ⟨hlen, hdata, ih hrest⟩

/-! ### Chains walked -/

/-- A whole chain is skipped (R174). -/
theorem skipChain_whole {s : State} {blocks : List (List Byte)} {c : Nat} (hok : SubblocksOk blocks)
    (hengine : s.engine = .parse (.chain (.skip c))) (hchain : s.Holds c (chainOf blocks)) :
    runsTo (blocks.length + 1) s (goto (c + (chainOf blocks).length) .block s) := by
  induction blocks generalizing s c with
  | nil => exact runsTo_succ (step_skip_end hengine hchain.head) (runsTo_zero _)
  | cons b rest ih =>
    obtain ⟨hb, hrest⟩ := List.forall_mem_cons.1 hok
    obtain ⟨htoNat, hne⟩ := subblock_lengthByte hb
    have hstep := step_skip_subblock hengine hne (chainOf_cons b rest ▸ hchain).head
    rw [htoNat] at hstep
    have hpos : c + (chainOf (b :: rest)).length = c + 1 + b.length + (chainOf rest).length := by
      rw [chainOf_cons, List.length_cons, List.length_append]
      omega
    rw [hpos]
    exact runsTo_succ hstep (ih (s := skipFrom _ s) hrest rfl hchain.chainOf_tail)

/-- A chain the input cuts is an error at the length byte that is not there (R174, R333). -/
theorem skipChain_cut {s : State} {blocks : List (List Byte)} {c : Nat} (hok : SubblocksOk blocks)
    (hengine : s.engine = .parse (.chain (.skip c))) (hcut : s.HoldsCut c blocks) :
    runsTo (blocks.length + 1) s (s.afterParseError 0x23#8 (c + blocksSize blocks) none) := by
  induction blocks generalizing s c with
  | nil => exact runsTo_succ (step_skip_absent hengine (if_neg (Nat.not_lt.2 hcut))) (runsTo_zero _)
  | cons b rest ih =>
    obtain ⟨hb, hrest⟩ := List.forall_mem_cons.1 hok
    obtain ⟨htoNat, hne⟩ := subblock_lengthByte hb
    obtain ⟨hlen, -, htail⟩ := hcut
    have hstep := step_skip_subblock hengine hne hlen
    rw [htoNat] at hstep
    have hoff : c + blocksSize (b :: rest) = c + 1 + b.length + blocksSize rest := by
      simp only [blocksSize, List.map_cons, List.sum_cons]
      omega
    rw [hoff]
    exact runsTo_succ hstep (ih hrest rfl (htail.skipFrom _))

end Sys2Proof.Machine

open Sys2Proof.Machine in
/-- Settles O22: a comment and a plain text are told by their labels, and each item's meaning is the state written
out. -/
theorem chainsStartAfterTheirItem : Obligations.ChainsStartAfterTheirItem := by
  unfold Obligations.ChainsStartAfterTheirItem
  refine fun s ident => ⟨fun hengine htag => ⟨fun hlabel => ?_, fun hlabel => ?_⟩, rfl, rfl, rfl, rfl⟩
  · rw [step_extension hengine htag, decodeExtension_comment hlabel]
  · rw [step_extension hengine htag, decodeExtension_ptext hlabel]

open Sys2Proof.Machine in
/-- Settles O24, by induction on the sub-blocks of the chain (`skipChain_whole`, `skipChain_cut`). -/
theorem skipChainOnlyMovesPos : Obligations.SkipChainOnlyMovesPos := by
  unfold Obligations.SkipChainOnlyMovesPos
  exact fun s blocks c hok hengine => ⟨skipChain_whole hok hengine, skipChain_cut hok hengine⟩
end

section
/-! PROOFS. How far `POS` moves in a PARSE (R25, R183, C8): a checked read that answers a byte was below `LEN`, and each
item moves `POS` from there by what its rule says. One lemma for each kind of item; a step is one of `step_cases`. -/

namespace Sys2Proof.Machine

/-! ### What an answer's next state satisfies -/

/-- The next state, if there is one, has a property. -/
def NextSatisfies (P : State → Prop) : Answer → Prop
  | .next t => P t
  | .fault _ => True
  | .refused _ => True

theorem NextSatisfies.next {P : State → Prop} {t : State} (h : P t) : NextSatisfies P (.next t) := h

theorem NextSatisfies.mono {P Q : State → Prop} {a : Answer} (h : NextSatisfies P a) (hPQ : ∀ t, P t → Q t) :
    NextSatisfies Q a := by
  cases a with
  | next t => exact hPQ t h
  | fault r => trivial
  | refused r => trivial

/-! ### `PosOk` by the kind of item -/

/-- `State.PosOk` of a parser about to read an item of a kind, in the two numbers it is about (R25, C8). -/
def ItemPosOk (ph : ParsePhase) (pos len : Nat) : Prop :=
  match ph with
  | .sig => pos = 0
  | .lsd => pos = 6 ∧ 6 ≤ len
  | .gct => pos ≤ len + 7
  | .block => pos ≤ len + 775
  | .app _ => pos + 3 ≤ len
  | .lct => pos ≤ len + 9
  | .mcs => pos ≤ len + 777
  | .imgData => pos ≤ len
  | .chain k => pos ≤ chainAt k pos ∧ chainAt k pos ≤ len + 255

theorem posOk_iff_of_parse {s : State} {ph : ParsePhase} (h : s.engine = .parse ph) :
    s.PosOk ↔ ItemPosOk ph s.pos s.host.len := by
  unfold State.PosOk
  rw [h]
  cases ph <;> exact Iff.rfl

theorem posOk_of_idle {s : State} (h : s.engine = .idle) : s.PosOk := by
  unfold State.PosOk
  rw [h]
  trivial

theorem posOk_of_lzw {s : State} {c : Caller} (h : s.engine = .lzw c) : s.PosOk := by
  unfold State.PosOk
  rw [h]
  trivial

/-- Wherever the parser stands, `POS` is at most `LEN + 777` (R25). -/
theorem itemPosOk_le {ph : ParsePhase} {pos len : Nat} (h : ItemPosOk ph pos len) : pos ≤ len + 777 := by
  cases ph <;> simp only [ItemPosOk] at h <;> omega

/-! ### A move of `POS` -/

/-- From `s` to `t` the position does not fall, and stays in its bounds (R25, R183). -/
structure PosAdvances (s t : State) : Prop where
  posOk : t.PosOk
  le : s.pos ≤ t.pos
  bound : t.pos ≤ s.host.len + 777

theorem PosAdvances.of_goto {s u : State} {pos : Nat} {ph : ParsePhase} (hhost : u.host = s.host)
    (hle : s.pos ≤ pos) (hitem : ItemPosOk ph pos s.host.len) : PosAdvances s (goto pos ph u) where
  posOk := (posOk_iff_of_parse (goto_engine ..)).2 (by simpa [hhost] using hitem)
  le := hle
  bound := itemPosOk_le hitem

/-- An error leaves `POS` where it is (R333). -/
theorem PosAdvances.of_raiseParse {s : State} (e : ErrorName) (off : Nat) (b : Option Byte)
    (hle : s.pos ≤ s.host.len + 777) : PosAdvances s (raiseParse e off b s) where
  posOk := posOk_of_idle rfl
  le := Nat.le_refl _
  bound := hle

/-- A skipped chain leaves `POS` at the tag, and has its cursor ahead (R174). -/
theorem PosAdvances.of_skipFrom {s : State} {cursor : Nat} (hle : s.pos ≤ cursor)
    (hcursor : cursor ≤ s.host.len + 255) : PosAdvances s (skipFrom cursor s) where
  posOk := (posOk_iff_of_parse (skipFrom_engine ..)).2 ⟨hle, hcursor⟩
  le := Nat.le_refl _
  bound := by
    simp only [skipFrom_pos]
    omega

/-! ### Checked reads -/

/-- A checked read that answers a byte is below `LEN` (R64). -/
theorem lt_len_of_inByte {s : State} {o : Nat} {b : Byte} (h : inByte s o = some b) : o < s.host.len := by
  unfold inByte at h
  split at h
  · assumption
  · cases h

/-- A palette has at most 256 entries (R301). -/
theorem palLen_le (size : BitVec 3) : palLen size ≤ 256 := by
  revert size
  decide

theorem inPalette_length (rd : Nat → Option Byte) (o n : Nat) : (inPalette rd o n).length = n := by
  simp [inPalette]

theorem inBytes_length (rd : Nat → Option Byte) (o n : Nat) : (inBytes rd o n).length = n := by
  simp [inBytes]

/-- Where no byte differs from the signature, every byte of it was read (R161). -/
theorem eq_some_of_sigMismatch_eq_none {sig : List Byte} {bytes : List (Option Byte)} {i k : Nat}
    (h : sigMismatch sig bytes i = none) (hk : k < sig.length) : bytes[k]?.join = some sig[k] := by
  induction sig generalizing bytes i k with
  | nil => simp at hk
  | cons b rest ih =>
    unfold sigMismatch at h
    split at h
    · next hhead =>
      cases k with
      | zero => simpa [List.head?_eq_getElem?] using hhead
      | succ k => simpa using ih h (Nat.lt_of_succ_lt_succ hk)
    · cases h

/-! ### The items: how far each one moves -/

theorem execHdrSig_posAdvances {s : State} (hpos : s.pos = 0) :
    NextSatisfies (PosAdvances s) (execHdrSig (inChecked (itemReader .sig s) 0 6) s) := by
  unfold execHdrSig
  split
  · exact .of_raiseParse _ _ _ (by omega)
  · next hmatch =>
    have hlast := eq_some_of_sigMismatch_eq_none hmatch (k := 5) (by decide)
    have hlen : 5 < s.host.len := lt_len_of_inByte (o := 5) hlast
    exact .of_goto rfl (by omega) ⟨rfl, hlen⟩

theorem execHdrLsd_posAdvances {s : State} (width height : Half) (pk bg aspect : Byte) (hpos : s.pos = 6)
    (hlen : 6 ≤ s.host.len) : NextSatisfies (PosAdvances s) (execHdrLsd width height pk bg aspect s) := by
  unfold execHdrLsd
  split
  · exact .of_goto rfl (by omega) (by simp only [ItemPosOk]; omega)
  · exact .of_goto rfl (by omega) (by simp only [ItemPosOk]; omega)

theorem execGct_posAdvances {s : State} {entries : List Rgb} (hn : entries.length ≤ 256)
    (hpos : s.pos ≤ s.host.len + 7) : NextSatisfies (PosAdvances s) (execGct entries s) :=
  PosAdvances.of_goto rfl (by omega) (by simp only [ItemPosOk]; omega)

theorem execLct_posAdvances {s : State} {entries : List Rgb} (hn : entries.length ≤ 256)
    (hpos : s.pos ≤ s.host.len + 9) : NextSatisfies (PosAdvances s) (execLct entries s) :=
  PosAdvances.of_goto rfl (by omega) (by simp only [ItemPosOk]; omega)

theorem execExtGce_posAdvances {s : State} {len : Byte} (pk : Byte) (delay : Half) (index : Byte)
    (hpos : s.pos ≤ s.host.len + 777) : NextSatisfies (PosAdvances s)
      (execExtGce len pk delay index (inByte s (s.pos + (3 + len.toNat))) s) := by
  unfold execExtGce
  split
  · next hterm =>
    have hlt := lt_len_of_inByte hterm
    exact .of_goto (by simp) (by omega) (by simp only [ItemPosOk]; omega)
  · exact .of_raiseParse _ _ _ hpos

theorem execExtApp_posAdvances {s : State} (ident : List (Option Byte)) (hpos : s.pos ≤ s.host.len + 777) :
    NextSatisfies (PosAdvances s) (execExtApp (inByte s (s.pos + 2)) ident s) := by
  unfold execExtApp
  split
  · next hlength =>
    have hlt := lt_len_of_inByte hlength
    exact .of_goto rfl (Nat.le_refl _) (by simp only [ItemPosOk]; omega)
  · exact .of_raiseParse _ _ _ hpos

theorem execExtAppNs_posAdvances {s : State} (size ident : Option Byte) (loops : Half)
    (hpos : s.pos ≤ s.host.len + 777) :
    NextSatisfies (PosAdvances s) (execExtAppNs size ident loops (inByte s (s.pos + 18)) s) := by
  unfold execExtAppNs
  split
  · exact .of_raiseParse _ _ _ hpos
  · split
    · exact .of_raiseParse _ _ _ hpos
    · split
      · exact .of_raiseParse _ _ _ hpos
      · next hterm =>
        have hlt := lt_len_of_inByte (not_not.1 hterm)
        exact .of_goto rfl (by omega) (by simp only [ItemPosOk]; omega)

/-- A chain that starts two bytes after a tag whose label is in the input (R171, R172). -/
theorem skipFrom_label_posAdvances {s : State} {label : Byte} (hlabel : inByte s (s.pos + 1) = some label) :
    PosAdvances s (skipFrom (s.pos + 2) s) := by
  have hlt := lt_len_of_inByte hlabel
  exact .of_skipFrom (by omega) (by omega)

theorem execImg_posAdvances {s : State} (left top width height : Half) (pk : Byte) (htag : s.pos < s.host.len) :
    NextSatisfies (PosAdvances s) (execImg left top width height pk s) := by
  unfold execImg
  split
  · exact .of_goto (by simp) (by omega) (by simp only [ItemPosOk]; omega)
  · exact .of_goto (by simp) (by omega) (by simp only [ItemPosOk]; omega)

theorem execMcs_posAdvances {s : State} (hpos : s.pos ≤ s.host.len + 777) :
    NextSatisfies (PosAdvances s) (execMcs (inByte s s.pos) s) := by
  unfold execMcs
  split
  · exact .of_raiseParse _ _ _ hpos
  · next b hbyte =>
    have hlt := lt_len_of_inByte hbyte
    split
    · exact .of_goto rfl (by omega) hlt
    · exact .of_raiseParse _ _ _ hpos

/-- The trailer ends the PARSE one byte after its tag (R179). -/
theorem execTrailer_posAdvances {s : State} (htag : s.pos < s.host.len) :
    NextSatisfies (PosAdvances s) (execTrailer s) where
  posOk := posOk_of_idle rfl
  le := Nat.le_succ _
  bound := Nat.le_trans htag (Nat.le_add_right _ _)

theorem exec_extension_posAdvances {s : State} (hpos : s.pos ≤ s.host.len + 775) :
    NextSatisfies (PosAdvances s) (exec (decodeExtension (itemReader .block s)) s) := by
  unfold decodeExtension
  split
  · exact execExtGce_posAdvances _ _ _ (by omega)
  · split
    · exact execExtApp_posAdvances _ (by omega)
    · split
      · next hlabel => exact skipFrom_label_posAdvances hlabel
      · split
        · next hlabel => exact skipFrom_label_posAdvances hlabel
        · exact PosAdvances.of_raiseParse _ _ _ (by omega)

theorem exec_block_posAdvances {s : State} (hpos : s.pos ≤ s.host.len + 775) :
    NextSatisfies (PosAdvances s) (exec (decodeBlock (itemReader .block s)) s) := by
  unfold decodeBlock
  split
  · exact exec_extension_posAdvances hpos
  · split
    · next htag => exact execImg_posAdvances _ _ _ _ _ (lt_len_of_inByte htag)
    · split
      · next htag => exact execTrailer_posAdvances (lt_len_of_inByte htag)
      · exact PosAdvances.of_raiseParse _ _ _ (by omega)

theorem execSubblock_posAdvances {s : State} {k : ChainKind} (hengine : s.engine = .parse (.chain k)) {d : List Byte}
    (hd : d.length ≤ 255) (hpos : s.pos ≤ chainAt k s.pos) (hcursor : chainAt k s.pos < s.host.len) :
    NextSatisfies (PosAdvances s) (execSubblock (some d) s) := by
  unfold execSubblock
  rw [chainKind_of hengine]
  cases k with
  | skip cursor =>
    simp only [chainAt_skip] at hpos hcursor
    exact PosAdvances.of_skipFrom (by omega) (by omega)
  | image =>
    simp only [chainAt_image] at hcursor
    dsimp only
    split
    · exact .of_goto rfl (by omega) (by simp only [ItemPosOk, chainAt_image]; omega)
    · trivial

theorem execSubblockEnd_posAdvances {s : State} {k : ChainKind} (hengine : s.engine = .parse (.chain k))
    (hpos : s.pos ≤ chainAt k s.pos) (hcursor : chainAt k s.pos < s.host.len) :
    NextSatisfies (PosAdvances s) (execSubblockEnd s) := by
  unfold execSubblockEnd
  rw [chainKind_of hengine]
  cases k with
  | skip cursor =>
    simp only [chainAt_skip] at hpos hcursor
    exact PosAdvances.of_goto rfl (by omega) (by simp only [ItemPosOk]; omega)
  | image =>
    simp only [chainAt_image] at hcursor
    dsimp only
    split
    · exact .of_goto rfl (by omega) (by simp only [ItemPosOk]; omega)
    · trivial

theorem exec_chain_posAdvances {s : State} {k : ChainKind} (hengine : s.engine = .parse (.chain k))
    (hpos : s.pos ≤ chainAt k s.pos) (hcursor : chainAt k s.pos ≤ s.host.len + 255) :
    NextSatisfies (PosAdvances s) (exec (decodeChain (itemReader (.chain k) s)) s) := by
  unfold decodeChain
  split
  · exact PosAdvances.of_raiseParse _ _ _ (by omega)
  · next n hlength =>
    have hlt : chainAt k s.pos < s.host.len := lt_len_of_inByte hlength
    split
    · exact execSubblockEnd_posAdvances hengine hpos hlt
    · have hn := n.isLt
      exact execSubblock_posAdvances hengine (by rw [inBytes_length]; omega) hpos hlt

/-- The item at hand moves `POS` within its bounds (R25). -/
theorem exec_item_posAdvances {s : State} {ph : ParsePhase} (hengine : s.engine = .parse ph)
    (h : ItemPosOk ph s.pos s.host.len) :
    NextSatisfies (PosAdvances s) (exec (decodeItem ph (palSizeAt ph s) (itemReader ph s)) s) := by
  have hbound := itemPosOk_le h
  cases ph with
  | sig => exact execHdrSig_posAdvances h
  | lsd => exact execHdrLsd_posAdvances _ _ _ _ _ h.1 h.2
  | gct => exact execGct_posAdvances (by rw [inPalette_length]; exact palLen_le _) h
  | block => exact exec_block_posAdvances h
  | app ns =>
    simp only [ItemPosOk] at h
    cases ns with
    | true => exact execExtAppNs_posAdvances _ _ _ hbound
    | false => exact PosAdvances.of_skipFrom (by omega) (by omega)
  | lct => exact execLct_posAdvances (by rw [inPalette_length]; exact palLen_le _) h
  | mcs => exact execMcs_posAdvances hbound
  | imgData => exact PosAdvances.of_goto rfl (Nat.le_refl _) ⟨Nat.le_refl _, Nat.le_add_right_of_le h⟩
  | chain k => exact exec_chain_posAdvances hengine h.1 h.2

/-! ### Commands and codes: the parser does not stand anywhere, but at the start of a PARSE -/

theorem goto_sig_posOk (s : State) : (goto 0 .sig s).PosOk :=
  (posOk_iff_of_parse (goto_engine ..)).2 rfl

theorem startRun_posOk (c : Caller) (s : State) : (startRun c s).PosOk := posOk_of_lzw rfl

theorem raiseUsage_posOk (e : ErrorName) (b : Option Byte) (s : State) : (raiseUsage e b s).PosOk := posOk_of_idle rfl

theorem finishCommand_posOk (c : Caller) (s : State) : (finishCommand c s).PosOk := by
  rw [finishCommand_rest]
  exact posOk_of_idle rfl

theorem fillDecoded_posOk (c : Caller) (s : State) : NextSatisfies State.PosOk (fillDecoded c s) := by
  unfold fillDecoded
  split
  · trivial
  · split
    · exact .next (finishCommand_posOk ..)
    · split
      · exact .next (finishCommand_posOk ..)
      · exact .next (startRun_posOk ..)

theorem execParse_posOk (s : State) : NextSatisfies State.PosOk (execParse s) := by
  unfold execParse
  split
  · exact .next (goto_sig_posOk _)
  · trivial

theorem execDecode_posOk (s : State) : NextSatisfies State.PosOk (execDecode s) := by
  simp only [execDecode]
  split
  · exact .next (raiseUsage_posOk ..)
  · exact fillDecoded_posOk ..

theorem execDeinterlace_posOk (s : State) : NextSatisfies State.PosOk (execDeinterlace s) := by
  simp only [execDeinterlace]
  split
  · exact .next (raiseUsage_posOk ..)
  · split
    · exact .next (raiseUsage_posOk ..)
    · split
      · exact .next (finishCommand_posOk .decode _)
      · exact fillDecoded_posOk ..

theorem execCompose_posOk (s : State) : NextSatisfies State.PosOk (execCompose s) := by
  simp only [execCompose]
  split
  · exact .next (raiseUsage_posOk ..)
  · exact fillDecoded_posOk ..

theorem exec_command_posOk (code : Byte) (s : State) : NextSatisfies State.PosOk (exec (decodeCommand code) s) := by
  unfold decodeCommand
  split
  · exact execParse_posOk s
  · split
    · exact execDecode_posOk s
    · split
      · exact execDeinterlace_posOk s
      · split
        · exact execCompose_posOk s
        · exact .next (raiseUsage_posOk ..)

theorem execData_engine (code : Code) (s : State) :
    NextSatisfies (fun t => t.engine = s.engine) (execData code s) := by
  unfold execData
  split
  · trivial
  · split
    · trivial
    · rfl

theorem execDataKwkwk_engine (s : State) : NextSatisfies (fun t => t.engine = s.engine) (execDataKwkwk s) := by
  unfold execDataKwkwk
  split
  · trivial
  · split
    · trivial
    · split
      · trivial
      · rfl

/-- A code leaves the engine in its run (R223). -/
theorem exec_code_engine (q : LzwCtx) (c : Nat) (s : State) :
    NextSatisfies (fun t => t.engine = s.engine) (exec (decodeCode q c) s) := by
  unfold decodeCode
  split
  · rfl
  · split
    · rfl
    · split
      · rfl
      · split
        · rfl
        · split
          · exact execDataKwkwk_engine s
          · exact execData_engine _ s

/-! ### A step -/

/-- A step keeps the bounds of `POS`, and a step of the parser does not move it back (R25, R183). -/
theorem step_posOk {s : State} (hs : s.PosOk) :
    NextSatisfies (fun t => t.PosOk ∧ ∀ ph, s.engine = .parse ph → PosAdvances s t) (step s) := by
  obtain ⟨hidle, -, h⟩ | ⟨w, q, hidle, -, hw, h⟩ | ⟨code, q, hidle, -, h⟩ | ⟨ph, hparse, h⟩ | ⟨c, hlzw, -, h⟩ |
    ⟨c, hlzw, -, -, h⟩ | ⟨c, hlzw, -, -, -, h⟩ | ⟨c, hlzw, -, -, -, h⟩ := step_cases s <;> rw [h]
  · exact ⟨hs, fun _ hph => nomatch hidle.symm.trans hph⟩
  · refine ⟨posOk_of_idle ?_, fun _ hph => nomatch hidle.symm.trans hph⟩
    cases w <;> exact hidle
  · exact (exec_command_posOk code _).mono fun t ht => ⟨ht, fun _ hph => nomatch hidle.symm.trans hph⟩
  · exact (exec_item_posAdvances hparse ((posOk_iff_of_parse hparse).1 hs)).mono
      fun t ht => ⟨ht.posOk, fun _ _ => ht⟩
  · exact ⟨finishCommand_posOk _ _, fun _ hph => nomatch hlzw.symm.trans hph⟩
  · exact ⟨posOk_of_lzw hlzw, fun _ hph => nomatch hlzw.symm.trans hph⟩
  · exact ⟨posOk_of_lzw hlzw, fun _ hph => nomatch hlzw.symm.trans hph⟩
  · exact (exec_code_engine _ _ _).mono fun t ht =>
      ⟨posOk_of_lzw (ht.trans hlzw), fun _ hph => nomatch hlzw.symm.trans hph⟩

end Sys2Proof.Machine

open Sys2Proof.Machine in
/-- Settles O31: the step lemma `step_posOk`; the bounds do not need the machine invariant. -/
theorem posStaysNearTheInput : Obligations.PosStaysNearTheInput := by
  unfold Obligations.PosStaysNearTheInput
  intro s t _ hpos hstep
  have hnext := step_posOk hpos
  rw [hstep] at hnext
  obtain ⟨hok, hadvance⟩ := hnext
  exact ⟨hok, fun ph hph => ⟨(hadvance ph hph).le, (hadvance ph hph).bound⟩⟩
end

section
/-! PROOFS. What the host reads between commands, by register number (R41, R44, R335, R385). -/

namespace Sys2Proof.Machine

/-! ### The register map: which numbers are in which part (R44) -/

/-- Numbers outside 0x01 to 0x09 and 0x12 to 0x1A are no plain register. -/
theorem plainReg_eq_none (s : State) {no : Nat} (h : no = 0 ∨ (0x0A ≤ no ∧ no ≤ 0x11) ∨ 0x1B ≤ no) :
    plainReg s no = none := by
  refine sparseGet_eq_none ?_
  simp only [plainRegs, List.forall_mem_cons, List.not_mem_nil, false_imp_iff, implies_true, and_true]
  omega

/-- Numbers outside 0x0A to 0x11 are no document register. -/
theorem docReg_eq_none (s : State) {no : Nat} (h : no ≤ 0x09 ∨ 0x12 ≤ no) : docReg s no = none := by
  refine sparseGet_eq_none ?_
  simp only [docRegs, List.forall_mem_cons, List.not_mem_nil, false_imp_iff, implies_true, and_true]
  omega

/-- Numbers outside 0x20 to 0x2B are not in the frame window. -/
theorem windowReg_eq_none (f : Frame) {no : Nat} (h : no ≤ 0x1F ∨ 0x2C ≤ no) : f.windowReg no = none := by
  refine sparseGet_eq_none ?_
  simp only [Frame.windowRegs, List.forall_mem_cons, List.not_mem_nil, false_imp_iff, implies_true, and_true]
  omega

/-- The document registers are 0x0A to 0x11. -/
theorem docReg_isSome (s : State) {no : Nat} (hlo : 0x0A ≤ no) (hhi : no ≤ 0x11) : ∃ v, docReg s no = some v := by
  interval_cases no <;> exact ⟨_, rfl⟩

/-- The frame window is 0x20 to 0x2B. -/
theorem windowReg_isSome (f : Frame) {no : Nat} (hlo : 0x20 ≤ no) (hhi : no ≤ 0x2B) :
    ∃ v, f.windowReg no = some v := by
  interval_cases no <;> exact ⟨_, rfl⟩

/-! ### A read by the part its number is in -/

/-- A plain register reads as its row between commands. -/
theorem readReg_plain {s : State} {no v : Nat} (hidle : s.engine = .idle) (h : plainReg s no = some v) :
    readReg s no = .value v := by
  have hno : no ≠ 0 := by
    rintro rfl
    simp [plainReg_eq_none] at h
  simp [readReg, hidle, hno, h]

/-- A document register reads as its row, and is refused of a hidden document (R335). -/
theorem readReg_doc {s : State} {no v : Nat} (hidle : s.engine = .idle) (h : docReg s no = some v) :
    readReg s no = if s.docHidden then .refused .partialDocument else .value v := by
  have hno : 0x0A ≤ no ∧ no ≤ 0x11 := by
    by_contra hout
    simp [docReg_eq_none s (no := no) (by omega)] at h
  have hplain := plainReg_eq_none s (no := no) (by omega)
  simp [readReg, hidle, show no ≠ 0 by omega, hplain, h]

/-- A register of the frame window reads as its row in the addressed frame (R335, U9). -/
theorem readReg_window {s : State} {no : Nat} {v : HostRead Nat} (hidle : s.engine = .idle)
    (h : (curFrame s).windowReg no = some v) :
    readReg s no =
      if s.docHidden then .refused .partialDocument
      else if s.frames.length ≤ s.host.argFrame then .refused .noFrame
      else v := by
  have hno : 0x20 ≤ no := by
    by_contra hout
    simp [windowReg_eq_none (curFrame s) (no := no) (by omega)] at h
  have hplain := plainReg_eq_none s (no := no) (by omega)
  have hdoc := docReg_eq_none s (no := no) (by omega)
  simp [readReg, hidle, show no ≠ 0 by omega, hplain, hdoc, h]

/-- A number R44 does not name is refused. -/
theorem readReg_noRegister {s : State} {no : Nat} (hidle : s.engine = .idle)
    (h : (0x1B ≤ no ∧ no ≤ 0x1F) ∨ 0x2C ≤ no) : readReg s no = .refused .noRegister := by
  have hplain := plainReg_eq_none s (no := no) (by omega)
  have hdoc := docReg_eq_none s (no := no) (by omega)
  have hwindow := windowReg_eq_none (curFrame s) (no := no) (by omega)
  simp [readReg, hidle, show no ≠ 0 by omega, hplain, hdoc, hwindow]

/-! ### Reads of a document that is there, and of a frame of it -/

/-- `FR[ARG_FRAME]` is the frame at that index of the table. -/
theorem curFrame_eq {s : State} {f : Frame} (hf : s.frames[s.host.argFrame]? = some f) : curFrame s = f := by
  simp [curFrame, hf]

/-- A document register of a document that is not hidden. -/
theorem readReg_doc_value {s : State} {no v : Nat} (hidle : s.engine = .idle) (hdoc : s.docHidden = false)
    (h : docReg s no = some v) : readReg s no = .value v := by
  rw [readReg_doc hidle h, hdoc]
  rfl

/-- A register of the frame window of an addressable frame. -/
theorem readReg_window_value {s : State} {f : Frame} {no : Nat} {v : HostRead Nat} (hidle : s.engine = .idle)
    (hdoc : s.docHidden = false) (hf : s.frames[s.host.argFrame]? = some f)
    (h : f.windowReg no = some v) : readReg s no = v := by
  obtain ⟨hindex, -⟩ := List.getElem?_eq_some_iff.1 hf
  rw [readReg_window hidle (curFrame_eq hf ▸ h), hdoc, if_neg (by decide), if_neg (Nat.not_le.2 hindex)]

/-- An entry of a space of the document below the space's length. -/
theorem readEntry_value {α : Type} {s : State} {xs : List α} {k : Nat} {v : α} (hidle : s.engine = .idle)
    (hdoc : s.docHidden = false) (h : xs[k]? = some v) : readEntry s (some xs) k = .value v := by
  simp [readEntry, hidle, hdoc, h]

/-- An element of the result window that its store has (R41, R142). -/
theorem readWindow_value {s : State} {i : Nat} {xs : List Byte} {v : Byte} (hidle : s.engine = .idle)
    (hsel : s.result.sel ≠ .none) (hi : i < s.result.len) (hstore : windowStore s = some xs)
    (hv : xs[i]? = some v) : readWindow s i = .value v := by
  simp [readWindow, hidle, hsel, hi, hstore, hv]

/-! ### Reads that are refused -/

theorem readReg_duringCommand {s : State} (h : s.engine ≠ .idle) (no : Nat) :
    readReg s no = .refused .duringCommand := if_pos h

theorem readWindow_duringCommand {s : State} (h : s.engine ≠ .idle) (i : Nat) :
    readWindow s i = .refused .duringCommand := if_pos h

theorem readEntry_duringCommand {α : Type} {s : State} (h : s.engine ≠ .idle) (space : Option (List α)) (k : Nat) :
    readEntry s space k = .refused .duringCommand := if_pos h

theorem readEntry_partialDocument {α : Type} {s : State} (hidle : s.engine = .idle) (hdoc : s.docHidden = true)
    (space : Option (List α)) (k : Nat) : readEntry s space k = .refused .partialDocument := by
  simp [readEntry, hidle, hdoc]

/-- A frame index at or beyond `FRAME_COUNT` has no palette and no payload (U9). -/
theorem readEntry_noFrame {α : Type} {s : State} {j : Nat} (g : Frame → List α) (hidle : s.engine = .idle)
    (hdoc : s.docHidden = false) (hj : s.frames.length ≤ j) (k : Nat) :
    readEntry s (s.frames[j]?.map g) k = .refused .noFrame := by
  simp [readEntry, hidle, hdoc, List.getElem?_eq_none hj]

/-! ### Packed bits -/

theorem flagBit_eq (b : Bool) (i : Nat) : flagBit b i = 2 ^ i * b.toNat := by
  cases b <;> simp [flagBit]

/-- The flags of a screen descriptor are the packed byte they were cut from (R44, R92). -/
theorem screenOf_flags (width height : Half) (pk bg aspect : Byte) :
    (screenOf width height pk bg aspect).flags = pk.toNat := by
  have hpk := pk.isLt
  simp only [Screen.flags, screenOf, pkBit, pkField3, flagBit_eq, BitVec.getLsbD, Nat.toNat_testBit,
    BitVec.extractLsb'_toNat, Nat.shiftRight_eq_div_pow]
  omega

/-- The bits of `STATUS` (R24). -/
theorem status_word_bits (t : Status) :
    t.word.getLsbD 0 = t.docValid ∧ t.word.getLsbD 1 = t.err ∧ t.word.getLsbD 2 = t.warnTrailing ∧
      t.word.getLsbD 3 = t.gcePending ∧ t.word.getLsbD 4 = t.repeatValid ∧ t.word.toNat < 32 := by
  obtain ⟨docValid, err, warnTrailing, gcePending, repeatValid⟩ := t
  revert docValid err warnTrailing gcePending repeatValid
  decide

/-- `GCE`: the present bit, then the packed fields (R44). -/
theorem gceReg_eq (f : Frame) :
    f.gceReg = 256 * f.gcePresent.toNat + 4 * f.disposal.toNat + 2 * f.userInput.toNat + f.transpFlag.toNat := by
  simp only [Frame.gceReg, flagBit_eq]
  omega

/-- `IMG_FLAGS` (R44). -/
theorem imgFlags_eq (f : Frame) :
    f.imgFlags = 128 * f.lctFlag.toNat + 64 * f.interlace.toNat + 32 * f.imgSort.toNat + f.lctSize.toNat := by
  simp only [Frame.imgFlags, flagBit_eq]
  omega

/-- `CACHE`: `DEC_VALID`, then `DEI_STATE` (R44). -/
theorem cacheReg_eq (f : Frame) : f.cacheReg = f.dec.isSome.toNat + 2 * f.dei.num := by
  simp only [Frame.cacheReg, flagBit_eq]
  omega

end Sys2Proof.Machine

open Sys2Proof.Machine in
/-- Settles O51: each refusal is the one of the part of the map the number is in; elements of palettes, payloads and
window likewise. -/
theorem hostReadsAreRefused : Obligations.HostReadsAreRefused := by
  unfold Obligations.HostReadsAreRefused
  refine fun s no i => ⟨fun hbusy => ?_, fun hidle hdoc => ⟨fun hno => ?_, ?_, ?_, ?_⟩,
    fun hidle hdoc hframe hlo hhi => ?_, fun hidle hdoc hframe => ?_, fun hidle => ?_, fun hidle hno => ?_,
    fun hidle hwindow => ?_⟩
  · exact ⟨readReg_duringCommand hbusy no, readWindow_duringCommand hbusy i, readEntry_duringCommand hbusy _ i,
      readEntry_duringCommand hbusy _ i, readEntry_duringCommand hbusy _ i⟩
  · obtain ⟨hlo, hhi⟩ | ⟨hlo, hhi⟩ := hno
    · obtain ⟨v, hv⟩ := docReg_isSome s hlo hhi
      rw [readReg_doc hidle hv, if_pos hdoc]
    · obtain ⟨v, hv⟩ := windowReg_isSome (curFrame s) hlo hhi
      rw [readReg_window hidle hv, if_pos hdoc]
  · exact readEntry_partialDocument hidle hdoc _ i
  · exact readEntry_partialDocument hidle hdoc _ i
  · exact readEntry_partialDocument hidle hdoc _ i
  · obtain ⟨v, hv⟩ := windowReg_isSome (curFrame s) hlo hhi
    rw [readReg_window hidle hv, hdoc, if_neg (by decide), if_pos hframe]
  · exact ⟨readEntry_noFrame _ hidle hdoc hframe i, readEntry_noFrame _ hidle hdoc hframe i⟩
  · simp [readReg, hidle]
  · exact readReg_noRegister hidle hno
  · simp [readWindow, hidle, hwindow]

open Sys2Proof.Machine in
/-- Settles O50: each packed register is a row of its part of the map, and its bits are those of the fields. -/
theorem flagRegistersReadAsTheirBits : Obligations.FlagRegistersReadAsTheirBits := by
  unfold Obligations.FlagRegistersReadAsTheirBits
  refine ⟨status_word_bits, fun s t w h pk bg aspect hexec => ?_,
    fun s hidle => ⟨?_, ?_, fun hdoc => ⟨?_, fun f hf => ?_⟩⟩⟩
  · obtain rfl := Host.Outcome.next.inj hexec
    exact screenOf_flags w h pk bg aspect
  · exact readReg_plain hidle rfl
  · rw [readReg_plain hidle (show plainReg s 0x06 = _ from rfl), flagBit_eq]
    rfl
  · exact readReg_doc_value hidle hdoc rfl
  · have hread {no : Nat} {v : HostRead Nat} := readReg_window_value (no := no) (v := v) hidle hdoc hf
    rw [← gceReg_eq, ← imgFlags_eq]
    refine ⟨hread rfl, hread rfl, ?_⟩
    rw [hread (v := .value f.cacheReg) rfl, cacheReg_eq]
    cases f.dei <;> rfl

open Sys2Proof.Machine in
/-- Settles O52: each register is a row of its part of the map (`readReg_plain`, `readReg_doc_value`,
`readReg_window_value`), each element one of its store (`readEntry_value`, `readWindow_value`). -/
theorem hostReadsAnswerTheMap : Obligations.HostReadsAnswerTheMap := by
  unfold Obligations.HostReadsAnswerTheMap
  refine fun s hidle => ⟨?_, fun hdoc => ?_, fun f hdoc hf => ?_,
    fun f j k hdoc hf => ⟨fun e he => ?_, fun b hk hb => ?_⟩,
    fun f i v hi hf => ⟨fun d hsel hd hv => ?_, fun e hsel he hv => ?_⟩, fun i v px hi hsel hpx hv => ?_⟩
  · have hread {no v : Nat} := readReg_plain (no := no) (v := v) hidle
    refine ⟨hread rfl, hread rfl, hread rfl, hread rfl, hread rfl, hread rfl, hread rfl, hread rfl, ?_, ?_,
      hread rfl, hread rfl, hread rfl, hread rfl, hread rfl, hread rfl⟩
    · rw [hread (v := s.endReason.num) rfl]
      cases s.endReason <;> rfl
    · rw [hread (v := s.result.sel.num) rfl]
      cases s.result.sel <;> rfl
  · have hread {no v : Nat} := readReg_doc_value (no := no) (v := v) hidle hdoc
    exact ⟨hread rfl, hread rfl, hread rfl, hread rfl, hread rfl, hread rfl, hread rfl,
      fun k e he => readEntry_value hidle hdoc he⟩
  · have hread {no : Nat} {v : HostRead Nat} := readReg_window_value (no := no) (v := v) hidle hdoc hf
    exact ⟨hread rfl, hread rfl, hread rfl, hread rfl, hread rfl, hread rfl, hread rfl, hread rfl, hread rfl⟩
  · rw [readLpal, hf]
    exact readEntry_value hidle hdoc he
  · rw [readRaw, hf]
    refine readEntry_value hidle hdoc ?_
    rw [Frame.payload, List.getElem?_take_of_lt hk, hb]
  · refine readWindow_value hidle (by simp [hsel]) hi ?_ hv
    simp [windowStore, hsel, curFrame_eq hf, hd]
  · refine readWindow_value hidle (by simp [hsel]) hi ?_ hv
    simp [windowStore, hsel, curFrame_eq hf, he]
  · refine readWindow_value hidle (by simp [hsel]) hi ?_ hv
    simp [windowStore, hsel, hpx]
end

section
/-! PROOFS. What an instruction leaves alone (R72, R75, R326): a container item, a code and a per-frame command each
have a frame of their own (`InstrKept`), and all of them leave the host's side alone. -/

namespace Sys2Proof.Machine

/-- What is known of a next state holds of the one an answer is. -/
theorem NextSatisfies.of_eq {P : State → Prop} {a : Answer} {t : State} (h : NextSatisfies P a) (ha : a = .next t) :
    P t := by
  subst ha
  exact h

/-! ### The frames -/

/-- The host's side of the block, which no instruction writes: the input, the host's registers, its writes, and the
capacities it runs under (R75, R6). -/
structure HostSideKept (s t : State) : Prop where
  inMem : t.inMem = s.inMem
  host : t.host = s.host
  hostq : t.hostq = s.hostq
  caps : t.caps = s.caps

/-- What a container item leaves alone besides: the LZW engine and the result window (R326). -/
structure ItemKept (s t : State) : Prop extends HostSideKept s t where
  lzw : t.lzw = s.lzw
  lzwRuns : t.lzwRuns = s.lzwRuns
  endReason : t.endReason = s.endReason
  result : t.result = s.result

/-- A code writes the LZW engine and `END_REASON` only (R326). -/
def CodeKept (s t : State) : Prop := { t with lzw := s.lzw, endReason := s.endReason } = s

/-- Two frame tables of one length that agree but at an index (R72). -/
structure SameTableBut (k : Nat) (fs gs : List Frame) : Prop where
  length : gs.length = fs.length
  others : ∀ j, j ≠ k → gs[j]? = fs[j]?

/-- What a command on a frame leaves alone besides: every other frame (R72). -/
structure CommandKept (s t : State) : Prop extends HostSideKept s t where
  frames : SameTableBut s.host.argFrame s.frames t.frames

/-- The frame of an instruction, by its stream; PARSE writes the whole document. -/
def InstrKept : Instr → State → State → Prop
  | .clear | .eoi | .badcode _ | .dataFirst _ | .data _ | .dataKwkwk => CodeKept
  | .decode | .deinterlace | .compose | .cmdIllegal _ => CommandKept
  | .parse => HostSideKept
  | _ => ItemKept

/-! ### Frames of the shared updates -/

theorem ItemKept.refl (s : State) : ItemKept s s := ⟨⟨rfl, rfl, rfl, rfl⟩, rfl, rfl, rfl, rfl⟩

theorem ItemKept.goto {s u : State} (h : ItemKept s u) (pos : Nat) (ph : ParsePhase) : ItemKept s (goto pos ph u) :=
  ⟨⟨h.inMem, h.host, h.hostq, h.caps⟩, h.lzw, h.lzwRuns, h.endReason, h.result⟩

theorem ItemKept.modPend {s u : State} (h : ItemKept s u) (f : Frame → Frame) : ItemKept s (modPend f u) :=
  ⟨⟨h.inMem, h.host, h.hostq, h.caps⟩, h.lzw, h.lzwRuns, h.endReason, h.result⟩

theorem ItemKept.raiseParse (e : ErrorName) (off : Nat) (b : Option Byte) (s : State) :
    ItemKept s (raiseParse e off b s) :=
  ⟨⟨rfl, rfl, rfl, rfl⟩, rfl, rfl, rfl, rfl⟩

theorem ItemKept.skipFrom (cursor : Nat) (s : State) : ItemKept s (skipFrom cursor s) :=
  ⟨⟨rfl, rfl, rfl, rfl⟩, rfl, rfl, rfl, rfl⟩

theorem ItemKept.preAllocate (s : State) : ItemKept s (preAllocate s) :=
  ⟨⟨preAllocate_inMem s, preAllocate_host s, preAllocate_hostq s, preAllocate_caps s⟩, preAllocate_lzw s,
    preAllocate_lzwRuns s, preAllocate_endReason s, preAllocate_result s⟩

theorem CodeKept.hostSide {s t : State} (h : CodeKept s t) : HostSideKept s t :=
  ⟨(congrArg State.inMem h :), (congrArg State.host h :), (congrArg State.hostq h :), (congrArg State.caps h :)⟩

theorem CodeKept.frames {s t : State} (h : CodeKept s t) : t.frames = s.frames := (congrArg State.frames h :)

theorem CodeKept.engine {s t : State} (h : CodeKept s t) : t.engine = s.engine := (congrArg State.engine h :)

theorem SameTableBut.refl (k : Nat) (fs : List Frame) : SameTableBut k fs fs := ⟨rfl, fun _ _ => rfl⟩

theorem SameTableBut.trans {k : Nat} {fs gs hs : List Frame} (h1 : SameTableBut k fs gs)
    (h2 : SameTableBut k gs hs) : SameTableBut k fs hs :=
  ⟨h2.length.trans h1.length, fun j hj => (h2.others j hj).trans (h1.others j hj)⟩

/-- A write to a cache slot of the command's frame. -/
theorem SameTableBut.modCur (f : Frame → Frame) (s : State) :
    SameTableBut s.host.argFrame s.frames (modCur f s).frames :=
  ⟨by simp, fun _ => modCur_frame_ne f⟩

/-! ### Container items -/

theorem execHdrSig_kept (bytes : List (Option Byte)) (s : State) :
    NextSatisfies (ItemKept s) (execHdrSig bytes s) := by
  unfold execHdrSig
  split
  · exact .raiseParse ..
  · exact (ItemKept.refl s).goto ..

theorem execExtGce_kept (len pk : Byte) (delay : Half) (index : Byte) (term : Option Byte) (s : State) :
    NextSatisfies (ItemKept s) (execExtGce len pk delay index term s) := by
  unfold execExtGce
  split
  · exact ((ItemKept.preAllocate s).modPend _).goto ..
  · exact ItemKept.raiseParse ..

theorem execExtApp_kept (len : Option Byte) (ident : List (Option Byte)) (s : State) :
    NextSatisfies (ItemKept s) (execExtApp len ident s) := by
  unfold execExtApp
  split
  · exact (ItemKept.refl s).goto ..
  · exact ItemKept.raiseParse ..

theorem execExtAppNs_kept (size ident : Option Byte) (loops : Half) (term : Option Byte) (s : State) :
    NextSatisfies (ItemKept s) (execExtAppNs size ident loops term s) := by
  unfold execExtAppNs
  split
  · exact ItemKept.raiseParse ..
  · split
    · exact ItemKept.raiseParse ..
    · split
      · exact ItemKept.raiseParse ..
      · exact ⟨⟨rfl, rfl, rfl, rfl⟩, rfl, rfl, rfl, rfl⟩

theorem execMcs_kept (m : Option Byte) (s : State) : NextSatisfies (ItemKept s) (execMcs m s) := by
  unfold execMcs
  split
  · exact ItemKept.raiseParse ..
  · split
    · exact ((ItemKept.refl s).modPend _).goto ..
    · exact ItemKept.raiseParse ..

theorem execSubblock_kept (body : Option (List Byte)) (s : State) :
    NextSatisfies (ItemKept s) (execSubblock body s) := by
  unfold execSubblock
  split
  · exact ItemKept.raiseParse ..
  · split
    · exact ItemKept.skipFrom ..
    · split
      · exact ((ItemKept.refl s).modPend _).goto ..
      · trivial

theorem execSubblockEnd_kept (s : State) : NextSatisfies (ItemKept s) (execSubblockEnd s) := by
  unfold execSubblockEnd
  split
  · exact (ItemKept.refl s).goto ..
  · split
    · exact ⟨⟨rfl, rfl, rfl, rfl⟩, rfl, rfl, rfl, rfl⟩
    · trivial

/-! ### Codes -/

theorem execData_kept (code : Code) (s : State) : NextSatisfies (CodeKept s) (execData code s) := by
  unfold execData
  split
  · trivial
  · split
    · trivial
    · rfl

theorem execDataKwkwk_kept (s : State) : NextSatisfies (CodeKept s) (execDataKwkwk s) := by
  unfold execDataKwkwk
  split
  · trivial
  · split
    · trivial
    · split
      · trivial
      · rfl

/-! ### Host commands -/

/-- Everything a command but PARSE can answer, from the state it starts in: a usage error; the command's remainder, at
once or after the fill of an empty payload; or the start of a run (R132 to R136, R221, R222). -/
inductive CommandAnswer (c : Caller) (s : State) : State → Prop where
  | usage (e : ErrorName) (b : Option Byte) : CommandAnswer c s (raiseUsage e b s)
  | finish : CommandAnswer c s (finishCommand c s)
  | fill (hdec : (curFrame s).dec = none) : CommandAnswer c s (finishCommand c (setDec [0#8] s))
  | run (hdec : (curFrame s).dec = none) : CommandAnswer c s (startRun c s)

theorem fillDecoded_answer (c : Caller) (s : State) : NextSatisfies (CommandAnswer c s) (fillDecoded c s) := by
  unfold fillDecoded
  split
  · trivial
  · split
    · exact .next .finish
    · next hdec =>
      split
      · exact .next (.fill hdec)
      · exact .next (.run hdec)

theorem execDecode_answer (s : State) :
    NextSatisfies (CommandAnswer .decode (startCommand s)) (execDecode s) := by
  simp only [execDecode]
  split
  · exact .next (.usage ..)
  · exact fillDecoded_answer ..

/-- DEINTERLACE of a folded frame shows the decoded slot (R284). -/
theorem finishDeinterlace_folded {s : State} (h : (curFrame s).dei = .folded) : finishDeinterlace s = showDec s := by
  simp [finishDeinterlace, fillDei, h]

theorem execDeinterlace_answer (s : State) :
    NextSatisfies (CommandAnswer .deinterlace (startCommand s)) (execDeinterlace s) := by
  simp only [execDeinterlace]
  split
  · exact .next (.usage ..)
  · split
    · exact .next (.usage ..)
    · split
      · next hfolded =>
        rw [← finishDeinterlace_folded hfolded]
        exact .next .finish
      · exact fillDecoded_answer ..

theorem execCompose_answer (s : State) :
    NextSatisfies (CommandAnswer .compose (startCommand s)) (execCompose s) := by
  simp only [execCompose]
  split
  · exact .next (.usage ..)
  · exact fillDecoded_answer ..

theorem fillDei_sameTable (s : State) : SameTableBut s.host.argFrame s.frames (fillDei s).frames := by
  unfold fillDei
  split
  · exact .modCur ..
  · exact .refl ..
  · exact .refl ..

theorem fillDei_host (s : State) : (fillDei s).host = s.host := by rw [fillDei_rest]

theorem finishCommand_sameTable (c : Caller) (s : State) :
    SameTableBut s.host.argFrame s.frames (finishCommand c s).frames := by
  have hfill := fillDei_sameTable s
  cases c with
  | decode => exact .refl ..
  | deinterlace =>
    simp only [finishCommand, finishDeinterlace]
    split
    · exact hfill
    · exact hfill
    · split
      · exact hfill.trans (fillDei_host s ▸ .modCur _ _)
      · exact hfill
  | compose =>
    simp only [finishCommand, finishCompose, composeInto_frames]
    split
    · exact hfill
    · exact .refl ..

theorem finishCommand_commandKept (c : Caller) (s : State) : CommandKept s (finishCommand c s) := by
  have hrest := finishCommand_rest c s
  exact ⟨⟨(congrArg State.inMem hrest :), (congrArg State.host hrest :), (congrArg State.hostq hrest :),
    (congrArg State.caps hrest :)⟩, finishCommand_sameTable c s⟩

theorem CommandAnswer.kept {c : Caller} {s t : State} (h : CommandAnswer c s t) : CommandKept s t := by
  cases h with
  | usage e b => exact ⟨⟨rfl, rfl, rfl, rfl⟩, .refl ..⟩
  | finish => exact finishCommand_commandKept c s
  | fill hdec =>
    obtain ⟨⟨hmem, hhost, hq, hcaps⟩, htable⟩ := finishCommand_commandKept c (setDec [0#8] s)
    exact ⟨⟨hmem, hhost, hq, hcaps⟩, (SameTableBut.modCur _ s).trans htable⟩
  | run hdec => exact ⟨⟨rfl, rfl, rfl, rfl⟩, .refl ..⟩

/-- The start of a command writes `STATUS.ERR` and `ERR_CODE` only (R130). -/
theorem CommandKept.of_startCommand {s t : State} (h : CommandKept (startCommand s) t) : CommandKept s t :=
  ⟨⟨h.inMem, h.host, h.hostq, h.caps⟩, h.frames⟩

theorem execParse_kept (s : State) : NextSatisfies (HostSideKept s) (execParse s) := by
  unfold execParse
  split
  · exact ⟨rfl, rfl, rfl, rfl⟩
  · trivial

/-! ### Every instruction -/

theorem exec_kept (i : Instr) (s : State) : NextSatisfies (InstrKept i s) (exec i s) := by
  have kept {c : Caller} {t : State} (h : CommandAnswer c (startCommand s) t) : CommandKept s t :=
    .of_startCommand h.kept
  cases i with
  | hdrSig bytes => exact execHdrSig_kept ..
  | hdrLsd width height pk bg aspect => exact ⟨⟨rfl, rfl, rfl, rfl⟩, rfl, rfl, rfl, rfl⟩
  | gct entries => exact ⟨⟨rfl, rfl, rfl, rfl⟩, rfl, rfl, rfl, rfl⟩
  | extGce len pk delay index term => exact execExtGce_kept ..
  | extApp len ident => exact execExtApp_kept ..
  | extAppNs size ident loops term => exact execExtAppNs_kept ..
  | extAppX ident => exact ItemKept.skipFrom ..
  | extComment => exact ItemKept.skipFrom ..
  | extPtext => exact ItemKept.skipFrom ..
  | extUnknown label => exact ItemKept.raiseParse ..
  | img left top width height pk => exact ((ItemKept.preAllocate s).modPend _).goto ..
  | lct entries => exact ((ItemKept.refl s).modPend _).goto ..
  | mcs m => exact execMcs_kept ..
  | imgData => exact ((ItemKept.refl s).modPend _).goto ..
  | subblock body => exact execSubblock_kept ..
  | subblockEnd => exact execSubblockEnd_kept s
  | trailer => exact ⟨⟨rfl, rfl, rfl, rfl⟩, rfl, rfl, rfl, rfl⟩
  | blockUnknown tag => exact ItemKept.raiseParse ..
  | clear => rfl
  | eoi => rfl
  | badcode code => rfl
  | dataFirst code => rfl
  | data code => exact execData_kept code s
  | dataKwkwk => exact execDataKwkwk_kept s
  | parse => exact execParse_kept s
  | decode => exact (execDecode_answer s).mono fun _ => kept
  | deinterlace => exact (execDeinterlace_answer s).mono fun _ => kept
  | compose => exact (execCompose_answer s).mono fun _ => kept
  | cmdIllegal code => exact kept (c := .decode) (.usage ..)

/-- Whatever its stream, an instruction leaves the host's side alone. -/
theorem InstrKept.hostSide {i : Instr} {s t : State} (h : InstrKept i s t) : HostSideKept s t := by
  cases i with
  | clear | eoi | badcode | dataFirst | data | dataKwkwk => exact CodeKept.hostSide h
  | parse => exact h
  | decode | deinterlace | compose | cmdIllegal => exact CommandKept.toHostSideKept h
  | _ => exact ItemKept.toHostSideKept h

/-- The instructions that stand in the container stream have the frame of an item (R160). -/
theorem kept_of_container {i : Instr} {ph : ParsePhase} {size : BitVec 3}
    (h : i.standsAt (.container ph size) = true) : InstrKept i = ItemKept := by
  cases i with
  | clear | eoi | badcode | dataFirst | data | dataKwkwk | parse | decode | deinterlace | compose | cmdIllegal =>
    simp [Instr.standsAt] at h
  | _ => rfl

/-- The instructions that stand in the code stream have the frame of a code (R105). -/
theorem kept_of_lzw {i : Instr} {q : LzwCtx} (h : i.standsAt (.lzw q) = true) : InstrKept i = CodeKept := by
  cases i with
  | clear | eoi | badcode | dataFirst | data | dataKwkwk => rfl
  | _ => simp [Instr.standsAt] at h

theorem kept_of_perFrame {i : Instr} (h : i ∈ [Instr.decode, .deinterlace, .compose]) :
    InstrKept i = CommandKept := by
  simp only [List.mem_cons, List.not_mem_nil, or_false] at h
  obtain rfl | rfl | rfl := h <;> rfl

/-- The input reads alike where it, and the host's `LEN`, are kept. -/
theorem HostSideKept.inByte {s t : State} (h : HostSideKept s t) (o : Nat) : inByte t o = inByte s o := by
  simp only [Machine.inByte, h.host, h.inMem]

end Sys2Proof.Machine

open Sys2Proof.Machine in
/-- Settles O53: an instruction has the frame of its stream (`exec_kept`), which is read off where it stands. -/
theorem instructionsKeepTheirFrames : Obligations.InstructionsKeepTheirFrames := by
  unfold Obligations.InstructionsKeepTheirFrames
  intro i s t hexec
  have hkept := (exec_kept i s).of_eq hexec
  have hside := InstrKept.hostSide hkept
  refine ⟨hside.inMem, hside.inByte, hside.host, hside.hostq, hside.caps, fun ⟨ph, size, hat⟩ => ?_,
    fun hmem => ?_, fun ⟨q, hat⟩ => ?_⟩
  · rw [kept_of_container hat] at hkept
    exact ⟨hkept.lzw, hkept.lzwRuns, hkept.endReason, hkept.result⟩
  · rw [kept_of_perFrame hmem] at hkept
    exact hkept.frames.others
  · rw [kept_of_lzw hat] at hkept
    exact hkept
end

section
/-! PROOFS. A command but PARSE on a frame, from the write of `CMD` until the engine is idle: no other frame changes,
and short of a fold no full cache slot does (R72, R76, R135). The run invariant is `Serving`: while the LZW engine works,
the frame table is as the command found it, and the slot to be filled is empty. -/

namespace Sys2Proof.Machine

/-! ### What a frame's caches keep -/

/-- From `f` to `g` a folded frame stays as it is, and, if the command cannot fold, a full slot keeps its contents. -/
structure Frame.CachesKept (folds : Prop) (f g : Frame) : Prop where
  folded : f.dei = .folded → g.dei = .folded ∧ g.dec = f.dec
  dec : ¬ folds → ∀ d, f.dec = some d → g.dec = some d
  dei : ¬ folds → ∀ e, f.dei = .valid e → g.dei = .valid e

theorem Frame.CachesKept.refl (folds : Prop) (f : Frame) : f.CachesKept folds f :=
  ⟨fun h => ⟨h, rfl⟩, fun _ _ h => h, fun _ _ h => h⟩

theorem Frame.CachesKept.trans {folds : Prop} {f g h : Frame} (hfg : f.CachesKept folds g)
    (hgh : g.CachesKept folds h) : f.CachesKept folds h where
  folded hf := by
    obtain ⟨hdei, hdec⟩ := hfg.folded hf
    obtain ⟨hdei', hdec'⟩ := hgh.folded hdei
    exact ⟨hdei', hdec'.trans hdec⟩
  dec hno d hf := hgh.dec hno d (hfg.dec hno d hf)
  dei hno e hf := hgh.dei hno e (hfg.dei hno e hf)

/-- What a command on frame `k` keeps of the frame table. -/
structure TableKept (folds : Prop) (k : Nat) (fs gs : List Frame) : Prop extends SameTableBut k fs gs where
  current : ∀ f, fs[k]? = some f → ∃ g, gs[k]? = some g ∧ f.CachesKept folds g

theorem TableKept.refl (folds : Prop) (k : Nat) (fs : List Frame) : TableKept folds k fs fs :=
  ⟨.refl k fs, fun f hf => ⟨f, hf, .refl folds f⟩⟩

theorem TableKept.trans {folds : Prop} {k : Nat} {fs gs hs : List Frame} (h1 : TableKept folds k fs gs)
    (h2 : TableKept folds k gs hs) : TableKept folds k fs hs where
  toSameTableBut := h1.toSameTableBut.trans h2.toSameTableBut
  current f hf := by
    obtain ⟨g, hg, hfg⟩ := h1.current f hf
    obtain ⟨h, hh, hgh⟩ := h2.current g hg
    exact ⟨h, hh, hfg.trans hgh⟩

/-- What is kept unless `folds` is kept unless anything that `folds` implies. -/
theorem TableKept.mono {folds folds' : Prop} {k : Nat} {fs gs : List Frame} (h : TableKept folds k fs gs)
    (himp : folds → folds') : TableKept folds' k fs gs where
  toSameTableBut := h.toSameTableBut
  current f hf := by
    obtain ⟨g, hg, hkept⟩ := h.current f hf
    exact ⟨g, hg, hkept.folded, fun hno => hkept.dec (mt himp hno), fun hno => hkept.dei (mt himp hno)⟩

/-- A write to the current frame that keeps its caches. -/
theorem TableKept.modCur {folds : Prop} {s : State} {w : Frame → Frame}
    (hw : (curFrame s).CachesKept folds (w (curFrame s))) :
    TableKept folds s.host.argFrame s.frames (modCur w s).frames where
  toSameTableBut := .modCur w s
  current f hf := by
    rw [curFrame_eq hf] at hw
    exact ⟨w f, by simp [hf], hw⟩

/-- Every frame of a table that is kept. -/
theorem TableKept.frame {folds : Prop} {k j : Nat} {fs gs : List Frame} (h : TableKept folds k fs gs) {f : Frame}
    (hf : fs[j]? = some f) : ∃ g, gs[j]? = some g ∧ f.CachesKept folds g := by
  by_cases hj : j = k
  · exact h.current f (hj ▸ hf) |>.imp fun g hg => hj ▸ hg
  · exact ⟨f, (h.others j hj).trans hf, .refl folds f⟩

/-! ### The writes of a per-frame command -/

/-- The command that can fold: DEINTERLACE with `OVERWRITE` (R133, R283). -/
def Folds (c : Caller) (s : State) : Prop := c = .deinterlace ∧ overwrite s = true

/-- Only an empty deinterlaced slot is filled (R133). -/
theorem fillDei_tableKept (folds : Prop) (s : State) :
    TableKept folds s.host.argFrame s.frames (fillDei s).frames := by
  unfold fillDei
  split
  · next hempty =>
    exact .modCur ⟨fun h => (nomatch hempty.symm.trans h), fun _ _ h => h,
      fun _ _ h => (nomatch hempty.symm.trans h)⟩
  · exact .refl ..
  · exact .refl ..

/-- A fold leaves a folded frame as it is (R283). -/
theorem foldDei_tableKept {folds : Prop} (hfolds : folds) (s : State) :
    TableKept folds s.host.argFrame s.frames (foldDei s).frames :=
  .modCur ⟨fun h => by simp [h], fun hno => absurd hfolds hno, fun hno => absurd hfolds hno⟩

/-- The decoded slot is filled where both slots are empty (R132). -/
theorem setDec_tableKept {folds : Prop} {s : State} (seq : List Byte) (hdec : (curFrame s).dec = none)
    (hdei : (curFrame s).dei = .empty) : TableKept folds s.host.argFrame s.frames (setDec seq s).frames :=
  .modCur ⟨fun h => (nomatch hdei.symm.trans h), fun _ _ h => (nomatch hdec.symm.trans h), fun _ _ h => h⟩

theorem finishCommand_tableKept (c : Caller) (s : State) :
    TableKept (Folds c s) s.host.argFrame s.frames (finishCommand c s).frames := by
  have hfill := fillDei_tableKept (Folds c s) s
  have hhost := fillDei_host s
  cases c with
  | decode => exact .refl ..
  | deinterlace =>
    simp only [finishCommand, finishDeinterlace]
    split
    · exact hfill
    · exact hfill
    · split
      · next hover =>
        have hfolds : Folds .deinterlace s := ⟨rfl, by simpa only [overwrite, hhost] using hover⟩
        have hfold := foldDei_tableKept hfolds (fillDei s)
        rw [hhost] at hfold
        exact hfill.trans hfold
      · exact hfill
  | compose =>
    simp only [finishCommand, finishCompose, composeInto_frames]
    split
    · exact hfill
    · exact .refl ..

/-- The decoded slot is filled, and the command goes on. -/
theorem finishCommand_setDec_tableKept (c : Caller) {s : State} (seq : List Byte) (hdec : (curFrame s).dec = none)
    (hdei : (curFrame s).dei = .empty) :
    TableKept (Folds c s) s.host.argFrame s.frames (finishCommand c (setDec seq s)).frames :=
  (setDec_tableKept seq hdec hdei).trans (finishCommand_tableKept c (setDec seq s))

/-- A frame that is not decoded has an empty deinterlaced slot, a missing frame's stand-in too (R37, R135). -/
theorem curFrame_dei_of_dec_eq_none {s : State} (hok : ∀ f ∈ s.frames, f.Ok) (hdec : (curFrame s).dec = none) :
    (curFrame s).dei = .empty := by
  by_cases hindex : s.host.argFrame < s.frames.length
  · exact (hok _ (curFrame_mem hindex)).deiAfterDec hdec
  · simp [curFrame, List.getElem?_eq_none (Nat.not_lt.1 hindex), Frame.blank]

/-! ### The steps of a command -/

/-- Where a command, started in `s`, stands: done with the frame, or in an LZW run that has not touched it. -/
inductive Serving (c : Caller) (s t : State) : Prop where
  | done (hengine : t.engine = .idle) (htable : TableKept (Folds c s) s.host.argFrame s.frames t.frames)
  | running (hengine : t.engine = .lzw c) (hframes : t.frames = s.frames) (hhost : t.host = s.host)
      (hdec : (curFrame s).dec = none) (hdei : (curFrame s).dei = .empty)

theorem Serving.tableKept {c : Caller} {s t : State} (h : Serving c s t) :
    TableKept (Folds c s) s.host.argFrame s.frames t.frames := by
  cases h with
  | done _ htable => exact htable
  | running _ hframes => exact hframes ▸ .refl ..

theorem finishCommand_engine (c : Caller) (s : State) : (finishCommand c s).engine = .idle :=
  (congrArg State.engine (finishCommand_rest c s) :)

/-- A command's first answer. -/
theorem CommandAnswer.serving {c : Caller} {s t : State} (hok : ∀ f ∈ s.frames, f.Ok) (h : CommandAnswer c s t) :
    Serving c s t := by
  cases h with
  | usage e b => exact .done rfl (.refl ..)
  | finish => exact .done (finishCommand_engine ..) (finishCommand_tableKept c s)
  | fill hdec =>
    exact .done (finishCommand_engine ..)
      (finishCommand_setDec_tableKept c _ hdec (curFrame_dei_of_dec_eq_none hok hdec))
  | run hdec => exact .running rfl rfl rfl hdec (curFrame_dei_of_dec_eq_none hok hdec)

/-- The end of the run fills the slot that was empty when the command began (R132, R237). -/
theorem finishRun_tableKept {c : Caller} {s t : State} (hframes : t.frames = s.frames) (hhost : t.host = s.host)
    (hdec : (curFrame s).dec = none) (hdei : (curFrame s).dei = .empty) :
    TableKept (Folds c s) s.host.argFrame s.frames (finishRun c t).frames := by
  have hcur : curFrame t = curFrame s := by simp only [curFrame, hframes, hhost]
  have hfolds : Folds c t = Folds c s := by simp only [Folds, overwrite, hhost]
  rw [← hframes, ← hhost, ← hfolds]
  exact finishCommand_setDec_tableKept c _ (hcur ▸ hdec) (hcur ▸ hdei)

/-- Whatever its class, a code has the frame of a code (R105). -/
theorem kept_of_decodeCode (q : LzwCtx) (c : Nat) : InstrKept (decodeCode q c) = CodeKept := by
  unfold decodeCode
  split
  · rfl
  · split
    · rfl
    · split
      · rfl
      · split
        · rfl
        · split <;> rfl

/-- A step of the run goes on with it or ends it and the command. -/
theorem step_serving {c : Caller} {s t : State} (hengine : t.engine = .lzw c) (hframes : t.frames = s.frames)
    (hhost : t.host = s.host) (hdec : (curFrame s).dec = none) (hdei : (curFrame s).dei = .empty) :
    NextSatisfies (Serving c s) (step t) := by
  obtain ⟨hidle, -, -⟩ | ⟨w, q, hidle, -⟩ | ⟨code, q, hidle, -⟩ | ⟨ph, hparse, -⟩ | ⟨c', hlzw, -, h⟩ |
    ⟨c', -, -, -, h⟩ | ⟨c', -, -, -, -, h⟩ | ⟨c', -, -, -, -, h⟩ := step_cases t
  · exact nomatch hengine.symm.trans hidle
  · exact nomatch hengine.symm.trans hidle
  · exact nomatch hengine.symm.trans hidle
  · exact nomatch hengine.symm.trans hparse
  · obtain rfl : c = c' := Engine.lzw.inj (hengine.symm.trans hlzw)
    rw [h]
    exact .done (finishCommand_engine ..) (finishRun_tableKept hframes hhost hdec hdei)
  · rw [h]
    exact .running hengine hframes hhost hdec hdei
  · rw [h]
    exact .running hengine hframes hhost hdec hdei
  · rw [h]
    have hcode := exec_kept (decodeCode (lzwCtx t) (codeAt (rawReader t) t.lzw.bitpos t.lzw.cw)) (advanceCode t)
    rw [kept_of_decodeCode] at hcode
    exact hcode.mono fun u hu =>
      .running (hu.engine.trans hengine) (hu.frames.trans hframes) (hu.hostSide.host.trans hhost) hdec hdei

/-- The steps until the engine is idle. -/
theorem runIdle_serving {c : Caller} {s t : State} (n : Nat) (h : Serving c s t) :
    NextSatisfies (Serving c s) (runIdle n t) := by
  induction n generalizing t with
  | zero => exact h
  | succ n ih =>
    unfold runIdle
    split
    · exact h
    · next hbusy =>
      cases h with
      | done hidle => exact absurd hidle hbusy
      | running hengine hframes hhost hdec hdei =>
        have hstep := step_serving hengine hframes hhost hdec hdei
        split
        · next u hu => exact ih (hstep.of_eq hu)
        · trivial
        · trivial

/-! ### A command from the write of `CMD` -/

/-- A byte other than PARSE's starts a command that answers as `CommandAnswer` says; DEINTERLACE's is `03` (R109). -/
theorem exec_decodeCommand_answer {code : Byte} (hparse : code ≠ 0x01#8) (s : State) :
    ∃ c, (c = .deinterlace → code = 0x03#8) ∧
      NextSatisfies (CommandAnswer c (startCommand s)) (exec (decodeCommand code) s) := by
  unfold decodeCommand
  rw [if_neg hparse]
  split
  · exact ⟨.decode, nofun, execDecode_answer s⟩
  · split
    · next hcode => exact ⟨.deinterlace, fun _ => hcode, execDeinterlace_answer s⟩
    · split
      · exact ⟨.compose, nofun, execCompose_answer s⟩
      · exact ⟨.decode, nofun, .next (.usage ..)⟩

/-- A command but PARSE keeps the frame table, and can fold only if it is DEINTERLACE with `OVERWRITE`. -/
theorem runCommand_tableKept {s : State} {code : Byte} (hok : ∀ f ∈ s.frames, f.Ok) (hparse : code ≠ 0x01#8) :
    NextSatisfies
      (fun t => TableKept (code = 0x03#8 ∧ overwrite s = true) s.host.argFrame s.frames t.frames)
      (runCommand code s) := by
  obtain ⟨c, hc, hanswer⟩ := exec_decodeCommand_answer hparse (applyWrite (.command code) s)
  unfold runCommand
  split
  · next u hu =>
    have hserving := CommandAnswer.serving (s := startCommand (applyWrite (.command code) s)) hok (hanswer.of_eq hu)
    exact (runIdle_serving (stepBound u) hserving).mono fun t ht =>
      ht.tableKept.mono fun ⟨hcaller, hover⟩ => ⟨hc hcaller, hover⟩
  · trivial
  · trivial

end Sys2Proof.Machine

open Sys2Proof.Machine in
/-- Settles O59: a command keeps the frame table (`runCommand_tableKept`), by the invariant `Serving` of its steps. -/
theorem cachesAreFilledOnce : Obligations.CachesAreFilledOnce := by
  unfold Obligations.CachesAreFilledOnce
  intro s t code hs _ hparse hrun
  have htable := (runCommand_tableKept hs.frames hparse).of_eq hrun
  refine ⟨htable.length, htable.others, fun j f hf => ?_⟩
  obtain ⟨g, hg, hkept⟩ := htable.frame hf
  refine ⟨g, hg, hkept.folded, fun hover => ?_⟩
  have hno : ¬ (code = 0x03#8 ∧ overwrite s = true) := fun ⟨hcode, htrue⟩ => by simp [hover hcode] at htrue
  exact ⟨hkept.dec hno, hkept.dei hno⟩
end

section
/-! PROOFS. Reads of the input and of a payload: a byte the host wrote, a 16-bit field, the bits of a code (R60, R64,
R66, R67). -/

namespace Sys2Proof.Machine

/-- A 16-bit field is its low byte and 256 times its high byte (R66). -/
theorem le16_toNat (lo hi : Byte) : (le16 lo hi).toNat = lo.toNat + 256 * hi.toNat := by
  rw [le16, BitVec.toNat_ofNat]
  omega

/-- Bit `k` of a code is the stream bit that far from the code's offset (R67). -/
theorem testBit_codeAt (rd : Nat → Option Byte) (bitpos : Nat) {cw k : Nat} (hk : k < cw) :
    (codeAt rd bitpos cw).testBit k = (inData rd ((bitpos + k) / 8)).getLsbD ((bitpos + k) % 8) := by
  induction cw with
  | zero => omega
  | succ n ih =>
    rw [codeAt, Nat.add_comm, Nat.mul_comm, Nat.testBit_two_pow_mul_add _ (codeAt_lt rd bitpos n)]
    split
    · next hlt => exact ih hlt
    · next hge =>
      obtain rfl : k = n := by omega
      simp only [streamBit, Nat.sub_self]
      cases (inData rd ((bitpos + k) / 8)).getLsbD ((bitpos + k) % 8) <;> rfl

end Sys2Proof.Machine

open Sys2Proof.Machine in
/-- Settles O4: a field by `le16_toNat`; a code by `testBit_codeAt`, and its bound by `codeAt_lt`. -/
theorem byteAndBitOrder : Obligations.ByteAndBitOrder := by
  unfold Obligations.ByteAndBitOrder
  exact ⟨fun rd o => le16_toNat _ _,
    fun raw bitpos cw k hk _ => ⟨testBit_codeAt _ bitpos hk, codeAt_lt _ bitpos cw⟩⟩

open Sys2Proof.Machine in
/-- Settles O3: a read of the memory after a write to it (`Memory.read_write`), below `LEN`. -/
theorem inputReadsWhatTheHostWrote : Obligations.InputReadsWhatTheHostWrote := by
  unfold Obligations.InputReadsWhatTheHostWrote
  intro s a o b
  simp only [inByte, applyWrite, Memory.read_write]
  split
  · split <;> rfl
  · rfl
end

section
/-! PROOFS. Palettes in the input (R62, R163, R176, R300). -/

namespace Sys2Proof.Machine

/-- The entries of a palette are the bytes of the input in order, R, G, B of each (R62, R93). -/
theorem encPalette_inPalette (rd : Nat → Option Byte) (o n : Nat) :
    encPalette (inPalette rd o n) = inBytes rd o (3 * n) := by
  induction n with
  | zero => rfl
  | succ n ih =>
    have hpalette : inPalette rd o (n + 1) = inPalette rd o n ++
        [⟨inData rd (o + 3 * n), inData rd (o + 3 * n + 1), inData rd (o + 3 * n + 2)⟩] := by
      simp [inPalette, List.range_succ]
    have hbytes : inBytes rd o (3 * (n + 1)) = inBytes rd o (3 * n) ++
        [inData rd (o + 3 * n), inData rd (o + 3 * n + 1), inData rd (o + 3 * n + 2)] := by
      simp [inBytes, Nat.mul_succ, List.range_succ, Nat.add_assoc]
    rw [hpalette, hbytes, ← ih]
    simp [encPalette]

/-- Unchecked reads of bytes that are there are those bytes (R65). -/
theorem inBytes_eq_of_getElem? {rd : Nat → Option Byte} {o : Nat} {bytes : List Byte}
    (h : ∀ k, k < bytes.length → rd (o + k) = bytes[k]?) : inBytes rd o bytes.length = bytes := by
  refine List.ext_getElem (inBytes_length ..) fun k _ hk => ?_
  simp [inBytes, inData, h k hk, hk]

/-- A palette that lies wholly in the input is decoded to its own bytes, whatever store it is for. -/
theorem palette_of_holds {s : State} {ph : ParsePhase} {bytes : List Byte} {size : BitVec 3}
    (hbase : itemBase ph s = s.pos) (hholds : s.Holds s.pos bytes)
    (hlength : bytes.length = 3 * 2 ^ (size.toNat + 1)) :
    encPalette (inPalette (itemReader ph s) 0 (palLen size)) = bytes := by
  rw [encPalette_inPalette, palLen, ← hlength]
  refine inBytes_eq_of_getElem? fun k hk => ?_
  rw [itemReader, hbase, Nat.zero_add]
  exact hholds k hk

end Sys2Proof.Machine

open Sys2Proof.Machine in
/-- Settles O18: the store is the item's; its entries are the bytes of the input by `palette_of_holds`. -/
theorem palettesGoToTheirStore : Obligations.PalettesGoToTheirStore := by
  unfold Obligations.PalettesGoToTheirStore
  refine ⟨fun s es => ⟨rfl, rfl⟩, fun s bytes hholds => ⟨fun hengine hlength => ?_, fun hengine hlength => ?_⟩⟩
  · exact ⟨_, step_parse hengine, inPalette_length .., palette_of_holds (ph := .gct) rfl hholds hlength, rfl, rfl⟩
  · exact ⟨_, step_parse hengine, inPalette_length .., palette_of_holds (ph := .lct) rfl hholds hlength, rfl, rfl⟩
end

section
/-! PROOFS. An input that ends: the first checked read at or beyond `LEN` fails the PARSE (R64, R182). -/

namespace Sys2Proof.Machine

/-- A checked read at or beyond `LEN` is `ABSENT` (R64). -/
theorem inByte_eq_none {s : State} {o : Nat} (h : s.host.len ≤ o) : inByte s o = none :=
  if_neg (Nat.not_lt.2 h)

/-! ### The signature -/

/-- The first byte that differs from the signature, absent or not, is the one reported (R161). -/
theorem sigMismatch_eq_some {sig : List Byte} {bytes : List (Option Byte)} {i k : Nat}
    (hsame : ∀ j, j < k → bytes[j]?.join = sig[j]?) (hk : k < sig.length) (hdiff : bytes[k]?.join ≠ sig[k]?) :
    sigMismatch sig bytes i = some (i + k, bytes[k]?.join) := by
  induction sig generalizing bytes i k with
  | nil => simp at hk
  | cons b rest ih =>
    rw [sigMismatch, List.head?_eq_getElem?]
    cases k with
    | zero => rw [if_neg (by simpa using hdiff), Nat.add_zero]
    | succ k =>
      rw [if_pos (by simpa using hsame 0 (Nat.succ_pos k)),
        ih (fun j hj => by simpa using hsame (j + 1) (Nat.succ_lt_succ hj)) (Nat.lt_of_succ_lt_succ hk)
          (by simpa using hdiff)]
      simp [Nat.add_assoc, Nat.add_comm 1 k]

/-- A checked read of the header is the one at its offset. -/
theorem inChecked_getElem?_join (rd : Nat → Option Byte) {o n k : Nat} (hk : k < n) :
    (inChecked rd o n)[k]?.join = rd (o + k) := by
  simp [inChecked, hk]

/-- A signature that the input cuts fails where the input ends (R161, R182). -/
theorem step_sig_absent {s : State} (hengine : s.engine = .parse .sig) (hlen : s.host.len < 6)
    (hsame : ∀ j, j < s.host.len → inByte s j = Config.sig[j]?) :
    step s = .next (s.afterParseError 0x10#8 s.host.len none) := by
  have hread {j : Nat} (hj : j < 6) : (inChecked (itemReader .sig s) 0 6)[j]?.join = inByte s j := by
    rw [inChecked_getElem?_join _ hj, itemReader, itemBase, Nat.zero_add, Nat.zero_add]
  have hnone : (inChecked (itemReader .sig s) 0 6)[s.host.len]?.join = none :=
    (hread hlen).trans (inByte_eq_none (Nat.le_refl _))
  have hmismatch := sigMismatch_eq_some (sig := Config.sig) (bytes := inChecked (itemReader .sig s) 0 6) (i := 0)
    (k := s.host.len) (fun j hj => (hread (by omega)).trans (hsame j hj)) hlen
    (by rw [hnone, List.getElem?_eq_getElem hlen]; exact nofun)
  rw [hnone, Nat.zero_add] at hmismatch
  rw [step_parse hengine]
  simp only [decodeItem, exec, execHdrSig, hmismatch]
  rfl

/-! ### Blocks and extensions -/

theorem step_tag_absent {s : State} (hengine : s.engine = .parse .block) (hlen : s.host.len ≤ s.pos) :
    step s = .next (s.afterParseError 0x20#8 s.pos none) := by
  have htag : itemReader .block s 0 = none := inByte_eq_none hlen
  have hdecode : decodeBlock (itemReader .block s) = .blockUnknown none := by simp [decodeBlock, htag]
  rw [step_parse hengine]
  simp only [decodeItem, hdecode]
  rfl

theorem step_label_absent {s : State} (hengine : s.engine = .parse .block) (htag : inByte s s.pos = some 0x21#8)
    (hlen : s.host.len = s.pos + 1) : step s = .next (s.afterParseError 0x21#8 (s.pos + 1) none) := by
  have hlabel : itemReader .block s 1 = none := inByte_eq_none (Nat.le_of_eq hlen)
  have hdecode : decodeExtension (itemReader .block s) = .extUnknown none := by simp [decodeExtension, hlabel]
  rw [step_extension hengine htag, hdecode]
  rfl

/-- The terminator of a Graphic Control extension, at the offset its length byte gives (R97, R166). -/
theorem step_gceTerminator_absent {s : State} (hengine : s.engine = .parse .block)
    (htag : inByte s s.pos = some 0x21#8) (hlabel : inByte s (s.pos + 1) = some 0xF9#8)
    (hlen : s.host.len ≤ s.pos + 3 + (inData (inByte s) (s.pos + 2)).toNat) :
    step s = .next (s.afterParseError 0x22#8 (s.pos + 3 + (inData (inByte s) (s.pos + 2)).toNat) none) := by
  have hterm : itemReader .block s (3 + (inData (inByte s) (s.pos + 2)).toNat) = none :=
    inByte_eq_none (Nat.add_assoc .. ▸ hlen)
  have hlabel : itemReader .block s 1 = some 0xF9#8 := hlabel
  have hdecode : decodeExtension (itemReader .block s) =
      .extGce (inData (inByte s) (s.pos + 2)) (inData (itemReader .block s) 3) (inHalf (itemReader .block s) 4)
        (inData (itemReader .block s) 6) none := by
    rw [← hterm]
    exact if_pos hlabel
  rw [step_extension hengine htag, hdecode]
  rfl

theorem step_appLength_absent {s : State} (hengine : s.engine = .parse .block)
    (htag : inByte s s.pos = some 0x21#8) (hlabel : inByte s (s.pos + 1) = some 0xFF#8)
    (hlen : s.host.len = s.pos + 2) : step s = .next (s.afterParseError 0x24#8 (s.pos + 2) none) := by
  have hlength : itemReader .block s 2 = none := inByte_eq_none (Nat.le_of_eq hlen)
  have hlabel : itemReader .block s 1 = some 0xFF#8 := hlabel
  have hdecode : decodeExtension (itemReader .block s) =
      .extApp none (inChecked (itemReader .block s) 3 11) := by
    simp [decodeExtension, hlabel, hlength]
  rw [step_extension hengine htag, hdecode]
  rfl

/-! ### The loop count, in offset order (R168) -/

/-- The loop count's checked bytes stand 14, 15 and 18 after the tag. -/
theorem step_netscape {s : State} (hengine : s.engine = .parse (.app true)) :
    step s = execExtAppNs (inByte s (s.pos + 14)) (inByte s (s.pos + 15)) (inHalf (itemReader (.app true) s) 16)
      (inByte s (s.pos + 18)) s := step_parse hengine

theorem step_netscapeSize_absent {s : State} (hengine : s.engine = .parse (.app true))
    (hlen : s.host.len = s.pos + 14) : step s = .next (s.afterParseError 0x25#8 (s.pos + 14) none) := by
  rw [step_netscape hengine, inByte_eq_none (Nat.le_of_eq hlen)]
  rfl

theorem step_netscapeId_absent {s : State} (hengine : s.engine = .parse (.app true))
    (hsize : inByte s (s.pos + 14) = some 3#8) (hlen : s.host.len = s.pos + 15) :
    step s = .next (s.afterParseError 0x26#8 (s.pos + 15) none) := by
  rw [step_netscape hengine, hsize, inByte_eq_none (o := s.pos + 15) (Nat.le_of_eq hlen)]
  rfl

theorem step_netscapeTerminator_absent {s : State} (hengine : s.engine = .parse (.app true))
    (hsize : inByte s (s.pos + 14) = some 3#8) (hid : inByte s (s.pos + 15) = some 1#8)
    (hlen : s.host.len ≤ s.pos + 18) : step s = .next (s.afterParseError 0x27#8 (s.pos + 18) none) := by
  rw [step_netscape hengine, hsize, hid, inByte_eq_none (o := s.pos + 18) hlen]
  rfl

/-! ### Image data -/

theorem step_image_absent {s : State} (hengine : s.engine = .parse (.chain .image)) (hlen : s.host.len ≤ s.pos) :
    step s = .next (s.afterParseError 0x23#8 s.pos none) := by
  have hlength : itemReader (.chain .image) s 0 = none := inByte_eq_none hlen
  rw [step_parse hengine]
  simp only [decodeItem, decodeChain_absent hlength, exec, execSubblock, chainKind_of hengine, chainAt_image]
  rfl

theorem step_mcs_absent {s : State} (hengine : s.engine = .parse .mcs) (hlen : s.host.len ≤ s.pos) :
    step s = .next (s.afterParseError 0x28#8 s.pos none) := by
  have hbyte : itemReader .mcs s 0 = none := inByte_eq_none hlen
  rw [step_parse hengine]
  simp only [decodeItem, hbyte]
  rfl

end Sys2Proof.Machine

open Sys2Proof.Machine in
/-- Settles O30: one lemma for each checked read of the table of R182; a skipped chain's is `step_skip_absent`. -/
theorem exhaustedInputFailsAtTheFirstCheckedRead : Obligations.ExhaustedInputFailsAtTheFirstCheckedRead := by
  unfold Obligations.ExhaustedInputFailsAtTheFirstCheckedRead
  exact fun s => ⟨step_sig_absent, step_tag_absent, step_label_absent, step_gceTerminator_absent,
    step_appLength_absent, step_netscapeSize_absent, step_netscapeId_absent, step_netscapeTerminator_absent,
    fun c hengine hlen => step_skip_absent hengine (inByte_eq_none hlen), step_image_absent, step_mcs_absent⟩
end

section
/-! PROOFS. Container items and host commands decode from their own bytes (R91 to R103, R109, R111). -/

namespace Sys2Proof.Machine

/-! ### Bytes a stream holds -/

/-- A stream holds these bytes from a distance on. -/
def ReadsAt (rd : Nat → Option Byte) (o : Nat) (bytes : List Byte) : Prop :=
  ∀ k, k < bytes.length → rd (o + k) = bytes[k]?

/-- A stream made of some bytes and others after them holds the first ones. -/
theorem readsAt_getElem?_append (bytes rest : List Byte) : ReadsAt (fun k => (bytes ++ rest)[k]?) 0 bytes :=
  fun k hk => by simp [List.getElem?_append_left hk]

@[simp] theorem readsAt_nil (rd : Nat → Option Byte) (o : Nat) : ReadsAt rd o [] := nofun

@[simp] theorem readsAt_cons (rd : Nat → Option Byte) (o : Nat) (b : Byte) (bytes : List Byte) :
    ReadsAt rd o (b :: bytes) ↔ rd o = some b ∧ ReadsAt rd (o + 1) bytes := by
  refine ⟨fun h => ⟨h 0 (Nat.succ_pos _), fun k hk => ?_⟩, fun ⟨hfirst, hrest⟩ k hk => ?_⟩
  · rw [Nat.add_assoc, Nat.add_comm 1]
    exact h (k + 1) (Nat.succ_lt_succ hk)
  · cases k with
    | zero => exact hfirst
    | succ k =>
      rw [Nat.add_comm k, ← Nat.add_assoc, Nat.add_comm 1]
      exact hrest k (Nat.lt_of_succ_lt_succ hk)

@[simp] theorem readsAt_append (rd : Nat → Option Byte) (o : Nat) (a b : List Byte) :
    ReadsAt rd o (a ++ b) ↔ ReadsAt rd o a ∧ ReadsAt rd (o + a.length) b := by
  induction a generalizing o with
  | nil => simp
  | cons x xs ih => simp [ih, and_assoc, Nat.add_assoc, Nat.add_comm 1]

/-! ### Operands of several bytes -/

theorem loByte_eq_setWidth (h : Half) : loByte h = h.setWidth 8 := by
  apply BitVec.eq_of_toNat_eq
  simp [loByte]

theorem hiByte_eq_setWidth (h : Half) : hiByte h = (h >>> 8).setWidth 8 := by
  apply BitVec.eq_of_toNat_eq
  simp [hiByte, Nat.shiftRight_eq_div_pow]

/-- A 16-bit field is told by its two bytes (R66). -/
@[simp] theorem le16_loByte_hiByte (h : Half) : le16 (loByte h) (hiByte h) = h := by
  apply BitVec.eq_of_toNat_eq
  simp only [le16_toNat, loByte, hiByte, BitVec.toNat_ofNat]
  omega

/-- Checked operands that are all there are read back from their bytes (R64). -/
theorem inChecked_eq {rd : Nat → Option Byte} {o : Nat} {operands : List (Option Byte)}
    (hsome : operands.all Option.isSome = true) (h : ReadsAt rd o (operands.map encChecked)) :
    inChecked rd o operands.length = operands := by
  refine List.ext_getElem (by simp [inChecked]) fun k _ hk => ?_
  obtain ⟨b, hb⟩ := Option.isSome_iff_exists.1 (List.all_eq_true.1 hsome _ (List.getElem_mem hk))
  simp [inChecked, h k (by simpa using hk), hk, hb, encChecked]

/-- A palette is told by its bytes (R62, R93). -/
theorem encPalette_injective : Function.Injective encPalette := by
  intro a b h
  induction a generalizing b with
  | nil => cases b <;> simp_all [encPalette]
  | cons x xs ih =>
    cases b with
    | nil => simp [encPalette] at h
    | cons y ys =>
      obtain ⟨r, g, b⟩ := x
      obtain ⟨r', g', b'⟩ := y
      simp only [encPalette, List.flatMap_cons, List.cons_append, List.nil_append, List.cons.injEq] at h
      obtain ⟨rfl, rfl, rfl, htail⟩ := h
      rw [ih htail]

/-- A palette is read back from its bytes (R93). -/
theorem inPalette_eq {rd : Nat → Option Byte} {o : Nat} {es : List Rgb} (h : ReadsAt rd o (encPalette es)) :
    inPalette rd o es.length = es :=
  encPalette_injective <| by rw [encPalette_inPalette, ← encPalette_length, inBytes_eq_of_getElem? h]

/-! ### Host commands -/

theorem decodeCommand_encodeBytes {i : Instr} {rd : Nat → Option Byte} (hwf : i.wellFormed = true)
    (hat : i.standsAt .host = true) (h : ReadsAt rd 0 (encodeBytes i)) : decodeCommand (inData rd 0) = i := by
  cases i with
  | parse | decode | deinterlace | compose =>
    simp only [encodeBytes, readsAt_cons] at h
    simp [decodeCommand, inData, h]
  | cmdIllegal code =>
    simp only [encodeBytes, readsAt_cons] at h
    simp_all [Instr.wellFormed, decodeCommand, inData]
  | _ => cases hat

/-! ### Blocks and extensions -/

/-- The byte that stands for the terminator among the fields of a Graphic Control extension (R97, D8). -/
theorem gceInner_read {rd : Nat → Option Byte} {len pk index : Byte} {delay : Half} (hshort : len.toNat < 4)
    (h : ReadsAt rd 0 ([0x21#8, 0xF9#8, len, pk] ++ encHalf delay ++ [index])) :
    rd (3 + len.toNat) = some (Instr.gceInner len pk delay index) := by
  obtain ⟨n, rfl⟩ : ∃ n : Fin 4, len = BitVec.ofNat 8 n := ⟨⟨len.toNat, hshort⟩, by simp⟩
  simp only [encHalf, List.cons_append, List.nil_append, readsAt_cons] at h
  obtain ⟨-, -, -, hpk, hlo, hhi, hindex, -⟩ := h
  rw [loByte_eq_setWidth] at hlo
  rw [hiByte_eq_setWidth] at hhi
  match n with
  | 0 => exact hpk
  | 1 => exact hlo
  | 2 => exact hhi
  | 3 => exact hindex

/-- The terminator of a well-formed Graphic Control extension stands at offset `3 + L` of its bytes: after the fields
and the bytes that are skipped, or, for an `L` below 4, among the fields (R97, D8). -/
theorem gceTerminator_read {rd : Nat → Option Byte} {len pk index : Byte} {delay : Half} {term : Option Byte}
    (hwf : (Instr.extGce len pk delay index term).wellFormed = true)
    (h : ReadsAt rd 0 (encodeBytes (.extGce len pk delay index term))) : rd (3 + len.toNat) = term := by
  simp only [Instr.wellFormed, Bool.and_eq_true, Bool.or_eq_true, beq_iff_eq, decide_eq_true_eq] at hwf
  obtain ⟨rfl, hterm⟩ := hwf
  by_cases hlong : 4 ≤ len.toNat
  · have hoff : 7 + (len.toNat - 4) = 3 + len.toNat := by omega
    rw [encodeBytes, if_pos hlong, readsAt_append, readsAt_append _ _ (List.replicate _ _),
      List.length_replicate] at h
    obtain ⟨-, -, hlast⟩ := h
    rw [← hoff]
    exact hlast 0 Nat.one_pos
  · rw [encodeBytes, if_neg hlong, List.append_nil] at h
    rw [gceInner_read (Nat.lt_of_not_le hlong) h, hterm.resolve_left hlong]

/-- A block decodes from its own bytes (R94 to R100). -/
theorem decodeBlock_encodeBytes {i : Instr} {rd : Nat → Option Byte} {size : BitVec 3} (hwf : i.wellFormed = true)
    (hat : i.standsAt (.container .block size) = true) (h : ReadsAt rd 0 (encodeBytes i)) : decodeBlock rd = i := by
  cases i with
  | extGce len pk delay index term =>
    have hterm := gceTerminator_read hwf h
    simp only [encodeBytes, encHalf, List.cons_append, List.nil_append, readsAt_cons] at h
    simp [decodeBlock, decodeExtension, inHalf, inData, h, hterm]
  | extApp len ident =>
    simp only [Instr.wellFormed, Bool.and_eq_true, beq_iff_eq] at hwf
    obtain ⟨⟨rfl, hcount⟩, hsome⟩ := hwf
    simp only [encodeBytes, List.cons_append, List.nil_append, readsAt_cons] at h
    obtain ⟨htag, hlabel, hlen, hident⟩ := h
    have hoperands := inChecked_eq hsome hident
    rw [hcount] at hoperands
    simp [decodeBlock, decodeExtension, htag, hlabel, hlen, hoperands, encChecked]
  | extComment | extPtext | trailer =>
    simp only [encodeBytes, readsAt_cons] at h
    simp [decodeBlock, decodeExtension, h]
  | extUnknown label =>
    simp only [Instr.wellFormed, Bool.and_eq_true, Option.isSome_iff_exists] at hwf
    obtain ⟨⟨b, rfl⟩, hlabel⟩ := hwf
    simp only [encodeBytes, readsAt_cons, encChecked] at h
    simp_all [decodeBlock, decodeExtension]
  | img left top width height pk =>
    simp only [encodeBytes, encHalf, List.cons_append, List.nil_append, readsAt_cons] at h
    simp [decodeBlock, inHalf, inData, h]
  | blockUnknown tag =>
    simp only [Instr.wellFormed, Bool.and_eq_true, Option.isSome_iff_exists] at hwf
    obtain ⟨⟨b, rfl⟩, htag⟩ := hwf
    simp only [encodeBytes, readsAt_cons, encChecked] at h
    simp_all [decodeBlock]
  | _ => cases hat

/-! ### Chains -/

/-- A sub-block, or the end of its chain, decodes from its own bytes (R101). -/
theorem decodeChain_encodeBytes {i : Instr} {rd : Nat → Option Byte} {k : ChainKind} {size : BitVec 3}
    (hwf : i.wellFormed = true) (hat : i.standsAt (.container (.chain k) size) = true)
    (h : ReadsAt rd 0 (encodeBytes i)) : decodeChain rd = i := by
  cases i with
  | subblock body =>
    cases body with
    | none => cases hwf
    | some data =>
      have hlen : 1 ≤ data.length ∧ data.length ≤ 255 := by
        simp only [Instr.wellFormed, Bool.and_eq_true, decide_eq_true_eq] at hwf
        exact hwf
      obtain ⟨htoNat, hne⟩ := subblock_lengthByte hlen
      obtain ⟨hlength, hdata⟩ := (readsAt_cons ..).1 h
      rw [decodeChain_subblock hlength hne, htoNat, inBytes_eq_of_getElem? hdata]
  | subblockEnd => exact decodeChain_end (h 0 Nat.one_pos)
  | _ => cases hat

/-! ### Every item -/

/-- A palette of the size its place fixes decodes from its own bytes (R93, R163, R176). -/
theorem inPalette_palLen_eq {rd : Nat → Option Byte} {es : List Rgb} {size : BitVec 3}
    (hlen : (es.length == 2 ^ (size.toNat + 1)) = true) (h : ReadsAt rd 0 (encPalette es)) :
    inPalette rd 0 (palLen size) = es := by
  rw [palLen, ← beq_iff_eq.1 hlen, inPalette_eq h]

/-- A container item decodes from its own bytes, at its place of the stream (R90 to R103). -/
theorem decodeItem_encodeBytes {i : Instr} {rd : Nat → Option Byte} {ph : ParsePhase} {size : BitVec 3}
    (hwf : i.wellFormed = true) (hat : i.standsAt (.container ph size) = true) (h : ReadsAt rd 0 (encodeBytes i)) :
    decodeItem ph size rd = i := by
  cases ph with
  | sig =>
    cases i with
    | hdrSig bytes =>
      obtain rfl := beq_iff_eq.1 hwf
      exact congrArg Instr.hdrSig (inChecked_eq rfl h)
    | _ => cases hat
  | lsd =>
    cases i with
    | hdrLsd width height pk bg aspect =>
      simp only [encodeBytes, encHalf, List.cons_append, List.nil_append, readsAt_cons] at h
      simp [decodeItem, inHalf, inData, h]
    | _ => cases hat
  | gct =>
    cases i with
    | gct es => exact congrArg Instr.gct (inPalette_palLen_eq hat h)
    | _ => cases hat
  | block => exact decodeBlock_encodeBytes hwf hat h
  | app netscape =>
    cases netscape with
    | true =>
      cases i with
      | extAppNs nsSize ident loops term =>
        simp only [Instr.wellFormed, Bool.and_eq_true, beq_iff_eq] at hwf
        obtain ⟨⟨rfl, rfl⟩, rfl⟩ := hwf
        simp only [encodeBytes, encHalf, encChecked, Config.netscape, List.cons_append, List.nil_append,
          readsAt_cons] at h
        simp [decodeItem, inHalf, inData, h]
      | _ => cases hat
    | false =>
      cases i with
      | extAppX ident =>
        simp only [Instr.wellFormed, Bool.and_eq_true, beq_iff_eq] at hwf
        obtain ⟨⟨hcount, hsome⟩, -⟩ := hwf
        simp only [encodeBytes, List.cons_append, List.nil_append, readsAt_cons] at h
        obtain ⟨-, -, -, hident⟩ := h
        have hoperands := inChecked_eq hsome hident
        rw [hcount] at hoperands
        exact congrArg Instr.extAppX hoperands
      | _ => cases hat
  | lct =>
    cases i with
    | lct es => exact congrArg Instr.lct (inPalette_palLen_eq hat h)
    | _ => cases hat
  | mcs =>
    cases i with
    | mcs m =>
      cases m with
      | none => cases hwf
      | some b => exact congrArg Instr.mcs (h 0 (Nat.succ_pos _))
    | _ => cases hat
  | imgData =>
    cases i with
    | imgData => rfl
    | _ => cases hat
  | chain k => exact decodeChain_encodeBytes hwf hat h

end Sys2Proof.Machine

open Sys2Proof.Machine in
/-- Settles O7: the stream holds the encoded bytes, whatever follows them (`readsAt_getElem?_append`); then by the
place an item stands at. -/
theorem itemsDecodeFromTheirEncoding : Obligations.ItemsDecodeFromTheirEncoding := by
  unfold Obligations.ItemsDecodeFromTheirEncoding
  intro c i rest hc hwf hat
  have hread := readsAt_getElem?_append (Sys2Proof.encodeBytes i) rest
  cases c with
  | host => exact congrArg Except.ok (decodeCommand_encodeBytes hwf hat hread)
  | container ph size => exact congrArg Except.ok (decodeItem_encodeBytes hwf hat hread)
  | lzw q => exact absurd rfl (hc q)
end

section
/-! PROOFS. `PACK` and the codes of an LZW stream: read back at their widths, and each code decoded from its own bits
(R67, R104, R105, R112). -/

namespace Sys2Proof.Machine

/-! ### The bytes of a number -/

theorem bytesOf_length (n v : Nat) : (bytesOf n v).length = n := by
  induction n generalizing v with
  | zero => rfl
  | succ n ih => rw [bytesOf, List.length_cons, ih]

/-- Byte `k` of a number. -/
theorem bytesOf_getElem? (n v k : Nat) :
    (bytesOf n v)[k]? = if k < n then some (BitVec.ofNat 8 (v / 2 ^ (8 * k))) else none := by
  induction n generalizing v k with
  | zero => rfl
  | succ n ih =>
    cases k with
    | zero =>
      have hbyte : BitVec.ofNat 8 (v % 256) = BitVec.ofNat 8 v := BitVec.eq_of_toNat_eq (by simp)
      simp [bytesOf, hbyte]
    | succ k =>
      rw [bytesOf, List.getElem?_cons_succ, ih, Nat.div_div_eq_div_mul, Nat.mul_succ, Nat.pow_add']
      simp

/-- Stream bit `j` of the bytes of a number that they hold is its bit `j` (R67). -/
theorem getLsbD_inData_bytesOf {n v : Nat} (hv : v < 2 ^ (8 * n)) (j : Nat) :
    (inData (fun k => (bytesOf n v)[k]?) (j / 8)).getLsbD (j % 8) = v.testBit j := by
  simp only [inData, bytesOf_getElem?]
  split
  · next hk =>
    rw [Option.getD_some, BitVec.getLsbD_ofNat, Nat.testBit_div_two_pow, Nat.mod_add_div]
    simp [Nat.mod_lt]
  · next hk =>
    have hj : 8 * n ≤ j := by omega
    simp [Nat.testBit_lt_two_pow (Nat.lt_of_lt_of_le hv (Nat.pow_le_pow_right Nat.two_pos hj))]

/-- The code of `w` bits at bit offset `b` of the bytes of a number (R67). -/
theorem codeAt_bytesOf {n v : Nat} (hv : v < 2 ^ (8 * n)) (b w : Nat) :
    codeAt (fun k => (bytesOf n v)[k]?) b w = v / 2 ^ b % 2 ^ w := by
  refine Nat.eq_of_testBit_eq fun i => ?_
  rw [Nat.testBit_mod_two_pow, Nat.testBit_div_two_pow]
  by_cases hi : i < w
  · simp [testBit_codeAt _ _ hi, getLsbD_inData_bytesOf hv, hi, Nat.add_comm]
  · have hlt := Nat.lt_of_lt_of_le (codeAt_lt (fun k => (bytesOf n v)[k]?) b w)
      (Nat.pow_le_pow_right Nat.two_pos (Nat.le_of_not_lt hi))
    simp [Nat.testBit_lt_two_pow hlt, hi]

/-! ### `PACK` (R112) -/

theorem pack_length (cs : List (Nat × Nat)) : (pack cs).length = (packBits cs + 7) / 8 := bytesOf_length ..

/-- Codes that fit their widths make a number that fits their bits. -/
theorem packNum_lt {cs : List (Nat × Nat)} (hcs : ∀ c ∈ cs, c.1 < 2 ^ c.2) : packNum cs < 2 ^ packBits cs := by
  induction cs with
  | nil => exact Nat.one_pos
  | cons c cs ih =>
    obtain ⟨hc, hrest⟩ := List.forall_mem_cons.1 hcs
    rw [packNum, packBits, Nat.pow_add]
    calc c.1 + 2 ^ c.2 * packNum cs < 2 ^ c.2 * (packNum cs + 1) := by rw [Nat.mul_succ]; omega
      _ ≤ 2 ^ c.2 * 2 ^ packBits cs := Nat.mul_le_mul_left _ (ih hrest)

/-- Later codes stand above the bits of the earlier ones. -/
theorem packNum_append (a b : List (Nat × Nat)) : packNum (a ++ b) = packNum a + 2 ^ packBits a * packNum b := by
  induction a with
  | nil => simp [packNum, packBits]
  | cons c cs ih =>
    rw [List.cons_append, packNum, packNum, packBits, ih, Nat.mul_add, ← Nat.mul_assoc, ← Nat.pow_add,
      Nat.add_assoc]

/-- The bytes of `PACK` hold the number of the codes. -/
theorem packNum_lt_bytes {cs : List (Nat × Nat)} (hcs : ∀ c ∈ cs, c.1 < 2 ^ c.2) :
    packNum cs < 2 ^ (8 * ((packBits cs + 7) / 8)) :=
  Nat.lt_of_lt_of_le (packNum_lt hcs) (Nat.pow_le_pow_right Nat.two_pos (by omega))

/-- A code of `PACK` is read back after the bits of the codes before it. -/
theorem codeAt_pack {before after : List (Nat × Nat)} {c w : Nat}
    (hcs : ∀ x ∈ before ++ (c, w) :: after, x.1 < 2 ^ x.2) :
    codeAt (fun n => (pack (before ++ (c, w) :: after))[n]?) (packBits before) w = c := by
  obtain ⟨hbefore, hrest⟩ := List.forall_mem_append.1 hcs
  have hc : c < 2 ^ w := hrest _ List.mem_cons_self
  rw [pack, codeAt_bytesOf (packNum_lt_bytes hcs), packNum_append, Nat.add_mul_div_left _ _ (Nat.two_pow_pos _),
    Nat.div_eq_of_lt (packNum_lt hbefore), Nat.zero_add, packNum, Nat.add_mul_mod_self_left, Nat.mod_eq_of_lt hc]

/-- Above the bits of the codes the bytes of `PACK` are zero. -/
theorem streamBit_pack_of_le {cs : List (Nat × Nat)} (hcs : ∀ c ∈ cs, c.1 < 2 ^ c.2) {j : Nat}
    (hj : packBits cs ≤ j) : streamBit (fun n => (pack cs)[n]?) j = 0 := by
  have hbit : (packNum cs).testBit j = false :=
    Nat.testBit_lt_two_pow (Nat.lt_of_lt_of_le (packNum_lt hcs) (Nat.pow_le_pow_right Nat.two_pos hj))
  rw [streamBit, pack, getLsbD_inData_bytesOf (packNum_lt_bytes hcs), hbit]
  rfl

/-! ### The class of a code (R105) -/

theorem decodeCode_clear (q : LzwCtx) : decodeCode q q.clear = .clear := if_pos rfl

theorem decodeCode_eoi (q : LzwCtx) : decodeCode q (q.clear + 1) = .eoi := by simp [decodeCode]

/-- A code that is neither the clear code nor the end code is classed by the pointer and the previous code. -/
theorem decodeCode_of_ne {q : LzwCtx} {c : Nat} (hclear : c ≠ q.clear) (heoi : c ≠ q.clear + 1) :
    decodeCode q c =
      if q.avail < c ∨ (q.hasPrev = false ∧ q.avail ≤ c) then .badcode (BitVec.ofNat 12 c)
      else if q.hasPrev = false then .dataFirst (BitVec.ofNat 12 c)
      else if c = q.avail then .dataKwkwk else .data (BitVec.ofNat 12 c) := by
  rw [decodeCode, if_neg hclear, if_neg heoi]

theorem decodeCode_badcode {q : LzwCtx} {c : Nat} (hclear : c ≠ q.clear) (heoi : c ≠ q.clear + 1)
    (hbad : q.avail < c ∨ (q.hasPrev = false ∧ q.avail ≤ c)) : decodeCode q c = .badcode (BitVec.ofNat 12 c) := by
  rw [decodeCode_of_ne hclear heoi, if_pos hbad]

theorem decodeCode_dataFirst {q : LzwCtx} {c : Nat} (hprev : q.hasPrev = false) (hroot : c < q.clear)
    (havail : q.clear ≤ q.avail) : decodeCode q c = .dataFirst (BitVec.ofNat 12 c) := by
  rw [decodeCode_of_ne (by omega) (by omega), if_neg (by omega), if_pos hprev]

theorem decodeCode_data {q : LzwCtx} {c : Nat} (hprev : q.hasPrev = true) (hlt : c < q.avail)
    (hclear : c ≠ q.clear) (heoi : c ≠ q.clear + 1) : decodeCode q c = .data (BitVec.ofNat 12 c) := by
  rw [decodeCode_of_ne hclear heoi, if_neg (by simp [hprev]; omega), if_neg (by simp [hprev]), if_neg (by omega)]

theorem decodeCode_dataKwkwk {q : LzwCtx} (hprev : q.hasPrev = true) (havail : q.clear + 2 ≤ q.avail) :
    decodeCode q q.avail = .dataKwkwk := by
  rw [decodeCode_of_ne (by omega) (by omega), if_neg (by simp [hprev]), if_neg (by simp [hprev]), if_pos rfl]

/-! ### A code and its own bits -/

/-- The ranges of a decoder state a code can be read in (R38, R241). -/
theorem lzwCtx_ok_iff (q : LzwCtx) : q.ok = true ↔
    q.clear + 2 ≤ q.avail ∧ q.avail ≤ 4096 ∧ 3 ≤ q.cw ∧ q.cw ≤ 12 ∧ q.clear + 2 ≤ 2 ^ q.cw ∧
      (q.hasPrev = true ∨ q.avail = q.clear + 2) := by
  simp only [LzwCtx.ok, Bool.and_eq_true, Bool.or_eq_true, decide_eq_true_eq, beq_iff_eq, and_assoc]
  exact Iff.rfl

/-- A code that can stand in a decoder state fits the width there, and its value has its class (R104, R105). -/
theorem encodeCode_of_standsAt {q : LzwCtx} {i : Instr} (hat : i.standsAt (.lzw q) = true) :
    encodeCode q i < 2 ^ q.cw ∧ decodeCode q (encodeCode q i) = i := by
  have hcode (code : Code) : BitVec.ofNat 12 code.toNat = code := by simp
  cases i with
  | clear =>
    obtain ⟨-, -, -, -, hwidth, -⟩ := (lzwCtx_ok_iff q).1 hat
    exact ⟨show q.clear < 2 ^ q.cw by omega, decodeCode_clear q⟩
  | eoi =>
    obtain ⟨-, -, -, -, hwidth, -⟩ := (lzwCtx_ok_iff q).1 hat
    exact ⟨show q.clear + 1 < 2 ^ q.cw by omega, decodeCode_eoi q⟩
  | badcode code =>
    simp only [Instr.standsAt, Bool.and_eq_true, Bool.or_eq_true, decide_eq_true_eq, bne_iff_ne,
      Bool.not_eq_true'] at hat
    obtain ⟨⟨⟨⟨-, hlt⟩, hclear⟩, heoi⟩, hbad⟩ := hat
    exact ⟨hlt, (decodeCode_badcode hclear heoi hbad).trans (congrArg _ (hcode code))⟩
  | dataFirst code =>
    simp only [Instr.standsAt, Bool.and_eq_true, decide_eq_true_eq, Bool.not_eq_true', lzwCtx_ok_iff] at hat
    obtain ⟨⟨⟨havail, -, -, -, hwidth, -⟩, hprev⟩, hroot⟩ := hat
    exact ⟨show code.toNat < 2 ^ q.cw by omega,
      (decodeCode_dataFirst hprev hroot (by omega)).trans (congrArg _ (hcode code))⟩
  | data code =>
    simp only [Instr.standsAt, Bool.and_eq_true, decide_eq_true_eq, bne_iff_ne] at hat
    obtain ⟨⟨⟨⟨⟨-, hprev⟩, hlt⟩, havail⟩, hclear⟩, heoi⟩ := hat
    exact ⟨hlt, (decodeCode_data hprev havail hclear heoi).trans (congrArg _ (hcode code))⟩
  | dataKwkwk =>
    simp only [Instr.standsAt, Bool.and_eq_true, decide_eq_true_eq, lzwCtx_ok_iff] at hat
    obtain ⟨⟨⟨havail, -⟩, hprev⟩, hlt⟩ := hat
    exact ⟨hlt, decodeCode_dataKwkwk hprev havail⟩
  | _ => cases hat

/-- A code packed alone is there whole, is read back at its width, and has its class (R104, R105, R112). -/
theorem decode_encode_code {q : LzwCtx} {i : Instr} (hat : i.standsAt (.lzw q) = true) :
    decode (.lzw { q with bitpos := 0, rawLen := (encode (.lzw q) i).length })
      (fun k => (encode (.lzw q) i)[k]?) = .ok i := by
  obtain ⟨hlt, hclass⟩ := encodeCode_of_standsAt hat
  have hbits : q.cw ≤ 8 * (pack [(encodeCode q i, q.cw)]).length := by
    rw [pack_length]
    simp only [packBits]
    omega
  have hcode : codeAt (fun k => (pack [(encodeCode q i, q.cw)])[k]?) 0 q.cw = encodeCode q i :=
    codeAt_pack (before := []) (after := []) (by simpa using hlt)
  simp only [decode, encode, Nat.sub_zero, if_neg (Nat.not_lt.2 hbits), hcode]
  exact congrArg Except.ok hclass

end Sys2Proof.Machine

open Sys2Proof.Machine in
/-- Settles O9: the bytes of `PACK` are those of one number (`codeAt_bytesOf`), in which the codes stand one above the
other (`packNum_append`). -/
theorem packedCodesReadBack : Obligations.PackedCodesReadBack := by
  unfold Obligations.PackedCodesReadBack
  intro cs hcs
  refine ⟨pack_length cs, fun before after c w heq => ?_, fun j => streamBit_pack_of_le hcs⟩
  subst heq
  exact codeAt_pack hcs

open Sys2Proof.Machine in
/-- Settles O8, by `decode_encode_code`. -/
theorem codesDecodeFromTheirEncoding : Obligations.CodesDecodeFromTheirEncoding := by
  unfold Obligations.CodesDecodeFromTheirEncoding
  exact fun q i _ hat => decode_encode_code hat

open Sys2Proof.Machine in
/-- Settles O11: one lemma for each class. -/
theorem codesAreClassedInOrder : Obligations.CodesAreClassedInOrder := by
  unfold Obligations.CodesAreClassedInOrder
  intro q c havail hstart
  refine ⟨fun h => h ▸ decodeCode_clear q, fun h => h ▸ decodeCode_eoi q, fun hbad => ?_,
    fun hprev hroot => decodeCode_dataFirst hprev hroot (by omega),
    fun hprev hlt hclear heoi => decodeCode_data hprev hlt hclear heoi,
    fun hprev h => h ▸ decodeCode_dataKwkwk hprev havail⟩
  exact decodeCode_badcode (by omega) (by omega) hbad
end

section
/-! PROOFS. Words written out (30_encoding, 41, 42), and the step of an Application extension and of an image
descriptor (R167, R175). -/

namespace Sys2Proof.Machine

/-! ### Reads of a block -/

/-- A 16-bit field of a block is the one of the input that far from `POS` (R70). -/
theorem inHalf_itemReader_block (s : State) (k : Nat) :
    inHalf (itemReader .block s) k = inHalf (inByte s) (s.pos + k) := rfl

/-- The label of an Application extension (R95, R98). -/
theorem decodeExtension_app {rd : Nat → Option Byte} (h : rd 1 = some 0xFF#8) :
    decodeExtension rd = .extApp (rd 2) (inChecked rd 3 11) := by
  simp [decodeExtension, h]

/-- The tag of an image descriptor (R94, R96). -/
theorem decodeBlock_img {rd : Nat → Option Byte} (h : rd 0 = some 0x2C#8) :
    decodeBlock rd = .img (inHalf rd 1) (inHalf rd 3) (inHalf rd 5) (inHalf rd 7) (inData rd 9) := by
  simp [decodeBlock, h]

/-! ### The Application extension -/

/-- With the length byte 11 the identifier selects the payload (R167). -/
theorem execExtApp_eleven (ident : List (Option Byte)) (s : State) :
    execExtApp (some 11#8) ident s =
      .next { s with engine := .parse (.app (decide (ident = Config.netscape.map some))) } := by
  rw [execExtApp, if_pos rfl, beq_eq_decide]
  rfl

/-- Any other length byte is an error (R167). -/
theorem execExtApp_ne_eleven {len : Option Byte} (h : len ≠ some 11#8) (ident : List (Option Byte)) (s : State) :
    execExtApp len ident s = .next (s.afterParseError 0x24#8 (s.pos + 2) len) := by
  rw [execExtApp, if_neg h]
  rfl

/-! ### The image descriptor -/

/-- A block whose tag is `2C` is an image descriptor (R164, R175). -/
theorem step_image {s : State} (hengine : s.engine = .parse .block) (htag : inByte s s.pos = some 0x2C#8) :
    step s = exec (.img (inHalf (itemReader .block s) 1) (inHalf (itemReader .block s) 3)
      (inHalf (itemReader .block s) 5) (inHalf (itemReader .block s) 7) (inData (itemReader .block s) 9)) s := by
  have hdecode := decodeBlock_img (rd := itemReader .block s) htag
  rw [step_parse hengine, ← hdecode]
  rfl

/-- After `PreAllocate` the record is the one a Graphic Control extension allocated, or the old one with the fields of
R170 reset. -/
theorem preAllocate_eq (s : State) : preAllocate s = { s with
    pendAlloc := true
    pendRec := if s.pendAlloc then s.pendRec else { s.pendRec with
      gcePresent := false, disposal := 0#3, userInput := false, transpFlag := false, transpIndex := 0#8,
      delay := 0#16, lctFlag := false, lpal := [], rawLen := 0, dec := none, dei := .empty } } := by
  by_cases halloc : s.pendAlloc = true
  · rw [preAllocate_of_alloc s halloc, if_pos halloc, ← halloc]
  · rw [preAllocate, if_neg halloc, if_neg halloc]

end Sys2Proof.Machine

/-- Settles O6: the decoder evaluated on each word. -/
theorem writtenOutWordsDecode : Obligations.WrittenOutWordsDecode := by
  unfold Obligations.WrittenOutWordsDecode
  exact ⟨rfl, rfl, rfl, rfl, rfl, rfl, rfl, rfl, rfl, rfl, rfl⟩

open Sys2Proof.Machine in
/-- Settles O20: the label selects the item, its length byte one of two results. -/
theorem applicationIdentifierSelectsThePayload : Obligations.ApplicationIdentifierSelectsThePayload := by
  unfold Obligations.ApplicationIdentifierSelectsThePayload
  refine fun s len ident => ⟨fun hengine htag hlabel => ?_, fun hlen => ?_, fun hlen => ?_⟩
  · rw [step_extension hengine htag, decodeExtension_app hlabel]
    rfl
  · subst hlen
    exact execExtApp_eleven ident s
  · exact execExtApp_ne_eleven hlen ident s

open Sys2Proof.Machine in
/-- Settles O27: the tag selects the item; the record is the allocated one or one reset by `PreAllocate`. -/
theorem imageDescriptorFillsTheRecord : Obligations.ImageDescriptorFillsTheRecord := by
  unfold Obligations.ImageDescriptorFillsTheRecord
  refine fun s left top w h pk => ⟨fun hengine htag => ?_, ?_⟩
  · rw [step_image hengine htag]
    simp only [inHalf_itemReader_block]
    rfl
  · simp only [exec, execImg, preAllocate_eq]
    cases s.pendAlloc <;> rfl
end

section
/-! PROOFS. The encoder's decoder state follows the decoder's (R112, R227, R230 to R235). -/

namespace Sys2Proof.Machine

/-- The encoder's context has the clear code, the width, the pointer and the previous code of the engine. -/
structure Tracks (q : LzwCtx) (l : Lzw) : Prop where
  clear : l.clear = q.clear
  cw : l.cw = q.cw
  avail : l.avail = q.avail
  hasPrev : l.prev.isSome = q.hasPrev

/-- The code fetch changes nothing the context is about (R224). -/
theorem tracks_advanceCode (s : State) : Tracks (lzwCtx s) (advanceCode s).lzw := ⟨rfl, rfl, rfl, rfl⟩

/-! ### The encoder's context after a code, by its class -/

theorem nextCodeCtx_clear (mcs : Nat) (q : LzwCtx) :
    nextCodeCtx mcs q q.clear = { q with cw := mcs + 1, avail := q.clear + 2, hasPrev := false } := if_pos rfl

theorem nextCodeCtx_first {q : LzwCtx} {c : Nat} (mcs : Nat) (hclear : c ≠ q.clear) (hprev : q.hasPrev = false) :
    nextCodeCtx mcs q c = { q with hasPrev := true } := by
  rw [nextCodeCtx, if_neg hclear, if_pos hprev]

/-- A later data code adds an entry while there is room, and the width grows with the pointer (R234, R235). -/
theorem nextCodeCtx_data {q : LzwCtx} {c : Nat} (mcs : Nat) (hclear : c ≠ q.clear) (hprev : q.hasPrev = true) :
    nextCodeCtx mcs q c = { q with
      avail := if q.avail < Config.maxCodes then q.avail + 1 else q.avail
      cw := if q.avail < Config.maxCodes ∧ q.avail + 1 = 2 ^ q.cw ∧ q.cw < Config.maxWidth then q.cw + 1
            else q.cw } := by
  rw [nextCodeCtx, if_neg hclear, if_neg (by simp [hprev])]
  by_cases hroom : q.avail < Config.maxCodes <;> simp [hroom]

/-! ### One code -/

/-- The end of a data code does what the encoder foresees. -/
theorem Tracks.finishData {q : LzwCtx} {l : Lzw} {c : Nat} (h : Tracks q l) (mcs : Nat) (hclear : c ≠ q.clear)
    (hprev : q.hasPrev = true) (n : Nat) (prev code root : Code) (stack : List Byte) :
    Tracks (nextCodeCtx mcs q c) (finishData n prev code root stack l) := by
  rw [nextCodeCtx_data mcs hclear hprev, finishData_eq]
  obtain ⟨hcl, hcw, hav, -⟩ := h
  exact ⟨hcl, by simp only [hcw, hav], by simp only [hav], hprev.symm⟩

theorem execData_tracks {q : LzwCtx} {s : State} {c : Nat} (h : Tracks q s.lzw) (mcs : Nat) (hclear : c ≠ q.clear)
    (hprev : q.hasPrev = true) (code : Code) :
    NextSatisfies (fun t => Tracks (nextCodeCtx mcs q c) t.lzw) (execData code s) := by
  unfold execData
  split
  · trivial
  · split
    · trivial
    · exact h.finishData mcs hclear hprev ..

theorem execDataKwkwk_tracks {q : LzwCtx} {s : State} {c : Nat} (h : Tracks q s.lzw) (mcs : Nat)
    (hclear : c ≠ q.clear) (hprev : q.hasPrev = true) :
    NextSatisfies (fun t => Tracks (nextCodeCtx mcs q c) t.lzw) (execDataKwkwk s) := by
  unfold execDataKwkwk
  split
  · trivial
  · split
    · trivial
    · split
      · trivial
      · exact h.finishData mcs hclear hprev ..

/-- Any code that does not end the run leaves the engine where the encoder foresees it (R112). -/
theorem exec_decodeCode_tracks {q : LzwCtx} {s : State} (h : Tracks q s.lzw) (c : Nat) :
    NextSatisfies (fun t => t.lzw.ended = false → Tracks (nextCodeCtx (curFrame s).mcs.toNat q c) t.lzw)
      (exec (decodeCode q c) s) := by
  unfold decodeCode
  split
  · next hclear =>
    subst hclear
    rw [nextCodeCtx_clear]
    exact fun _ => ⟨h.clear, rfl, congrArg (· + 2) h.clear, rfl⟩
  · next hclear =>
    split
    · exact nofun
    · split
      · exact nofun
      · split
        · next hprev =>
          rw [nextCodeCtx_first _ hclear hprev]
          exact fun _ => ⟨h.clear, h.cw, h.avail, rfl⟩
        · next hprev =>
          rw [Bool.not_eq_false] at hprev
          split
          · exact (execDataKwkwk_tracks h _ hclear hprev).mono fun _ ht _ => ht
          · exact (execData_tracks h _ hclear hprev _).mono fun _ ht _ => ht

end Sys2Proof.Machine

open Sys2Proof.Machine in
/-- Settles O10: the encoder's context tracks the engine over every code (`exec_decodeCode_tracks`); the fetch changes
nothing it is about. -/
theorem encoderWidthsFollowTheDecoder : Obligations.EncoderWidthsFollowTheDecoder := by
  unfold Obligations.EncoderWidthsFollowTheDecoder
  intro s t m len hm _ hexec hended
  subst hm
  obtain ⟨-, hcw, havail, hprev⟩ := (exec_decodeCode_tracks (tracks_advanceCode s) _).of_eq hexec hended
  exact ⟨hcw, havail, hprev⟩
end

section
/-! PROOFS. A step runs the instruction the decoder reads from the stream of the engine (R130, R160, R223, R224). -/

namespace Sys2Proof.Machine

/-- A command is taken off the host's writes, and its byte stands in `CMD` (R109, R130). -/
theorem step_command {s : State} {code : Byte} {q : List HostWrite} (hidle : s.engine = .idle)
    (hq : s.hostq = .command code :: q) :
    step s = exec (decodeCommand code) (applyWrite (.command code) { s with hostq := q }) := by
  simp [step, fetch, fetchHost, hidle, hq]

/-- A code of a run that goes on, after `CODE` is written and `BITPOS` moved (R223, R224). -/
theorem step_code {s : State} {c : Caller} {i : Instr} (hengine : s.engine = .lzw c) (hended : s.lzw.ended = false)
    (hout : s.lzw.out.length < npix s) (hdecode : decode (.lzw (lzwCtx s)) (rawReader s) = .ok i) :
    step s = exec i (advanceCode s) := by
  simp [step, fetch, fetchCode, hengine, hended, Nat.not_le.2 hout, hdecode]

end Sys2Proof.Machine

open Sys2Proof Sys2Proof.Machine in
/-- Settles O12: one lemma for each of the three streams (`step_command`, `step_parse`, `step_code`). -/
theorem stepRunsTheDecodedInstruction : Obligations.StepRunsTheDecodedInstruction := by
  unfold Obligations.StepRunsTheDecodedInstruction
  refine ⟨fun s code q i hidle hq hdecode => ?_, fun s ph i hengine hdecode => ?_,
    fun s c i hengine hended hout hdecode => step_code hengine hended hout hdecode⟩
  · obtain rfl : decodeCommand code = i := Except.ok.inj hdecode
    exact step_command hidle hq
  · obtain rfl : decodeItem ph (palSizeAt ph s) (itemReader ph s) = i := Except.ok.inj hdecode
    exact step_parse hengine
end


section
/-! PROOFS. The per-frame commands, said once for the three of them (R132 to R134, R140, R141, R281, R334): the check
that fails, or the decode fill and the command's remainder on the frame it leaves. -/

namespace Sys2Proof.Machine

/-! ### The checks, in order -/

/-- The instruction of a per-frame command (R109). -/
def Caller.instr : Caller → Instr
  | .decode => .decode
  | .deinterlace => .deinterlace
  | .compose => .compose

/-- The first check a per-frame command fails, if any: document, frame index, interlace flag (R334). -/
def usageError (c : Caller) (s : State) : Option ErrorName :=
  match checkFrame s with
  | some e => some e
  | none => if c = .deinterlace ∧ (curFrame s).interlace = false then some .notInterlaced else none

theorem usageError_startCommand (c : Caller) (s : State) : usageError c (startCommand s) = usageError c s := rfl

theorem usageError_noDocument {s : State} (c : Caller) (h : s.status.docValid = false) :
    usageError c s = some .noDocument := by
  simp [usageError, checkFrame, h]

theorem usageError_frameRange {s : State} (c : Caller) (hdoc : s.status.docValid = true)
    (h : s.frames.length ≤ s.host.argFrame) : usageError c s = some .frameRange := by
  simp [usageError, checkFrame, hdoc, h]

theorem usageError_notInterlaced {s : State} {f : Frame} (hdoc : s.status.docValid = true)
    (hf : s.frames[s.host.argFrame]? = some f) (h : f.interlace = false) :
    usageError .deinterlace s = some .notInterlaced := by
  have hcheck := (checkFrame_eq_none s).2 ⟨hdoc, (List.getElem?_eq_some_iff.1 hf).1⟩
  simp [usageError, hcheck, curFrame_eq hf, h]

theorem usageError_eq_none {s : State} {c : Caller} :
    usageError c s = none ↔ s.status.docValid = true ∧ s.host.argFrame < s.frames.length ∧
      (c = .deinterlace → (curFrame s).interlace = true) := by
  unfold usageError
  cases hcheck : checkFrame s with
  | some e =>
    have hfails := mt (checkFrame_eq_none s).2 (by simp [hcheck])
    simp only [reduceCtorEq, false_iff]
    exact fun ⟨hdoc, hindex, _⟩ => hfails ⟨hdoc, hindex⟩
  | none =>
    obtain ⟨hdoc, hindex⟩ := (checkFrame_eq_none s).1 hcheck
    simp [hdoc, hindex]

/-- A frame of the document passes the checks; DEINTERLACE wants it interlaced (R140, R141, R281). -/
theorem usageError_of_frame {s : State} {f : Frame} {c : Caller} (hdoc : s.status.docValid = true)
    (hf : s.frames[s.host.argFrame]? = some f) (hinterlace : c = .deinterlace → f.interlace = true) :
    usageError c s = none :=
  usageError_eq_none.2 ⟨hdoc, (List.getElem?_eq_some_iff.1 hf).1, fun hc => curFrame_eq hf ▸ hinterlace hc⟩

/-- A check that fails is all a command does (R336). -/
theorem exec_instr_usage {s : State} {c : Caller} {e : ErrorName} (h : usageError c s = some e) :
    exec c.instr s = .next (raiseUsage e none (startCommand s)) := by
  rw [← usageError_startCommand] at h
  unfold usageError at h
  cases hcheck : checkFrame (startCommand s) with
  | some e' =>
    rw [hcheck] at h
    obtain rfl := Option.some.inj h
    cases c <;> simp only [Caller.instr, exec, execDecode, execDeinterlace, execCompose, hcheck]
  | none =>
    rw [hcheck] at h
    simp only [Option.ite_none_right_eq_some, Option.some.injEq] at h
    obtain ⟨⟨rfl, hinterlace⟩, rfl⟩ := h
    simp only [Caller.instr, exec, execDeinterlace, hcheck, hinterlace, if_true]

/-- A command whose checks pass fills the decoded slot if it must, and goes on. A folded frame, which is decoded, needs
no case of its own (R284). -/
theorem exec_instr_pass {s : State} {c : Caller} (h : usageError c s = none)
    (hfold : c = .deinterlace → (curFrame s).dei = .folded → (curFrame s).dec ≠ none) :
    exec c.instr s = fillDecoded c (startCommand s) := by
  obtain ⟨hdoc, hindex, hinterlace⟩ := usageError_eq_none.1 h
  have hcheck : checkFrame (startCommand s) = none := (checkFrame_eq_none _).2 ⟨hdoc, hindex⟩
  cases c with
  | decode => simp only [Caller.instr, exec, execDecode, hcheck]
  | compose => simp only [Caller.instr, exec, execCompose, hcheck]
  | deinterlace =>
    have hcur : (curFrame (startCommand s)).interlace = true := hinterlace rfl
    simp only [Caller.instr, exec, execDeinterlace, hcheck, hcur, Bool.true_eq_false, if_false]
    split
    · next hdei =>
      have hfull : fillsSlot .deinterlace (curFrame (startCommand s)) = false := by
        have hdec := Option.ne_none_iff_isSome.1 (hfold rfl hdei)
        simp [fillsSlot, hdei, show (curFrame (startCommand s)).dec.isSome = true from hdec]
      rw [fillDecoded_full hfull]
      exact congrArg _ (finishDeinterlace_folded hdei).symm
    · rfl

/-! ### The current frame, and the current frame replaced -/

theorem getElem?_argFrame {s : State} (h : s.host.argFrame < s.frames.length) :
    s.frames[s.host.argFrame]? = some (curFrame s) := by
  simp [curFrame, h]

/-- `FR[ARG_FRAME]` replaced. -/
def withFrame (g : Frame) (s : State) : State := { s with frames := s.frames.set s.host.argFrame g }

theorem modCur_eq_withFrame {s : State} {f : Frame} (w : Frame → Frame) (hf : s.frames[s.host.argFrame]? = some f) :
    modCur w s = withFrame (w f) s := by
  simp only [modCur, withFrame, List.modify_eq_set_getElem?, hf]
  rfl

theorem withFrame_getElem? {s : State} {f : Frame} (g : Frame) (hf : s.frames[s.host.argFrame]? = some f) :
    (withFrame g s).frames[s.host.argFrame]? = some g := by
  simp [withFrame, (List.getElem?_eq_some_iff.1 hf).1]

theorem withFrame_withFrame (g h : Frame) (s : State) : withFrame h (withFrame g s) = withFrame h s := by
  simp [withFrame]

/-- The frame replaced by itself. -/
theorem withFrame_self {s : State} {f : Frame} (hf : s.frames[s.host.argFrame]? = some f) : withFrame f s = s := by
  obtain ⟨hindex, rfl⟩ := List.getElem?_eq_some_iff.1 hf
  simp [withFrame]

theorem curFrame_withFrame {s : State} {f : Frame} (g : Frame) (hf : s.frames[s.host.argFrame]? = some f) :
    curFrame (withFrame g s) = g :=
  curFrame_eq (withFrame_getElem? g hf)

theorem modCur_withFrame {s : State} {f : Frame} (g : Frame) (w : Frame → Frame)
    (hf : s.frames[s.host.argFrame]? = some f) : modCur w (withFrame g s) = withFrame (w g) s := by
  rw [modCur_eq_withFrame w (withFrame_getElem? g hf), withFrame_withFrame]

/-! ### The decode fill without a run (R132, R221) -/

/-- The frame has a decoded sequence, or an empty payload, whose sequence is `[0]` (R132, R221). -/
def Frame.DecodesTo (f : Frame) (d : List Byte) : Prop := f.dec = some d ∨ (f.dec = none ∧ f.rawLen = 0 ∧ d = [0#8])

/-- Within `PIX_CAPACITY` the command goes on with the slot filled. -/
theorem fillDecoded_next {s : State} {f : Frame} {c : Caller} {d : List Byte}
    (hf : s.frames[s.host.argFrame]? = some f) (hd : f.DecodesTo d)
    (hfit : fillsSlot c f = true → Config.fits s.caps.pix f.npix = true) :
    fillDecoded c s = .next (finishCommand c (withFrame { f with dec := some d } s)) := by
  have hcur := curFrame_eq hf
  obtain hdec | ⟨hdec, hraw, rfl⟩ := hd
  · have hsame : { f with dec := some d } = f := by rw [← hdec]
    have hpass : (fillsSlot c f && !Config.fits s.caps.pix f.npix) = false := by
      cases hfill : fillsSlot c f with
      | true => simp [hfit hfill]
      | false => rfl
    simp [fillDecoded, npix, hcur, hdec, hpass, hsame, withFrame_self hf]
  · have hfits : Config.fits s.caps.pix (npix s) = true := by
      simpa [npix, hcur] using hfit (by simp [fillsSlot, hdec])
    rw [fillDecoded_eq c hfits]
    simp [hcur, hdec, hraw, setDec, modCur_eq_withFrame _ hf]

/-- A slot to fill beyond `PIX_CAPACITY` is refused (R6, log 12). -/
theorem fillDecoded_refused {s : State} {f : Frame} {c : Caller} (hf : s.frames[s.host.argFrame]? = some f)
    (hfill : fillsSlot c f = true) (hfit : Config.fits s.caps.pix f.npix = false) :
    fillDecoded c s = .refused .pixCapacity := by
  simp [fillDecoded, npix, curFrame_eq hf, hfill, hfit]

/-! ### What the window shows, and the deinterlaced slot -/

theorem showDec_eq {s : State} {f : Frame} {d : List Byte} (hf : s.frames[s.host.argFrame]? = some f)
    (hd : f.dec = some d) : showDec s = showWindow .dec d.length s := by
  simp [showDec, decOf, curFrame_eq hf, hd]

/-- DEINTERLACE once both slots of its frame are full (R133, R283). -/
theorem finishDeinterlace_of_fillDei {s x : State} {f g : Frame} {e : List Byte}
    (hf : s.frames[s.host.argFrame]? = some f) (hfill : fillDei x = withFrame g s) (he : g.dei = .valid e) :
    finishDeinterlace x =
      if overwrite s then showWindow .dec e.length (withFrame { g with dec := some e, dei := .folded } s)
      else showWindow .dei g.npix (withFrame g s) := by
  have hover : overwrite (withFrame g s) = overwrite s := rfl
  simp only [finishDeinterlace, hfill, curFrame_withFrame g hf, he, hover, npix]
  split
  · rw [foldDei, modCur_withFrame g _ hf, showDec_eq (withFrame_getElem? _ hf) (d := e) (by simp [he])]
    simp [he]
  · rfl

theorem fillDei_withFrame {s : State} {f g : Frame} {d : List Byte} (hf : s.frames[s.host.argFrame]? = some f)
    (hd : g.dec = some d) (hempty : g.dei = .empty) :
    fillDei (withFrame g s) = withFrame { g with dei := .valid (deinterlaceRows
      (fun i => d[i]?.getD (Config.decBeyond s.docEpoch s.host.argFrame i)) g.width.toNat g.height.toNat) } s := by
  simp only [fillDei, curFrame_withFrame g hf, hempty, modCur_withFrame g _ hf, deinterlaced, decOf, hd]
  rfl

theorem fillDei_of_ne_empty {s : State} (h : (curFrame s).dei ≠ .empty) : fillDei s = s := by
  unfold fillDei
  split
  · next hempty => exact absurd hempty h
  · rfl
  · rfl

end Sys2Proof.Machine

open Sys2Proof.Machine in
/-- Settles O47: a command whose check fails raises that error (`exec_instr_usage`). -/
theorem usageErrorsChangeNothingElse : Obligations.UsageErrorsChangeNothingElse := by
  unfold Obligations.UsageErrorsChangeNothingElse
  refine fun s => ⟨fun _ => rfl, fun hdoc => ?_, fun hdoc hindex => ?_, fun f hdoc hf hinterlace => ?_⟩
  · have hexec (c : Caller) := exec_instr_usage (usageError_noDocument c hdoc)
    exact ⟨hexec .decode, hexec .deinterlace, hexec .compose⟩
  · have hexec (c : Caller) := exec_instr_usage (usageError_frameRange c hdoc hindex)
    exact ⟨hexec .decode, hexec .deinterlace, hexec .compose⟩
  · exact exec_instr_usage (c := .deinterlace) (usageError_notInterlaced hdoc hf hinterlace)

open Sys2Proof.Machine in
/-- Settles O46: the start of PARSE is its state written out. -/
theorem parseDiscardsTheDocument : Obligations.ParseDiscardsTheDocument := by
  unfold Obligations.ParseDiscardsTheDocument
  exact fun s => rfl

open Sys2Proof.Machine in
/-- Settles O48: the fill, if there is one, is `fillDecoded_next`; DECODE then shows the slot. -/
theorem decodeWithoutARun : Obligations.DecodeWithoutARun := by
  unfold Obligations.DecodeWithoutARun
  intro s f hdoc hf
  have hstart : (startCommand s).frames[(startCommand s).host.argFrame]? = some f := hf
  have hexec : exec .decode s = fillDecoded .decode (startCommand s) :=
    exec_instr_pass (c := .decode) (usageError_of_frame hdoc hf nofun) nofun
  rw [hexec]
  refine ⟨fun d hd => ?_, fun hdec hraw => ?_⟩
  · rw [fillDecoded_full (by simp [fillsSlot, curFrame_eq hstart, hd]), finishCommand, showDec_eq hstart hd]
    rfl
  · split
    · next hfit =>
      rw [fillDecoded_next hstart (.inr ⟨hdec, hraw, rfl⟩) fun _ => hfit, finishCommand,
        showDec_eq (d := [0#8]) (withFrame_getElem? _ hstart) rfl]
      rfl
    · next hfit => exact fillDecoded_refused hstart (by simp [fillsSlot, hdec]) (Bool.eq_false_iff.2 hfit)

open Sys2Proof.Machine in
/-- Settles O49: the frame DEINTERLACE works on is the one with its decoded slot filled (`fillDecoded_next`); then by
the state of the second slot. -/
theorem deinterlaceFillsShowsOrFolds : Obligations.DeinterlaceFillsShowsOrFolds := by
  unfold Obligations.DeinterlaceFillsShowsOrFolds
  intro s f d e hdoc hf hinterlace hd
  have hstart : (startCommand s).frames[(startCommand s).host.argFrame]? = some f := hf
  have hdecodes : f.DecodesTo d := hd.imp_right fun ⟨hdec, hraw, hzero, _⟩ => ⟨hdec, hraw, hzero⟩
  have hdec (h : f.dei ≠ .empty) : f.dec = some d := hd.resolve_right fun ⟨_, _, _, hempty⟩ => h hempty
  have hexec : exec .deinterlace s = fillDecoded .deinterlace (startCommand s) :=
    exec_instr_pass (c := .deinterlace) (usageError_of_frame hdoc hf fun _ => hinterlace) fun _ h => by
      rw [curFrame_eq hf] at h ⊢
      simp [hdec (by simp [h])]
  rw [hexec]
  refine ⟨fun hslot => ?_, fun hempty hfit => ?_, fun h => ?_⟩
  · have hfinish : fillDecoded .deinterlace (startCommand s) =
        .next (finishDeinterlace (withFrame { f with dec := some d } (startCommand s))) := by
      refine fillDecoded_next hstart hdecodes fun hfill => ?_
      obtain ⟨-, hfit, -⟩ | hvalid := hslot
      · exact hfit
      · simp [fillsSlot, hdec, hvalid] at hfill
    have hfill : fillDei (withFrame { f with dec := some d } (startCommand s)) =
        withFrame { f with dec := some d, dei := .valid e } (startCommand s) := by
      obtain ⟨hempty, -, rfl⟩ | hvalid := hslot
      · exact fillDei_withFrame hstart rfl hempty
      · rw [fillDei_of_ne_empty (by simp [curFrame_withFrame _ hstart, hvalid]), ← hvalid]
    rw [hfinish, finishDeinterlace_of_fillDei hstart hfill rfl]
    refine ⟨fun hover => ?_, fun hover => ?_⟩
    · rw [show overwrite (startCommand s) = false from hover]
      rfl
    · rw [show overwrite (startCommand s) = true from hover]
      rfl
  · exact fillDecoded_refused hstart (by simp [fillsSlot, hempty, hinterlace]) hfit
  · have hdec : f.dec = some d := hdec (by simp [h])
    rw [fillDecoded_full (by simp [fillsSlot, curFrame_eq hstart, hdec, h]), finishCommand,
      finishDeinterlace_folded (by rw [curFrame_eq hstart, h]), showDec_eq hstart hdec]
    rfl
end


section
/-! PROOFS. COMPOSE of a frame that is decoded or has an empty payload: the sequence it maps, and the four bytes of each
pixel (R134, R305 to R309). -/

namespace Sys2Proof.Machine

/-! ### The RGBA buffer -/

theorem pixelBytes_length (s : State) (v : Byte) : (pixelBytes s v).length = 4 := rfl

theorem rgbaOf_length (s : State) (seq : List Byte) : (rgbaOf s seq).length = 4 * seq.length := by
  simp [rgbaOf, List.length_flatMap, pixelBytes_length, Nat.mul_comm]

/-- The bytes of the `i`-th pixel stand from `4 * i` on (R305). -/
theorem rgbaOf_getElem? {s : State} {seq : List Byte} {i k : Nat} {v : Byte} (hv : seq[i]? = some v) (hk : k < 4) :
    (rgbaOf s seq)[4 * i + k]? = (pixelBytes s v)[k]? := by
  induction seq generalizing i with
  | nil => simp at hv
  | cons x xs ih =>
    rw [rgbaOf, List.flatMap_cons]
    cases i with
    | zero =>
      obtain rfl : x = v := by simpa using hv
      rw [List.getElem?_append_left (by rw [pixelBytes_length]; omega), Nat.mul_zero, Nat.zero_add]
    | succ i =>
      rw [List.getElem?_append_right (by rw [pixelBytes_length]; omega), pixelBytes_length,
        show 4 * (i + 1) + k - 4 = 4 * i + k by omega]
      exact ih (by simpa using hv)

/-- An entry within the active palette (R302, R304). -/
theorem paletteEntry_eq {s : State} {f : Frame} {v : Byte} {e : Rgb} (hcur : curFrame s = f)
    (he : (if f.lctFlag then f.lpal[v.toNat]? else if s.screen.gctFlag then s.gpal[v.toNat]?
      else some ⟨0#8, 0#8, 0#8⟩) = some e) : paletteEntry s v = e := by
  unfold paletteEntry activePalette
  rw [hcur]
  split at he
  · simp [*]
  · split at he
    · simp [*]
    · obtain rfl := Option.some.inj he
      simp [*]

/-! ### The sequence COMPOSE maps -/

/-- The sequence of a decoded frame in display order: the second slot of an interlaced one (R134). -/
def displaySeq (s : State) (f : Frame) (d : List Byte) : List Byte :=
  match f.interlace, f.dei with
  | true, .valid e => e
  | true, .empty => deinterlaceRows (fun i => d[i]?.getD (Config.decBeyond s.docEpoch s.host.argFrame i))
      f.width.toNat f.height.toNat
  | _, _ => d

/-- The sequence COMPOSE maps where it has no slot to fill. -/
theorem composeSeq_withFrame {s : State} {f g : Frame} {d : List Byte} (hf : s.frames[s.host.argFrame]? = some f)
    (hd : g.dec = some d) (hfull : ¬ (g.interlace = true ∧ g.dei = .empty)) :
    composeSeq (withFrame g s) = displaySeq s g d := by
  simp only [composeSeq, decOf, curFrame_withFrame g hf, hd, displaySeq]
  cases hinterlace : g.interlace with
  | false => cases g.dei <;> rfl
  | true =>
    cases hdei : g.dei with
    | empty => exact absurd ⟨hinterlace, hdei⟩ hfull
    | valid e => rfl
    | folded => rfl

/-- The frame COMPOSE leaves: decoded, and deinterlaced if it is interlaced (R134, R306). -/
def Frame.composed (s : State) (f : Frame) (d : List Byte) : Frame := { f with
  dec := some d
  dei := if f.interlace = true ∧ f.dei = .empty then .valid (displaySeq s f d) else f.dei }

/-- The fill of the second slot does not change the display sequence, and leaves nothing to fill. -/
theorem displaySeq_composed (s : State) (f : Frame) (d : List Byte) :
    displaySeq s (f.composed s d) d = displaySeq s f d ∧
      ¬ ((f.composed s d).interlace = true ∧ (f.composed s d).dei = .empty) := by
  unfold Frame.composed
  by_cases hfill : f.interlace = true ∧ f.dei = .empty
  · obtain ⟨hinterlace, hempty⟩ := hfill
    simp [displaySeq, hinterlace, hempty]
  · simp only [if_neg hfill]
    exact ⟨rfl, hfill⟩

theorem fillDei_composed {s : State} {f : Frame} (d : List Byte) (hf : s.frames[s.host.argFrame]? = some f) :
    (if f.interlace = true then fillDei (withFrame { f with dec := some d } s)
      else withFrame { f with dec := some d } s) = withFrame (f.composed s d) s := by
  unfold Frame.composed
  split
  · next hinterlace =>
    by_cases hempty : f.dei = .empty
    · rw [fillDei_withFrame (g := { f with dec := some d }) hf rfl hempty, if_pos ⟨hinterlace, hempty⟩]
      simp only [displaySeq, hinterlace, hempty]
    · rw [fillDei_of_ne_empty (by rw [curFrame_withFrame _ hf]; exact hempty), if_neg fun h => hempty h.2]
  · next hinterlace => rw [if_neg fun h => hinterlace h.1]

/-- COMPOSE once its frame is decoded: an empty second slot of an interlaced frame is filled, and the display sequence
is mapped (R134, R306). -/
theorem finishCompose_withFrame {s : State} {f : Frame} {d : List Byte} (hf : s.frames[s.host.argFrame]? = some f) :
    finishCompose (withFrame { f with dec := some d } s) =
      composeInto (displaySeq s f d) (withFrame (f.composed s d) s) := by
  obtain ⟨hseq, hfull⟩ := displaySeq_composed s f d
  unfold finishCompose
  rw [curFrame_withFrame _ hf, fillDei_composed d hf]
  exact congrArg (composeInto · _) ((composeSeq_withFrame hf rfl hfull).trans hseq)

end Sys2Proof.Machine

open Sys2Proof.Machine in
/-- Settles O44: the frame COMPOSE maps is the one with its slots filled (`fillDecoded_next`,
`finishCompose_withFrame`); the buffer pixel by pixel is `rgbaOf_getElem?`. -/
theorem composeMapsEveryPixel : Obligations.ComposeMapsEveryPixel := by
  unfold Obligations.ComposeMapsEveryPixel
  intro s f d seq hdoc hf hd hseq
  have hstart : (startCommand s).frames[(startCommand s).host.argFrame]? = some f := hf
  have hexec : exec .compose s = fillDecoded .compose (startCommand s) :=
    exec_instr_pass (c := .compose) (usageError_of_frame hdoc hf nofun) nofun
  have hfills : fillsSlot .compose f = true ↔ f.dec = none ∨ (f.interlace = true ∧ f.dei = .empty) := by
    simp [fillsSlot]
  rw [hexec]
  refine ⟨fun hfill hfit => fillDecoded_refused hstart (hfills.2 hfill) hfit, fun hfit => ?_⟩
  obtain rfl : seq = displaySeq s f d := hseq
  have hdecodes : f.DecodesTo d := hd.imp_right fun ⟨hdec, hraw, hzero, _⟩ => ⟨hdec, hraw, hzero⟩
  rw [fillDecoded_next hstart hdecodes fun hfill => hfit (hfills.1 hfill), finishCommand,
    finishCompose_withFrame hstart]
  have hcur := curFrame_withFrame (f.composed (startCommand s) d) hstart
  refine ⟨rgbaOf (withFrame (f.composed (startCommand s) d) (startCommand s)) (displaySeq s f d), congrArg _ ?_,
    rgbaOf_length _ _, fun i v hv => ⟨fun e he => ?_, ?_⟩⟩
  · rw [composeInto, hcur]
    rfl
  · obtain rfl := paletteEntry_eq hcur he
    exact ⟨rgbaOf_getElem? hv (k := 0) (by decide), rgbaOf_getElem? hv (k := 1) (by decide),
      rgbaOf_getElem? hv (k := 2) (by decide)⟩
  · rw [rgbaOf_getElem? hv (by decide)]
    simp only [pixelBytes, transparentIndex, hcur]
    rfl
end

section
/-! PROOFS. Every step keeps the invariant of the machine (R29 to R37, R170, R241, R244): one lemma for each place of
the three streams, a step is one of them by `step_cases`. -/

namespace Sys2Proof.Machine

theorem NextSatisfies.and {P Q : State → Prop} {a : Answer} (hP : NextSatisfies P a) (hQ : NextSatisfies Q a) :
    NextSatisfies (fun t => P t ∧ Q t) a := by
  cases a with
  | next t => exact ⟨hP, hQ⟩
  | fault r => trivial
  | refused r => trivial

/-! ### The part of the invariant that does not depend on the engine -/

/-- The invariant but for what holds while a command runs. -/
structure State.BaseOk (s : State) : Prop where
  mem : s.inMem.wf = true
  dict : s.lzw.dict.wf = true
  frames : ∀ f ∈ s.frames, f.Ok
  gpal : s.status.docValid = true → s.GpalOk
  hidden : s.docHidden = true → s.status.docValid = false

theorem State.Inv.base {s : State} (h : s.Inv) : s.BaseOk := ⟨h.mem, h.dict, h.frames, h.gpal, h.hidden⟩

/-- Between commands it is the whole invariant. -/
theorem State.BaseOk.inv {s : State} (h : s.BaseOk) (hidle : s.engine = .idle) : s.Inv :=
  ⟨h.mem, h.dict, h.frames, h.gpal, h.hidden, fun _ hparse => (nomatch hidle.symm.trans hparse),
    fun _ hrun => (nomatch hidle.symm.trans hrun)⟩

theorem State.BaseOk.startCommand {s : State} (h : s.BaseOk) : (startCommand s).BaseOk :=
  ⟨h.mem, h.dict, h.frames, h.gpal, h.hidden⟩

/-- The frame table, the result window and the engine replaced. -/
theorem State.BaseOk.withFrames {s : State} (h : s.BaseOk) {fs : List Frame} (hfs : ∀ f ∈ fs, f.Ok) (r : Result)
    (e : Engine) : State.BaseOk { s with frames := fs, result := r, engine := e } :=
  ⟨h.mem, h.dict, hfs, h.gpal, h.hidden⟩

/-! ### Cache slots (R36, R37) -/

theorem Frame.Ok.withDec {f : Frame} {d : List Byte} (h : f.Ok) (hdec : f.dec = none)
    (hd : d.length = f.npix ∨ (f.rawLen = 0 ∧ d.length = 1)) : Frame.Ok { f with dec := some d } where
  gce := ⟨h.gce.absent, h.gce.index⟩
  mcs := h.mcs
  lpal := h.lpal
  rawLen := h.rawLen
  decLen _ he := Option.some.inj he ▸ hd
  deiLen _ he := nomatch (h.deiAfterDec hdec).symm.trans he
  deiAfterDec := nofun
  deiInterlaced hne := absurd (h.deiAfterDec hdec) hne

theorem setDec_framesOk {s : State} {d : List Byte} (hok : ∀ f ∈ s.frames, f.Ok) (hdec : (curFrame s).dec = none)
    (hd : d.length = npix s ∨ ((curFrame s).rawLen = 0 ∧ d.length = 1)) : ∀ f ∈ (setDec d s).frames, f.Ok :=
  mem_modCur hok fun hindex => (hok _ (curFrame_mem hindex)).withDec hdec hd

/-- The second slot of a decoded, interlaced frame is filled (R133). -/
theorem fillDei_framesOk {s : State} (hok : ∀ f ∈ s.frames, f.Ok) (hdec : (curFrame s).dec ≠ none)
    (hinterlace : (curFrame s).interlace = true) : ∀ f ∈ (fillDei s).frames, f.Ok := by
  unfold fillDei
  split
  · refine mem_modCur hok fun hindex => ?_
    have h := hok _ (curFrame_mem hindex)
    exact {
      gce := ⟨h.gce.absent, h.gce.index⟩
      mcs := h.mcs
      lpal := h.lpal
      rawLen := h.rawLen
      decLen := h.decLen
      deiLen := fun _ he => DeiSlot.valid.inj he ▸ deinterlaced_length s (decOf s)
      deiAfterDec := fun hnone => absurd hnone hdec
      deiInterlaced := fun _ => hinterlace }
  · exact hok
  · exact hok

/-- A fold moves the second slot, of `WIDTH*HEIGHT` pixels, to the first (R283). -/
theorem foldDei_framesOk {s : State} (hok : ∀ f ∈ s.frames, f.Ok) : ∀ f ∈ (foldDei s).frames, f.Ok := by
  refine mem_modCur hok fun hindex => ?_
  have h := hok _ (curFrame_mem hindex)
  split
  · next d hvalid =>
    exact {
      gce := ⟨h.gce.absent, h.gce.index⟩
      mcs := h.mcs
      lpal := h.lpal
      rawLen := h.rawLen
      decLen := fun _ he => .inl (Option.some.inj he ▸ h.deiLen d hvalid)
      deiLen := nofun
      deiAfterDec := nofun
      deiInterlaced := fun _ => h.deiInterlaced (by rw [hvalid]; nofun) }
  · exact h
  · exact h

theorem finishCommand_framesOk {c : Caller} {s : State} (hok : ∀ f ∈ s.frames, f.Ok) (hdec : (curFrame s).dec ≠ none)
    (hinterlace : c = .deinterlace → (curFrame s).interlace = true) : ∀ f ∈ (finishCommand c s).frames, f.Ok := by
  cases c with
  | decode => exact hok
  | deinterlace =>
    have hfill := fillDei_framesOk hok hdec (hinterlace rfl)
    simp only [finishCommand, finishDeinterlace]
    split
    · exact hfill
    · exact hfill
    · split
      · exact foldDei_framesOk hfill
      · exact hfill
  | compose =>
    simp only [finishCommand, finishCompose, composeInto_frames]
    split
    · next h => exact fillDei_framesOk hok hdec h
    · exact hok

/-! ### Host commands -/

theorem finishCommand_inv {c : Caller} {s : State} (h : s.BaseOk) (hdec : (curFrame s).dec ≠ none)
    (hinterlace : c = .deinterlace → (curFrame s).interlace = true) : (finishCommand c s).Inv := by
  have hok := finishCommand_framesOk h.frames hdec hinterlace
  rw [finishCommand_rest]
  exact (h.withFrames hok _ _).inv rfl

/-- A command whose frame has been decoded goes on. -/
theorem finishCommand_setDec_inv {c : Caller} {s : State} {d : List Byte} (h : s.BaseOk)
    (hcheck : usageError c s = none) (hdec : (curFrame s).dec = none)
    (hd : d.length = npix s ∨ ((curFrame s).rawLen = 0 ∧ d.length = 1)) : (finishCommand c (setDec d s)).Inv := by
  obtain ⟨-, hindex, hinterlace⟩ := usageError_eq_none.1 hcheck
  have hcur : curFrame (setDec d s) = { curFrame s with dec := some d } := curFrame_modCur _ hindex
  refine finishCommand_inv (h.withFrames (setDec_framesOk h.frames hdec hd) s.result s.engine) ?_ ?_
  · show (curFrame (setDec d s)).dec ≠ none
    rw [hcur]
    nofun
  · show c = .deinterlace → (curFrame (setDec d s)).interlace = true
    rw [hcur]
    exact hinterlace

theorem raiseUsage_inv {s : State} (e : ErrorName) (b : Option Byte) (h : s.BaseOk) : (raiseUsage e b s).Inv :=
  State.BaseOk.inv ⟨h.mem, h.dict, h.frames, h.gpal, h.hidden⟩ rfl

/-- `STATUS.ERR` and `ERR_CODE` are clear (R130). -/
def State.NoError (s : State) : Prop := s.status.err = false ∧ s.err.code = 0#8

/-- A run starts with its invariants (R222, R241). -/
theorem startRun_inv {c : Caller} {s : State} (h : s.BaseOk) (herr : s.NoError) (hcheck : usageError c s = none)
    (hdec : (curFrame s).dec = none) (hraw : (curFrame s).rawLen ≠ 0)
    (hfit : Config.fits s.caps.pix (npix s) = true) : (startRun c s).Inv := by
  obtain ⟨hdoc, hindex, hinterlace⟩ := usageError_eq_none.1 hcheck
  exact {
    mem := h.mem
    dict := h.dict
    frames := h.frames
    gpal := h.gpal
    hidden := h.hidden
    parse := nofun
    run := fun c' hc => by
      obtain rfl := Engine.lzw.inj hc
      exact ⟨hdoc, herr, hindex, hraw, hdec, hinterlace, hfit,
        startRun_ok c (h.frames _ (curFrame_mem hindex)).mcs h.dict⟩ }

theorem fillDecoded_inv {c : Caller} {s : State} (h : s.BaseOk) (herr : s.NoError) (hcheck : usageError c s = none) :
    NextSatisfies State.Inv (fillDecoded c s) := by
  cases hfit : Config.fits s.caps.pix (npix s) with
  | true =>
    rw [fillDecoded_eq c hfit]
    split
    · next d hdec => exact finishCommand_inv h (by rw [hdec]; nofun) (usageError_eq_none.1 hcheck).2.2
    · next hdec =>
      split
      · next hraw => exact finishCommand_setDec_inv h hcheck hdec (.inr ⟨hraw, rfl⟩)
      · next hraw => exact startRun_inv h herr hcheck hdec hraw hfit
  | false =>
    unfold fillDecoded
    rw [hfit]
    split
    · trivial
    · next hfill =>
      split
      · next d hdec => exact finishCommand_inv h (by rw [hdec]; nofun) (usageError_eq_none.1 hcheck).2.2
      · next hdec => simp [fillsSlot, hdec] at hfill

/-- A folded frame is decoded (R37, R283). -/
theorem State.BaseOk.dec_of_folded {s : State} (h : s.BaseOk) (hfold : (curFrame s).dei = .folded) :
    (curFrame s).dec ≠ none :=
  fun hdec => nomatch hfold.symm.trans (curFrame_dei_of_dec_eq_none h.frames hdec)

theorem exec_instr_inv {s : State} (c : Caller) (h : s.BaseOk) : NextSatisfies State.Inv (exec c.instr s) := by
  cases hcheck : usageError c s with
  | some e =>
    rw [exec_instr_usage hcheck]
    exact raiseUsage_inv e none h.startCommand
  | none =>
    rw [exec_instr_pass hcheck fun _ => h.dec_of_folded]
    exact fillDecoded_inv h.startCommand ⟨rfl, rfl⟩ hcheck

theorem execParse_inv {s : State} (h : s.BaseOk) : NextSatisfies State.Inv (execParse s) := by
  unfold execParse
  split
  · exact {
      mem := h.mem
      dict := h.dict
      frames := fun _ hf => absurd hf List.not_mem_nil
      gpal := nofun
      hidden := nofun
      parse := fun ph hph => by
        obtain rfl := Engine.parse.inj hph
        exact ⟨rfl, rfl, rfl, rfl⟩
      run := nofun }
  · trivial

/-- The commands by their byte: PARSE, one of the three on a frame, or an illegal one (R109). -/
theorem decodeCommand_cases (code : Byte) :
    (code = 0x01#8 ∧ decodeCommand code = .parse) ∨ (code ≠ 0x01#8 ∧ ∃ c : Caller, decodeCommand code = c.instr) ∨
      (code ≠ 0x01#8 ∧ decodeCommand code = .cmdIllegal code) := by
  unfold decodeCommand
  split
  · next hparse => exact .inl ⟨hparse, rfl⟩
  · next hparse =>
    split
    · exact .inr (.inl ⟨hparse, .decode, rfl⟩)
    · split
      · exact .inr (.inl ⟨hparse, .deinterlace, rfl⟩)
      · split
        · exact .inr (.inl ⟨hparse, .compose, rfl⟩)
        · exact .inr (.inr ⟨hparse, rfl⟩)

theorem exec_command_inv {s : State} (code : Byte) (h : s.BaseOk) :
    NextSatisfies State.Inv (exec (decodeCommand code) s) := by
  obtain ⟨-, hcode⟩ | ⟨-, c, hcode⟩ | ⟨-, hcode⟩ := decodeCommand_cases code <;> rw [hcode]
  · exact execParse_inv h
  · exact exec_instr_inv c h
  · exact raiseUsage_inv _ _ h.startCommand

/-! ### Container items -/

/-- What holds of the parser's state besides the item it reads. -/
structure State.ParserOk (s : State) : Prop where
  mem : s.inMem.wf = true
  dict : s.lzw.dict.wf = true
  frames : ∀ f ∈ s.frames, f.Ok
  doc : s.status.docValid = false
  visible : s.docHidden = false

theorem State.Inv.parserOk {s : State} {ph : ParsePhase} (h : s.Inv) (hengine : s.engine = .parse ph) :
    s.ParserOk ∧ s.ItemOk ph := by
  obtain ⟨hdoc, hvisible, hitem⟩ := h.parse ph hengine
  exact ⟨⟨h.mem, h.dict, h.frames, hdoc, hvisible⟩, hitem⟩

theorem State.ParserOk.modPend {s : State} (h : s.ParserOk) (f : Frame → Frame) : (modPend f s).ParserOk :=
  ⟨h.mem, h.dict, h.frames, h.doc, h.visible⟩

theorem State.ParserOk.preAllocate {s : State} (h : s.ParserOk) : (preAllocate s).ParserOk := by
  constructor <;> simp only [preAllocate_inMem, preAllocate_lzw, preAllocate_frames, preAllocate_status,
    preAllocate_docHidden]
  · exact h.mem
  · exact h.dict
  · exact h.frames
  · exact h.doc
  · exact h.visible

/-- What an item's place asks of the state does not depend on `POS` and the engine. -/
theorem itemOk_goto {s : State} {ph : ParsePhase} (pos : Nat) (h : s.ItemOk ph) : (goto pos ph s).ItemOk ph := by
  cases ph with
  | chain k => cases k <;> exact h
  | _ => exact h

theorem goto_inv {u : State} {ph : ParsePhase} (pos : Nat) (h : u.ParserOk) (hitem : u.ItemOk ph) :
    (goto pos ph u).Inv where
  mem := h.mem
  dict := h.dict
  frames := h.frames
  gpal hdoc := nomatch h.doc.symm.trans hdoc
  hidden hhidden := nomatch h.visible.symm.trans hhidden
  parse ph' hph := by
    obtain rfl := Engine.parse.inj hph
    exact ⟨h.doc, h.visible, itemOk_goto pos hitem⟩
  run _ hrun := nomatch hrun

/-- A skipped chain needs what the next block needs (R174). -/
theorem skipFrom_inv {u : State} (cursor : Nat) (h : u.ParserOk) (hitem : u.ItemOk .block) :
    (skipFrom cursor u).Inv :=
  goto_inv (ph := .chain (.skip cursor)) u.pos h hitem

theorem raiseParse_inv {s : State} (e : ErrorName) (off : Nat) (b : Option Byte) (h : s.ParserOk) :
    (raiseParse e off b s).Inv :=
  State.BaseOk.inv ⟨h.mem, h.dict, h.frames, fun hdoc => (nomatch h.doc.symm.trans hdoc), fun _ => h.doc⟩ rfl

/-- The record an image or a Graphic Control extension writes to is fresh, and has no palette (R170). -/
theorem preAllocate_pendRec {s : State} (h : s.PendOk) :
    (preAllocate s).pendRec.Fresh ∧ (preAllocate s).pendRec.lctFlag = false ∧ (preAllocate s).pendRec.lpal = [] := by
  unfold preAllocate
  split
  · next halloc => exact h halloc
  · exact ⟨⟨⟨fun _ => ⟨rfl, rfl, rfl, rfl⟩, fun _ => rfl⟩, rfl, rfl⟩, rfl, rfl⟩

theorem Frame.Fresh.withGce {f : Frame} (h : f.Fresh) (pk : Byte) (delay : Half) (index : Byte) :
    (withGce pk delay index f).Fresh :=
  ⟨⟨nofun, fun hflag => if_neg (Bool.eq_false_iff.1 hflag)⟩, h.dec, h.dei⟩

theorem gpalOk_preAllocate {s : State} (h : s.GpalOk) : (preAllocate s).GpalOk := by
  simpa only [State.GpalOk, preAllocate_gpal, preAllocate_screen] using h

/-- A pending record that is not allocated needs nothing. -/
theorem pendOk_of_not_alloc {s : State} (h : s.pendAlloc = false) : s.PendOk :=
  fun halloc => nomatch h.symm.trans halloc

theorem execHdrSig_inv {s : State} (bytes : List (Option Byte)) (h : s.ParserOk) (hitem : s.ItemOk .sig) :
    NextSatisfies State.Inv (execHdrSig bytes s) := by
  unfold execHdrSig
  split
  · exact raiseParse_inv _ _ _ h
  · exact goto_inv _ h hitem

theorem execHdrLsd_inv {s : State} (width height : Half) (pk bg aspect : Byte) (h : s.ParserOk)
    (hitem : s.ItemOk .lsd) : NextSatisfies State.Inv (execHdrLsd width height pk bg aspect s) := by
  obtain ⟨hgpal, halloc⟩ := hitem
  have hu : State.ParserOk { s with screen := screenOf width height pk bg aspect } :=
    ⟨h.mem, h.dict, h.frames, h.doc, h.visible⟩
  unfold execHdrLsd
  split
  · next hflag => exact goto_inv _ hu ⟨hflag, halloc⟩
  · next hflag =>
    refine goto_inv _ hu ⟨?_, pendOk_of_not_alloc halloc⟩
    simp [State.GpalOk, hgpal, screenOf, paletteLen, hflag]

theorem execGct_inv {s : State} {entries : List Rgb} (h : s.ParserOk) (hitem : s.ItemOk .gct)
    (hlen : entries.length = palLen s.screen.gctSize) : NextSatisfies State.Inv (execGct entries s) := by
  obtain ⟨hflag, halloc⟩ := hitem
  have hu : State.ParserOk { s with gpal := entries } := ⟨h.mem, h.dict, h.frames, h.doc, h.visible⟩
  refine goto_inv _ hu ⟨?_, pendOk_of_not_alloc halloc⟩
  simp [State.GpalOk, hlen, paletteLen, hflag]

theorem execExtGce_inv {s : State} (len pk : Byte) (delay : Half) (index : Byte) (term : Option Byte)
    (h : s.ParserOk) (hitem : s.ItemOk .block) : NextSatisfies State.Inv (execExtGce len pk delay index term s) := by
  obtain ⟨hgpal, hpend⟩ := hitem
  obtain ⟨hfresh, hflag, hlpal⟩ := preAllocate_pendRec hpend
  unfold execExtGce
  split
  · exact goto_inv _ (h.preAllocate.modPend _) ⟨gpalOk_preAllocate hgpal, fun _ => ⟨hfresh.withGce .., hflag, hlpal⟩⟩
  · exact raiseParse_inv _ _ _ h

theorem execExtApp_inv {s : State} (len : Option Byte) (ident : List (Option Byte)) (h : s.ParserOk)
    (hitem : s.ItemOk .block) : NextSatisfies State.Inv (execExtApp len ident s) := by
  unfold execExtApp
  split
  · exact goto_inv _ h hitem
  · exact raiseParse_inv _ _ _ h

theorem execExtAppNs_inv {s : State} (size ident : Option Byte) (loops : Half) (term : Option Byte) (h : s.ParserOk)
    (hitem : s.ItemOk .block) : NextSatisfies State.Inv (execExtAppNs size ident loops term s) := by
  unfold execExtAppNs
  split
  · exact raiseParse_inv _ _ _ h
  · split
    · exact raiseParse_inv _ _ _ h
    · split
      · exact raiseParse_inv _ _ _ h
      · exact goto_inv _ ⟨h.mem, h.dict, h.frames, h.doc, h.visible⟩ hitem

theorem execImg_inv {s : State} (left top width height : Half) (pk : Byte) (h : s.ParserOk)
    (hitem : s.ItemOk .block) : NextSatisfies State.Inv (execImg left top width height pk s) := by
  obtain ⟨hgpal, hpend⟩ := hitem
  obtain ⟨⟨hgce, hdec, hdei⟩, -, hlpal⟩ := preAllocate_pendRec hpend
  have hu := h.preAllocate.modPend (withImage left top width height pk)
  have hfresh : (modPend (withImage left top width height pk) (preAllocate s)).pendRec.Fresh :=
    ⟨⟨hgce.absent, hgce.index⟩, hdec, hdei⟩
  have halloc : (modPend (withImage left top width height pk) (preAllocate s)).pendAlloc = true :=
    preAllocate_pendAlloc s
  unfold execImg
  split
  · next hflag => exact goto_inv _ hu ⟨gpalOk_preAllocate hgpal, halloc, hfresh, hflag⟩
  · next hflag =>
    refine goto_inv _ hu ⟨gpalOk_preAllocate hgpal, halloc, hfresh, ?_⟩
    simp [withImage, hlpal, hflag, paletteLen]

theorem execLct_inv {s : State} {entries : List Rgb} (h : s.ParserOk) (hitem : s.ItemOk .lct)
    (hlen : entries.length = palLen s.pendRec.lctSize) : NextSatisfies State.Inv (execLct entries s) := by
  obtain ⟨hgpal, halloc, ⟨hgce, hdec, hdei⟩, hflag⟩ := hitem
  refine goto_inv _ (h.modPend _) ⟨hgpal, halloc, ⟨⟨hgce.absent, hgce.index⟩, hdec, hdei⟩, ?_⟩
  simp [hlen, paletteLen, hflag]

theorem execMcs_inv {s : State} (m : Option Byte) (h : s.ParserOk) (hitem : s.ItemOk .mcs) :
    NextSatisfies State.Inv (execMcs m s) := by
  obtain ⟨hgpal, halloc, ⟨hgce, hdec, hdei⟩, hlpal⟩ := hitem
  unfold execMcs
  split
  · exact raiseParse_inv _ _ _ h
  · next b =>
    split
    · next hrange =>
      have hmcs : (b.setWidth 4).toNat = b.toNat := by
        have hmax : Config.mcsMax = 8 := rfl
        rw [BitVec.toNat_setWidth]
        omega
      refine goto_inv _ (h.modPend _) ⟨hgpal, halloc, ⟨⟨hgce.absent, hgce.index⟩, hdec, hdei⟩, ?_, hlpal⟩
      simp only [Frame.McsOk, modPend_pendRec, hmcs]
      exact hrange
    · exact raiseParse_inv _ _ _ h

/-- A write to `RAW` of the record being assembled. -/
theorem itemOk_image_withRaw {s : State} (r : List Byte → List Byte) (hitem : s.ItemOk (.chain .image)) :
    (modPend (fun f => { f with raw := r f.raw }) s).ItemOk (.chain .image) := by
  obtain ⟨hgpal, halloc, ⟨hgce, hdec, hdei⟩, hmcs, hlpal⟩ := hitem
  exact ⟨hgpal, halloc, ⟨⟨hgce.absent, hgce.index⟩, hdec, hdei⟩, hmcs, hlpal⟩

theorem execSubblock_inv {s : State} {k : ChainKind} (body : Option (List Byte))
    (hengine : s.engine = .parse (.chain k)) (h : s.ParserOk) (hitem : s.ItemOk (.chain k)) :
    NextSatisfies State.Inv (execSubblock body s) := by
  unfold execSubblock
  rw [chainKind_of hengine]
  split
  · exact raiseParse_inv _ _ _ h
  · next d =>
    cases k with
    | skip cursor => exact skipFrom_inv _ h hitem
    | image =>
      dsimp only
      split
      · exact goto_inv _ (h.modPend _) (itemOk_image_withRaw (· ++ d) hitem)
      · trivial

/-- The record whose image data ends is a completed frame (R178, R180). -/
theorem pendRec_ok {s : State} (hitem : s.ItemOk (.chain .image)) : (endRaw s).pendRec.Ok := by
  obtain ⟨-, -, ⟨hgce, hdec, hdei⟩, hmcs, hlpal⟩ := hitem
  exact {
    gce := ⟨hgce.absent, hgce.index⟩
    mcs := hmcs
    lpal := hlpal
    rawLen := rfl
    decLen := fun _ he => (nomatch hdec.symm.trans he)
    deiLen := fun _ he => (nomatch hdei.symm.trans he)
    deiAfterDec := fun _ => hdei
    deiInterlaced := fun hne => absurd hdei hne }

theorem execSubblockEnd_inv {s : State} {k : ChainKind} (hengine : s.engine = .parse (.chain k)) (h : s.ParserOk)
    (hitem : s.ItemOk (.chain k)) : NextSatisfies State.Inv (execSubblockEnd s) := by
  unfold execSubblockEnd
  rw [chainKind_of hengine]
  cases k with
  | skip cursor => exact goto_inv _ h hitem
  | image =>
    have hframe := pendRec_ok hitem
    obtain ⟨hgpal, -⟩ := hitem
    dsimp only
    split
    · refine goto_inv _ ⟨h.mem, h.dict, fun f hf => ?_, h.doc, h.visible⟩ ⟨hgpal, pendOk_of_not_alloc rfl⟩
      obtain hf | hf := List.mem_append.1 hf
      · exact h.frames f hf
      · exact List.mem_singleton.1 hf ▸ hframe
    · trivial

/-- The trailer leaves a document (R179). -/
theorem execTrailer_inv {s : State} (h : s.ParserOk) (hitem : s.ItemOk .block) :
    NextSatisfies State.Inv (execTrailer s) :=
  State.BaseOk.inv ⟨h.mem, h.dict, h.frames, fun _ => hitem.1, fun hhidden => nomatch h.visible.symm.trans hhidden⟩ rfl

theorem exec_extension_inv {s : State} (rd : Nat → Option Byte) (h : s.ParserOk) (hitem : s.ItemOk .block) :
    NextSatisfies State.Inv (exec (decodeExtension rd) s) := by
  unfold decodeExtension
  split
  · exact execExtGce_inv _ _ _ _ _ h hitem
  · split
    · exact execExtApp_inv _ _ h hitem
    · split
      · exact skipFrom_inv _ h hitem
      · split
        · exact skipFrom_inv _ h hitem
        · exact raiseParse_inv _ _ _ h

theorem exec_block_inv {s : State} (rd : Nat → Option Byte) (h : s.ParserOk) (hitem : s.ItemOk .block) :
    NextSatisfies State.Inv (exec (decodeBlock rd) s) := by
  unfold decodeBlock
  split
  · exact exec_extension_inv rd h hitem
  · split
    · exact execImg_inv _ _ _ _ _ h hitem
    · split
      · exact execTrailer_inv h hitem
      · exact raiseParse_inv _ _ _ h

theorem exec_chain_inv {s : State} {k : ChainKind} (rd : Nat → Option Byte) (hengine : s.engine = .parse (.chain k))
    (h : s.ParserOk) (hitem : s.ItemOk (.chain k)) : NextSatisfies State.Inv (exec (decodeChain rd) s) := by
  unfold decodeChain
  split
  · exact execSubblock_inv none hengine h hitem
  · split
    · exact execSubblockEnd_inv hengine h hitem
    · exact execSubblock_inv (some _) hengine h hitem

theorem exec_item_inv {s : State} {ph : ParsePhase} (rd : Nat → Option Byte) (hs : s.Inv)
    (hengine : s.engine = .parse ph) : NextSatisfies State.Inv (exec (decodeItem ph (palSizeAt ph s) rd) s) := by
  obtain ⟨h, hitem⟩ := hs.parserOk hengine
  cases ph with
  | sig => exact execHdrSig_inv _ h hitem
  | lsd => exact execHdrLsd_inv _ _ _ _ _ h hitem
  | gct => exact execGct_inv h hitem (inPalette_length ..)
  | block => exact exec_block_inv rd h hitem
  | app ns =>
    cases ns with
    | true => exact execExtAppNs_inv _ _ _ _ h hitem
    | false => exact skipFrom_inv _ h hitem
  | lct => exact execLct_inv h hitem (inPalette_length ..)
  | mcs => exact execMcs_inv _ h hitem
  | imgData => exact goto_inv _ (h.modPend _) (itemOk_image_withRaw (fun _ => []) hitem)
  | chain k => exact exec_chain_inv rd hengine h hitem

/-! ### Codes (R241) -/

/-- What a code leaves, by the two fields it writes. -/
theorem CodeKept.eq {s t : State} (h : CodeKept s t) : t = { s with lzw := t.lzw, endReason := t.endReason } :=
  congrArg (fun u : State => { u with lzw := t.lzw, endReason := t.endReason }) h

theorem CodeKept.trans {s t u : State} (hst : CodeKept s t) (htu : CodeKept t u) : CodeKept s u := by
  have hsu : ({ u with lzw := s.lzw, endReason := s.endReason } : State) =
      { t with lzw := s.lzw, endReason := s.endReason } :=
    congrArg (fun v : State => { v with lzw := s.lzw, endReason := s.endReason }) htu
  exact hsu.trans hst

theorem advanceCode_kept (s : State) : CodeKept s (advanceCode s) := rfl

theorem leaveLoop_kept (r : EndReason) (s : State) : CodeKept s (leaveLoop r s) := rfl

/-- A step of a run that writes the engine and `END_REASON` keeps the invariant if it keeps that of the run. -/
theorem CodeKept.inv {s t : State} {c : Caller} (h : CodeKept s t) (hs : s.Inv) (hengine : s.engine = .lzw c)
    (hlzw : t.lzw.Ok (curFrame s).mcs.toNat (curFrame s).rawLen (npix s)) : t.Inv := by
  have hrun := hs.run c hengine
  rw [h.eq]
  exact {
    mem := hs.mem
    dict := hlzw.dictWf
    frames := hs.frames
    gpal := hs.gpal
    hidden := hs.hidden
    parse := fun ph hph => (nomatch hengine.symm.trans hph)
    run := fun c' hc => by
      obtain rfl : c = c' := Engine.lzw.inj (hengine.symm.trans hc)
      exact ⟨hrun.doc, hrun.err, hrun.index, hrun.payload, hrun.slot, hrun.caller, hrun.pix, hlzw⟩ }

/-- CLEAR goes back to the widths of the start (R227). -/
theorem resetCodes_ok {l : Lzw} {mcs rawLen n : Nat} (h : l.Ok mcs rawLen n) (hmcs : 2 ≤ mcs ∧ mcs ≤ 8) :
    (resetCodes mcs l).Ok mcs rawLen n := by
  obtain ⟨hlo, hhi⟩ := clear_range hmcs.1 hmcs.2
  have hclear := h.clear
  have hpow : 2 ^ (mcs + 1) = 2 * 2 ^ mcs := by rw [Nat.pow_succ]; omega
  have hmax : Config.maxCodes = 4096 := rfl
  have hwidth : Config.maxWidth = 12 := rfl
  exact {
    clear := h.clear
    eoi := h.eoi
    availLo := Nat.le_refl _
    availHi := by simp only [resetCodes]; omega
    cwLo := Nat.le_refl _
    cwHi := by simp only [resetCodes]; omega
    widthLo := by simp only [resetCodes, Nat.add_sub_cancel]; omega
    widthHi := fun _ => by simp only [resetCodes]; omega
    start := fun _ => rfl
    prev := nofun
    dict := fun k hk1 hk2 => absurd hk2 (Nat.not_lt.2 hk1)
    dictWf := h.dictWf
    stack := h.stack
    bitpos := h.bitpos
    outLen := h.outLen
    outRange := h.outRange }

/-- A root code ends its own walk (R233). -/
theorem walk_root {d : Dict} {clear n : Nat} {c : Code} (st : List Byte) (h : c.toNat < clear) :
    walk d clear (n + 1) c st = some (c, rootPixel c :: st) := by
  rw [walk_succ, if_neg (by omega)]

/-- DATA_FIRST: a root code, emitted and remembered (R230). -/
theorem emitRoot_ok {l : Lzw} {mcs rawLen n : Nat} (h : l.Ok mcs rawLen n) {code : Code}
    (hroot : code.toNat < l.clear) :
    Lzw.Ok mcs rawLen n { l with
      out := emit n l.out (rootPixel code), first := rootPixel code, prev := some code } where
  clear := h.clear
  eoi := h.eoi
  availLo := h.availLo
  availHi := h.availHi
  cwLo := h.cwLo
  cwHi := h.cwHi
  widthLo := h.widthLo
  widthHi := h.widthHi
  start := nofun
  prev p hp := by
    obtain rfl := Option.some.inj hp
    have havail := h.availLo
    have heoi := h.eoi
    exact ⟨by dsimp only; omega, by dsimp only; omega, by dsimp only; omega, code, _, walk_root (n := 4095) [] hroot,
      hroot, rfl⟩
  dict := h.dict
  dictWf := h.dictWf
  stack := h.stack
  bitpos := h.bitpos
  outLen := emitAll_length_le n [rootPixel code] l.out h.outLen
  outRange v hv := by
    obtain hv | hv := mem_emitAll (st := [rootPixel code]) hv
    · exact h.outRange v hv
    · obtain rfl := List.mem_singleton.1 hv
      exact Nat.lt_of_le_of_lt (rootPixel_le code) hroot

/-- Walks of one code and stack that end, end alike whatever their room. -/
theorem walk_eq_of_some {d : Dict} {clear n m : Nat} {c : Code} {st : List Byte} {r r' : Code × List Byte}
    (h : walk d clear n c st = some r) (h' : walk d clear m c st = some r') : r = r' :=
  Option.some.inj ((walk_mono h (Nat.le_max_left n m)).symm.trans (walk_mono h' (Nat.le_max_right n m)))

/-- What a walk from a code of a run ends with, whatever its room: the root, and root pixels on the stack. -/
theorem walk_result {d : Dict} {clear avail n : Nat} {c root : Code} {st stack : List Byte} (hd : d.Ok clear avail)
    (hc : CodeOk clear avail c) (hst : ∀ v ∈ st, v.toNat < clear) (h : walk d clear n c st = some (root, stack)) :
    root.toNat < clear ∧ (∀ v ∈ stack, v.toNat < clear) ∧
      ∃ str, walk d clear Config.maxCodes c [] = some (root, str) := by
  have hlt := c.isLt
  have hroom : c.toNat - clear ≤ Config.maxCodes := Nat.le_trans (Nat.sub_le _ _) (Nat.le_of_lt hlt)
  obtain ⟨root', str, hwalk, hroot, hstr, -⟩ := walk_ok hd (n := Config.maxCodes) st hc (by decide) hroom
  obtain ⟨rfl, rfl⟩ := Prod.mk.inj (walk_eq_of_some h hwalk)
  refine ⟨hroot, fun v hv => (List.mem_append.1 hv).elim (hstr v) (hst v), ?_⟩
  rw [← List.nil_append st, walk_append, Option.map_eq_some_iff] at hwalk
  obtain ⟨⟨root'', str'⟩, hempty, heq⟩ := hwalk
  obtain ⟨rfl, -⟩ := Prod.mk.inj heq
  exact ⟨str', hempty⟩

theorem execData_lzwOk {s : State} {mcs rawLen : Nat} (hl : s.lzw.Ok mcs rawLen (npix s)) {p code : Code}
    (hp : s.lzw.prev = some p) (hc : CodeOk s.lzw.clear s.lzw.avail code) :
    NextSatisfies (fun t => t.lzw.Ok mcs rawLen (npix s)) (execData code s) := by
  unfold execData
  rw [hp, hl.stack]
  dsimp only
  split
  · trivial
  · next root stack hwalk =>
    obtain ⟨hroot, hstack, hcode⟩ := walk_result hl.dict hc (by simp) hwalk
    refine finishData_ok hl hp (.inl hc) hroot hstack (fun _ => hcode) fun hnew => ?_
    have heoi := hl.availLo
    unfold CodeOk at hc
    omega

/-- DATA_KWKWK: the string of `PREV` and its own first pixel (R232). -/
theorem execDataKwkwk_lzwOk {s : State} {mcs rawLen : Nat} (hl : s.lzw.Ok mcs rawLen (npix s)) {p : Code}
    (hp : s.lzw.prev = some p) (havail : s.lzw.avail < Config.maxCodes) :
    NextSatisfies (fun t => t.lzw.Ok mcs rawLen (npix s)) (execDataKwkwk s) := by
  obtain ⟨-, -, -, root0, -, -, hroot0, hfirst⟩ := hl.prev p hp
  have hfirstLt : s.lzw.first.toNat < s.lzw.clear := hfirst ▸ Nat.lt_of_le_of_lt (rootPixel_le root0) hroot0
  have hcode : (BitVec.ofNat 12 s.lzw.avail).toNat = s.lzw.avail := Nat.mod_eq_of_lt havail
  unfold execDataKwkwk push
  rw [hp, hl.stack]
  dsimp only
  split
  · trivial
  · next st hst =>
    obtain rfl := Option.some.inj (Option.ite_none_right_eq_some.1 hst).2
    split
    · trivial
    · next root stack hwalk =>
      obtain ⟨hroot, hstack, hprev⟩ := walk_result hl.dict (hl.prev_codeOk hp) (by simpa using hfirstLt) hwalk
      refine finishData_ok hl hp (.inr ⟨hcode, havail⟩) hroot hstack (fun hc => ?_) fun _ => hprev
      have hlo := hl.availLo
      unfold CodeOk at hc
      omega

/-- A code of any class keeps the invariants of the run (R227 to R232, R241). -/
theorem exec_code_lzwOk {s : State} {rawLen : Nat} (hl : s.lzw.Ok (curFrame s).mcs.toNat rawLen (npix s))
    (hmcs : (curFrame s).McsOk) {q : LzwCtx} (hclear : q.clear = s.lzw.clear) (havail : q.avail = s.lzw.avail)
    (hprev : q.hasPrev = s.lzw.prev.isSome) {c : Nat} (hc : c < Config.maxCodes) :
    NextSatisfies (fun t => t.lzw.Ok (curFrame s).mcs.toNat rawLen (npix s)) (exec (decodeCode q c) s) := by
  have hval : (BitVec.ofNat 12 c).toNat = c := Nat.mod_eq_of_lt hc
  have hended := hl.withPos s.lzw.code s.lzw.bitpos true hl.bitpos
  unfold decodeCode
  split
  · exact NextSatisfies.next (resetCodes_ok hl hmcs)
  · next hnotClear =>
    split
    · exact hended
    · next hnotEoi =>
      split
      · exact hended
      · next hnotBad =>
        split
        · next hnone =>
          have hstart := hl.start (by simpa [hnone] using hprev)
          exact emitRoot_ok hl (by rw [hval]; simp only [hnone, true_and] at hnotBad; omega)
        · next hsome =>
          obtain ⟨p, hp⟩ : ∃ p, s.lzw.prev = some p := by
            rw [← Option.isSome_iff_exists, ← hprev]
            simpa using hsome
          split
          · exact execDataKwkwk_lzwOk hl hp (by omega)
          · refine execData_lzwOk hl hp ?_
            unfold CodeOk
            omega

/-! ### A step -/

theorem applyWrite_inv {s : State} {w : HostWrite} (h : s.BaseOk) (hidle : s.engine = .idle) :
    (applyWrite w s).Inv := by
  have hmem : (applyWrite w s).inMem.wf = true := by
    cases w with
    | inByte off b => exact Memory.wf_write _ _ _ h.mem
    | _ => exact h.mem
  cases w <;> exact State.BaseOk.inv ⟨hmem, h.dict, h.frames, h.gpal, h.hidden⟩ hidle

theorem finishRun_inv {s : State} {c : Caller} (hs : s.Inv) (hengine : s.engine = .lzw c) : (finishRun c s).Inv := by
  have hrun := hs.run c hengine
  exact finishCommand_setDec_inv hs.base (usageError_eq_none.2 ⟨hrun.doc, hrun.index, hrun.caller⟩) hrun.slot
    (.inl (padOut_length hrun.lzw.outLen))

/-- The code at hand has the frame of a code, its fetch included (R224, R326). -/
theorem exec_fetchedCode_kept (s : State) :
    NextSatisfies (CodeKept s)
      (exec (decodeCode (lzwCtx s) (codeAt (rawReader s) s.lzw.bitpos s.lzw.cw)) (advanceCode s)) := by
  have hkept := exec_kept (decodeCode (lzwCtx s) (codeAt (rawReader s) s.lzw.bitpos s.lzw.cw)) (advanceCode s)
  rw [kept_of_decodeCode] at hkept
  exact hkept.mono fun t ht => (advanceCode_kept s).trans ht

/-- The code at hand keeps the invariant. -/
theorem exec_fetchedCode_inv {s : State} {c : Caller} (hs : s.Inv) (hengine : s.engine = .lzw c)
    (hbits : s.lzw.cw ≤ 8 * (curFrame s).rawLen - s.lzw.bitpos) :
    NextSatisfies State.Inv
      (exec (decodeCode (lzwCtx s) (codeAt (rawReader s) s.lzw.bitpos s.lzw.cw)) (advanceCode s)) := by
  have hrun := hs.run c hengine
  have hmcs := (hs.frames _ (curFrame_mem hrun.index)).mcs
  have hcode : codeAt (rawReader s) s.lzw.bitpos s.lzw.cw < Config.maxCodes :=
    Nat.lt_of_lt_of_le (codeAt_lt _ _ _) (Nat.pow_le_pow_right (n := 2) (by omega) hrun.lzw.cwHi)
  exact ((exec_fetchedCode_kept s).and (exec_code_lzwOk (s := advanceCode s) (advanceCode_lzw_ok hrun.lzw hbits) hmcs
    (q := lzwCtx s) rfl rfl rfl hcode)).mono fun t ⟨hkept, hlzw⟩ => hkept.inv hs hengine hlzw

/-- Every step keeps the invariant of the machine. -/
theorem step_inv {s : State} (hs : s.Inv) : NextSatisfies State.Inv (step s) := by
  have hleave {c : Caller} (r : EndReason) (hengine : s.engine = .lzw c) : (leaveLoop r s).Inv :=
    (leaveLoop_kept r s).inv hs hengine
      ((hs.run c hengine).lzw.withPos s.lzw.code s.lzw.bitpos true (hs.run c hengine).lzw.bitpos)
  have hbase (q : List HostWrite) : State.BaseOk { s with hostq := q } :=
    ⟨hs.mem, hs.dict, hs.frames, hs.gpal, hs.hidden⟩
  obtain ⟨-, -, h⟩ | ⟨w, q, hidle, -, -, h⟩ | ⟨code, q, hidle, -, h⟩ | ⟨ph, hengine, h⟩ | ⟨c, hengine, -, h⟩ |
    ⟨c, hengine, -, -, h⟩ | ⟨c, hengine, -, -, -, h⟩ | ⟨c, hengine, -, -, hbits, h⟩ := step_cases s <;> rw [h]
  · exact hs
  · exact applyWrite_inv (hbase q) hidle
  · exact exec_command_inv code (applyWrite_inv (w := .command code) (hbase q) hidle).base
  · exact exec_item_inv _ hs hengine
  · exact finishRun_inv hs hengine
  · exact hleave .count hengine
  · exact hleave .exhausted hengine
  · exact exec_fetchedCode_inv hs hengine hbits

end Sys2Proof.Machine
end

section
/-! PROOFS. A command ends within its bound (R130, R183, R242): every step of a busy engine lowers `stepBound`, and
keeps the invariant. -/

namespace Sys2Proof.Machine

/-! ### The bound by what the engine does -/

theorem stepBound_idle {s : State} (h : s.engine = .idle) : stepBound s = 0 := by
  simp only [stepBound, h]

theorem stepBound_parse {s : State} {ph : ParsePhase} (h : s.engine = .parse ph) :
    stepBound s = 3 * (s.host.len - itemBase ph s) + phaseRank ph + 1 := by
  simp only [stepBound, h]

theorem stepBound_lzw {s : State} {c : Caller} (h : s.engine = .lzw c) :
    stepBound s = if s.lzw.ended then 1 else 8 * (curFrame s).rawLen - s.lzw.bitpos + 2 := by
  simp only [stepBound, h]

/-- Only an idle engine has no step left. -/
theorem idle_of_stepBound_eq_zero {s : State} (h : stepBound s = 0) : s.engine = .idle := by
  cases hengine : s.engine with
  | idle => rfl
  | parse ph => rw [stepBound_parse hengine] at h; omega
  | lzw c =>
    rw [stepBound_lzw hengine] at h
    split at h <;> omega

/-! ### Container items (R183) -/

/-- An item lowers the bound of a parser that reads it. -/
def LowersBound (ph : ParsePhase) (s t : State) : Prop :=
  stepBound t ≤ 3 * (s.host.len - itemBase ph s) + phaseRank ph

/-- The parser goes on with an item whose own bound is lower. -/
theorem LowersBound.of_goto {ph ph' : ParsePhase} {s u : State} {pos : Nat} (hhost : u.host = s.host)
    (h : 3 * (s.host.len - itemBase ph' (goto pos ph' u)) + phaseRank ph' <
      3 * (s.host.len - itemBase ph s) + phaseRank ph) : LowersBound ph s (goto pos ph' u) := by
  rw [LowersBound, stepBound_parse (goto_engine ..), goto_host, hhost]
  exact h

/-- A PARSE that ended is below every bound. -/
theorem LowersBound.of_idle {ph : ParsePhase} {s t : State} (h : t.engine = .idle) : LowersBound ph s t := by
  rw [LowersBound, stepBound_idle h]
  exact Nat.zero_le _

theorem LowersBound.of_skipFrom {ph : ParsePhase} {s : State} {cursor : Nat}
    (h : 3 * (s.host.len - cursor) < 3 * (s.host.len - itemBase ph s) + phaseRank ph) :
    LowersBound ph s (skipFrom cursor s) :=
  .of_goto (u := s) (pos := s.pos) (ph' := .chain (.skip cursor)) rfl h

theorem execHdrSig_lowersBound (bytes : List (Option Byte)) (s : State) :
    NextSatisfies (LowersBound .sig s) (execHdrSig bytes s) := by
  unfold execHdrSig
  split
  · exact .of_idle rfl
  · exact .of_goto rfl (by simp only [itemBase, phaseRank]; omega)

theorem execHdrLsd_lowersBound (width height : Half) (pk bg aspect : Byte) (s : State) :
    NextSatisfies (LowersBound .lsd s) (execHdrLsd width height pk bg aspect s) := by
  unfold execHdrLsd
  split
  · exact .of_goto rfl (by simp only [itemBase, phaseRank, goto_pos]; omega)
  · exact .of_goto rfl (by simp only [itemBase, phaseRank, goto_pos]; omega)

theorem execGct_lowersBound (entries : List Rgb) (s : State) :
    NextSatisfies (LowersBound .gct s) (execGct entries s) :=
  LowersBound.of_goto rfl (by simp only [itemBase, phaseRank, goto_pos]; omega)

theorem execExtGce_lowersBound {s : State} (len pk : Byte) (delay : Half) (index : Byte) (term : Option Byte)
    (htag : s.pos < s.host.len) : NextSatisfies (LowersBound .block s) (execExtGce len pk delay index term s) := by
  unfold execExtGce
  split
  · exact .of_goto (by simp) (by simp only [itemBase, phaseRank, goto_pos]; omega)
  · exact .of_idle rfl

theorem execExtApp_lowersBound (len : Option Byte) (ident : List (Option Byte)) (s : State) :
    NextSatisfies (LowersBound .block s) (execExtApp len ident s) := by
  unfold execExtApp
  split
  · exact .of_goto rfl (by simp only [itemBase, phaseRank, goto_pos]; omega)
  · exact .of_idle rfl

theorem execExtAppNs_lowersBound {s : State} (ident : Option Byte) (loops : Half) (term : Option Byte) (ns : Bool) :
    NextSatisfies (LowersBound (.app ns) s) (execExtAppNs (inByte s (s.pos + 14)) ident loops term s) := by
  unfold execExtAppNs
  split
  · exact .of_idle rfl
  · next hsize =>
    have hlt := lt_len_of_inByte (not_not.1 hsize)
    split
    · exact .of_idle rfl
    · split
      · exact .of_idle rfl
      · exact .of_goto rfl (by simp only [itemBase, phaseRank, goto_pos]; omega)

theorem execImg_lowersBound {s : State} (left top width height : Half) (pk : Byte) (htag : s.pos < s.host.len) :
    NextSatisfies (LowersBound .block s) (execImg left top width height pk s) := by
  unfold execImg
  split
  · exact .of_goto (by simp) (by simp only [itemBase, phaseRank, goto_pos]; omega)
  · exact .of_goto (by simp) (by simp only [itemBase, phaseRank, goto_pos]; omega)

theorem execLct_lowersBound (entries : List Rgb) (s : State) :
    NextSatisfies (LowersBound .lct s) (execLct entries s) :=
  LowersBound.of_goto rfl (by simp only [itemBase, phaseRank, goto_pos]; omega)

theorem execMcs_lowersBound (s : State) : NextSatisfies (LowersBound .mcs s) (execMcs (inByte s s.pos) s) := by
  unfold execMcs
  split
  · exact .of_idle rfl
  · next b hbyte =>
    have hlt := lt_len_of_inByte hbyte
    split
    · exact .of_goto rfl (by simp only [itemBase, phaseRank, goto_pos]; omega)
    · exact .of_idle rfl

theorem execImgData_lowersBound (s : State) : NextSatisfies (LowersBound .imgData s) (execImgData s) :=
  LowersBound.of_goto rfl (by simp only [itemBase, phaseRank, goto_pos, chainAt_image]; omega)

theorem execSubblock_lowersBound {s : State} {k : ChainKind} (d : List Byte) (hengine : s.engine = .parse (.chain k))
    (hcursor : chainAt k s.pos < s.host.len) :
    NextSatisfies (LowersBound (.chain k) s) (execSubblock (some d) s) := by
  unfold execSubblock
  rw [chainKind_of hengine]
  cases k with
  | skip cursor => exact LowersBound.of_skipFrom (by simp only [itemBase, phaseRank, chainAt_skip] at *; omega)
  | image =>
    dsimp only
    split
    · exact .of_goto rfl (by simp only [itemBase, phaseRank, goto_pos, chainAt_image] at *; omega)
    · trivial

theorem execSubblockEnd_lowersBound {s : State} {k : ChainKind} (hengine : s.engine = .parse (.chain k))
    (hcursor : chainAt k s.pos < s.host.len) : NextSatisfies (LowersBound (.chain k) s) (execSubblockEnd s) := by
  unfold execSubblockEnd
  rw [chainKind_of hengine]
  cases k with
  | skip cursor =>
    exact LowersBound.of_goto rfl (by simp only [itemBase, phaseRank, goto_pos, chainAt_skip] at *; omega)
  | image =>
    dsimp only
    split
    · exact .of_goto rfl (by simp only [itemBase, phaseRank, goto_pos, chainAt_image] at *; omega)
    · trivial

/-- A chain that starts two bytes after the tag (R171, R172). -/
theorem skipFrom_label_lowersBound (s : State) : LowersBound .block s (skipFrom (s.pos + 2) s) :=
  .of_skipFrom (by simp only [itemBase, phaseRank]; omega)

theorem exec_extension_lowersBound {s : State} (rd : Nat → Option Byte) (htag : s.pos < s.host.len) :
    NextSatisfies (LowersBound .block s) (exec (decodeExtension rd) s) := by
  unfold decodeExtension
  split
  · exact execExtGce_lowersBound _ _ _ _ _ htag
  · split
    · exact execExtApp_lowersBound ..
    · split
      · exact skipFrom_label_lowersBound s
      · split
        · exact skipFrom_label_lowersBound s
        · exact LowersBound.of_idle rfl

theorem exec_block_lowersBound (s : State) :
    NextSatisfies (LowersBound .block s) (exec (decodeBlock (itemReader .block s)) s) := by
  unfold decodeBlock
  split
  · next htag => exact exec_extension_lowersBound _ (lt_len_of_inByte htag)
  · split
    · next htag => exact execImg_lowersBound _ _ _ _ _ (lt_len_of_inByte htag)
    · split
      · exact LowersBound.of_idle rfl
      · exact LowersBound.of_idle rfl

theorem exec_chain_lowersBound {s : State} {k : ChainKind} (hengine : s.engine = .parse (.chain k)) :
    NextSatisfies (LowersBound (.chain k) s) (exec (decodeChain (itemReader (.chain k) s)) s) := by
  unfold decodeChain
  split
  · exact LowersBound.of_idle rfl
  · next n hlength =>
    have hlt : chainAt k s.pos < s.host.len := lt_len_of_inByte hlength
    split
    · exact execSubblockEnd_lowersBound hengine hlt
    · exact execSubblock_lowersBound _ hengine hlt

theorem exec_item_lowersBound {s : State} {ph : ParsePhase} (hengine : s.engine = .parse ph) :
    NextSatisfies (LowersBound ph s) (exec (decodeItem ph (palSizeAt ph s) (itemReader ph s)) s) := by
  cases ph with
  | sig => exact execHdrSig_lowersBound ..
  | lsd => exact execHdrLsd_lowersBound ..
  | gct => exact execGct_lowersBound ..
  | block => exact exec_block_lowersBound s
  | app ns =>
    cases ns with
    | true => exact execExtAppNs_lowersBound ..
    | false => exact LowersBound.of_skipFrom (by simp only [itemBase, phaseRank]; omega)
  | lct => exact execLct_lowersBound ..
  | mcs => exact execMcs_lowersBound s
  | imgData => exact execImgData_lowersBound s
  | chain k => exact exec_chain_lowersBound hengine

/-! ### Codes (R242) -/

theorem execData_bitpos (code : Code) (s : State) :
    NextSatisfies (fun t => t.lzw.bitpos = s.lzw.bitpos) (execData code s) := by
  unfold execData
  split
  · trivial
  · split
    · trivial
    · simp only [NextSatisfies, modLzw_lzw, finishData_eq]

theorem execDataKwkwk_bitpos (s : State) :
    NextSatisfies (fun t => t.lzw.bitpos = s.lzw.bitpos) (execDataKwkwk s) := by
  unfold execDataKwkwk
  split
  · trivial
  · split
    · trivial
    · split
      · trivial
      · simp only [NextSatisfies, modLzw_lzw, finishData_eq]

/-- Only the fetch moves `BITPOS` (R224). -/
theorem exec_code_bitpos (q : LzwCtx) (c : Nat) (s : State) :
    NextSatisfies (fun t => t.lzw.bitpos = s.lzw.bitpos) (exec (decodeCode q c) s) := by
  unfold decodeCode
  split
  · rfl
  · split
    · rfl
    · split
      · rfl
      · split
        · rfl
        · split
          · exact execDataKwkwk_bitpos s
          · exact execData_bitpos _ s

/-- `curFrame` and the engine of a state that a code left. -/
theorem CodeKept.curFrame {s t : State} (h : CodeKept s t) : curFrame t = curFrame s := by
  rw [h.eq]
  rfl

/-- The code at hand takes at least one bit (R38, R242). -/
theorem exec_fetchedCode_stepBound {s : State} {c : Caller} (hengine : s.engine = .lzw c)
    (hended : s.lzw.ended = false) (hcw : 1 ≤ s.lzw.cw) (hbits : s.lzw.cw ≤ 8 * (curFrame s).rawLen - s.lzw.bitpos) :
    NextSatisfies (fun t => stepBound t < stepBound s)
      (exec (decodeCode (lzwCtx s) (codeAt (rawReader s) s.lzw.bitpos s.lzw.cw)) (advanceCode s)) := by
  refine ((exec_fetchedCode_kept s).and (exec_code_bitpos _ _ (advanceCode s))).mono fun t ⟨hkept, hbitpos⟩ => ?_
  have hmoved : t.lzw.bitpos = s.lzw.bitpos + s.lzw.cw := hbitpos
  rw [stepBound_lzw hengine, stepBound_lzw (hkept.engine.trans hengine), hkept.curFrame, hmoved, hended]
  simp only [Bool.false_eq_true, if_false]
  split <;> omega

/-! ### A step of a busy engine -/

/-- While a command runs a step runs the item at hand, ends the run, leaves its loop, or runs the code at hand. -/
theorem step_busy_cases {s : State} (hbusy : s.engine ≠ .idle) :
    (∃ ph, s.engine = .parse ph ∧ step s = exec (decodeItem ph (palSizeAt ph s) (itemReader ph s)) s) ∨
    (∃ c, s.engine = .lzw c ∧ s.lzw.ended = true ∧ step s = .next (finishRun c s)) ∨
    (∃ c r, s.engine = .lzw c ∧ s.lzw.ended = false ∧ step s = .next (leaveLoop r s)) ∨
    (∃ c, s.engine = .lzw c ∧ s.lzw.ended = false ∧ s.lzw.cw ≤ 8 * (curFrame s).rawLen - s.lzw.bitpos ∧
      step s = exec (decodeCode (lzwCtx s) (codeAt (rawReader s) s.lzw.bitpos s.lzw.cw)) (advanceCode s)) := by
  obtain ⟨hidle, -⟩ | ⟨w, q, hidle, -⟩ | ⟨code, q, hidle, -⟩ | ⟨ph, hengine, h⟩ | ⟨c, hengine, hended, h⟩ |
    ⟨c, hengine, hended, -, h⟩ | ⟨c, hengine, hended, -, -, h⟩ | ⟨c, hengine, hended, -, hbits, h⟩ := step_cases s
  · exact absurd hidle hbusy
  · exact absurd hidle hbusy
  · exact absurd hidle hbusy
  · exact .inl ⟨ph, hengine, h⟩
  · exact .inr (.inl ⟨c, hengine, hended, h⟩)
  · exact .inr (.inr (.inl ⟨c, .count, hengine, hended, h⟩))
  · exact .inr (.inr (.inl ⟨c, .exhausted, hengine, hended, h⟩))
  · exact .inr (.inr (.inr ⟨c, hengine, hended, hbits, h⟩))

theorem step_stepBound {s : State} (hs : s.Inv) (hbusy : s.engine ≠ .idle) :
    NextSatisfies (fun t => stepBound t < stepBound s) (step s) := by
  obtain ⟨ph, hengine, h⟩ | ⟨c, hengine, hended, h⟩ | ⟨c, r, hengine, hended, h⟩ | ⟨c, hengine, hended, hbits, h⟩ :=
    step_busy_cases hbusy <;> rw [h]
  · refine (exec_item_lowersBound hengine).mono fun t ht => ?_
    rw [stepBound_parse hengine]
    exact Nat.lt_succ_of_le ht
  · rw [stepBound_lzw hengine, if_pos hended]
    have hidle := stepBound_idle (finishCommand_engine c (setDec (padOut (npix s) s.lzw.out) s))
    exact NextSatisfies.next (hidle ▸ Nat.one_pos)
  · refine NextSatisfies.next ?_
    rw [stepBound_lzw (s := leaveLoop r s) hengine, stepBound_lzw hengine, hended]
    simp only [leaveLoop, if_true, Bool.false_eq_true, if_false]
    omega
  · have hcw := (hs.run c hengine).lzw.cwLo
    exact exec_fetchedCode_stepBound hengine hended (by omega) hbits

/-! ### A command -/

/-- The steps until the engine is idle: it becomes idle within the bound, and what its steps keep holds at the end. -/
theorem runIdle_ends {P : State → Prop}
    (hstep : ∀ s : State, s.Inv → P s → s.engine ≠ .idle → NextSatisfies P (step s)) {n : Nat} {s : State} (hs : s.Inv)
    (hP : P s) (hn : stepBound s ≤ n) :
    NextSatisfies (fun t => t.Inv ∧ t.engine = .idle ∧ P t) (runIdle n s) := by
  induction n generalizing s with
  | zero => exact ⟨hs, idle_of_stepBound_eq_zero (Nat.le_zero.1 hn), hP⟩
  | succ n ih =>
    unfold runIdle
    split
    · next hidle => exact ⟨hs, hidle, hP⟩
    · next hbusy =>
      have hnext := ((step_inv hs).and (step_stepBound hs hbusy)).and (hstep s hs hP hbusy)
      split
      · next t ht =>
        obtain ⟨⟨hinv, hbound⟩, hPt⟩ := hnext.of_eq ht
        exact ih hinv hPt (by omega)
      · trivial
      · trivial

/-- The write of `CMD` is an idle engine's. -/
theorem applyWrite_command_base {s : State} (code : Byte) (hs : s.Inv) : (applyWrite (.command code) s).BaseOk :=
  ⟨hs.mem, hs.dict, hs.frames, hs.gpal, hs.hidden⟩

/-- A command: what its instruction establishes and its steps keep holds at its end, between commands. -/
theorem runCommand_ends {P : State → Prop} {s : State} {code : Byte} (hs : s.Inv)
    (hexec : NextSatisfies P (exec (decodeCommand code) (applyWrite (.command code) s)))
    (hstep : ∀ s : State, s.Inv → P s → s.engine ≠ .idle → NextSatisfies P (step s)) :
    NextSatisfies (fun t => t.Inv ∧ t.engine = .idle ∧ P t) (runCommand code s) := by
  have hfirst := (exec_command_inv code (applyWrite_command_base code hs)).and hexec
  unfold runCommand
  split
  · next t ht =>
    obtain ⟨hinv, hP⟩ := hfirst.of_eq ht
    exact runIdle_ends hstep hinv hP (Nat.le_refl _)
  · trivial
  · trivial

/-! ### A command answers -/

theorem HostSideKept.trans {s t u : State} (hst : HostSideKept s t) (htu : HostSideKept t u) : HostSideKept s u :=
  ⟨htu.inMem.trans hst.inMem, htu.host.trans hst.host, htu.hostq.trans hst.hostq, htu.caps.trans hst.caps⟩

/-- The host's writes land between commands only: a step of a busy engine leaves the host's side alone (R75, log 6). -/
theorem step_hostSide {s : State} (hbusy : s.engine ≠ .idle) : NextSatisfies (HostSideKept s) (step s) := by
  obtain ⟨ph, -, h⟩ | ⟨c, -, -, h⟩ | ⟨c, r, -, -, h⟩ | ⟨c, -, -, -, h⟩ := step_busy_cases hbusy <;> rw [h]
  · exact (exec_kept _ s).mono fun t ht => InstrKept.hostSide ht
  · exact HostSideKept.trans (t := setDec (padOut (npix s) s.lzw.out) s) ⟨rfl, rfl, rfl, rfl⟩
      (finishCommand_commandKept ..).toHostSideKept
  · exact (leaveLoop_kept r s).hostSide
  · exact (exec_fetchedCode_kept s).mono fun t ht => ht.hostSide

/-- Under ample capacities the steps until the engine is idle answer (R6, R243). -/
theorem runIdle_answers {s : State} (n : Nat) (hs : s.Inv) (hample : s.caps.Ample) : ∃ t, runIdle n s = .next t := by
  induction n generalizing s with
  | zero => exact ⟨s, rfl⟩
  | succ n ih =>
    unfold runIdle
    split
    · exact ⟨s, rfl⟩
    · next hbusy =>
      obtain ⟨t, ht⟩ := (step_onlyCapacityStops hs).next_of_ample hample
      have hcaps := ((step_hostSide hbusy).of_eq ht).caps
      rw [ht]
      exact ih ((step_inv hs).of_eq ht) (hcaps ▸ hample)

theorem runCommand_answers {s : State} (code : Byte) (hs : s.Inv) (hample : s.caps.Ample) :
    ∃ t, runCommand code s = .next t := by
  have hbase := applyWrite_command_base code hs
  obtain ⟨t, ht⟩ := (exec_command_onlyCapacityStops code (applyWrite (.command code) s)).next_of_ample hample
  have hcaps := (InstrKept.hostSide ((exec_kept _ _).of_eq ht)).caps
  obtain ⟨u, hu⟩ := runIdle_answers (stepBound t) ((exec_command_inv code hbase).of_eq ht) (hcaps ▸ hample)
  exact ⟨u, by rw [runCommand, ht]; exact hu⟩

/-! ### The outcome of a command -/

/-- What an item can do: go on with another one, with the frame committed at the end of its image data; raise an error;
or, at a trailer that is in the input, end the PARSE (R160, R180, R333, R179). -/
inductive ItemAnswer (s : State) : State → Prop where
  | goto {u : State} (pos : Nat) (ph : ParsePhase) (herr : u.err = s.err) (hflag : u.status.err = s.status.err)
      (hframes : u.frames = s.frames ∨
        s.engine = .parse (.chain .image) ∧ u.frames = s.frames ++ [(endRaw s).pendRec]) :
      ItemAnswer s (goto pos ph u)
  | raised (e : ErrorName) (off : Nat) (b : Option Byte) : ItemAnswer s (raiseParse e off b s)
  | trailer {t : State} (htag : s.pos < s.host.len) (ht : execTrailer s = .next t) : ItemAnswer s t

/-- The parser goes on, and the record it assembles stays pending. -/
theorem ItemAnswer.pending {s u : State} (pos : Nat) (ph : ParsePhase) (herr : u.err = s.err)
    (hflag : u.status.err = s.status.err) (hframes : u.frames = s.frames) : ItemAnswer s (Machine.goto pos ph u) :=
  .goto pos ph herr hflag (.inl hframes)

theorem ItemAnswer.skip {s : State} (cursor : Nat) : ItemAnswer s (skipFrom cursor s) :=
  .pending s.pos (.chain (.skip cursor)) rfl rfl rfl

/-- A change of the pending record, allocated if it was not. -/
theorem ItemAnswer.record {s : State} (pos : Nat) (ph : ParsePhase) (w : Frame → Frame) :
    ItemAnswer s (Machine.goto pos ph (modPend w (preAllocate s))) :=
  .pending pos ph (preAllocate_err s) (congrArg Status.err (preAllocate_status s)) (preAllocate_frames s)

theorem execHdrSig_answer (bytes : List (Option Byte)) (s : State) :
    NextSatisfies (ItemAnswer s) (execHdrSig bytes s) := by
  unfold execHdrSig
  split
  · exact .raised ..
  · exact .pending _ _ rfl rfl rfl

theorem execExtGce_answer (len pk : Byte) (delay : Half) (index : Byte) (term : Option Byte) (s : State) :
    NextSatisfies (ItemAnswer s) (execExtGce len pk delay index term s) := by
  unfold execExtGce
  split
  · exact .record ..
  · exact .raised ..

theorem execExtApp_answer (len : Option Byte) (ident : List (Option Byte)) (s : State) :
    NextSatisfies (ItemAnswer s) (execExtApp len ident s) := by
  unfold execExtApp
  split
  · exact .pending _ _ rfl rfl rfl
  · exact .raised ..

theorem execExtAppNs_answer (size ident : Option Byte) (loops : Half) (term : Option Byte) (s : State) :
    NextSatisfies (ItemAnswer s) (execExtAppNs size ident loops term s) := by
  unfold execExtAppNs
  split
  · exact .raised ..
  · split
    · exact .raised ..
    · split
      · exact .raised ..
      · exact .pending _ _ rfl rfl rfl

theorem execMcs_answer (m : Option Byte) (s : State) : NextSatisfies (ItemAnswer s) (execMcs m s) := by
  unfold execMcs
  split
  · exact .raised ..
  · split
    · exact .pending _ _ rfl rfl rfl
    · exact .raised ..

theorem execSubblock_answer (body : Option (List Byte)) (s : State) :
    NextSatisfies (ItemAnswer s) (execSubblock body s) := by
  unfold execSubblock
  split
  · exact .raised ..
  · split
    · exact .skip _
    · split
      · exact .pending _ _ rfl rfl rfl
      · trivial

theorem execSubblockEnd_answer {s : State} {k : ChainKind} (hengine : s.engine = .parse (.chain k)) :
    NextSatisfies (ItemAnswer s) (execSubblockEnd s) := by
  unfold execSubblockEnd
  rw [chainKind_of hengine]
  cases k with
  | skip cursor => exact .pending _ _ rfl rfl rfl
  | image =>
    dsimp only
    split
    · exact .goto _ _ rfl rfl (.inr ⟨hengine, rfl⟩)
    · trivial

theorem exec_extension_answer (rd : Nat → Option Byte) (s : State) :
    NextSatisfies (ItemAnswer s) (exec (decodeExtension rd) s) := by
  unfold decodeExtension
  split
  · exact execExtGce_answer ..
  · split
    · exact execExtApp_answer ..
    · split
      · exact ItemAnswer.skip _
      · split
        · exact ItemAnswer.skip _
        · exact ItemAnswer.raised ..

theorem exec_block_answer (s : State) :
    NextSatisfies (ItemAnswer s) (exec (decodeBlock (itemReader .block s)) s) := by
  unfold decodeBlock
  split
  · exact exec_extension_answer ..
  · split
    · exact ItemAnswer.record ..
    · split
      · next htag => exact ItemAnswer.trailer (lt_len_of_inByte htag) rfl
      · exact ItemAnswer.raised ..

theorem exec_chain_answer {s : State} {k : ChainKind} (rd : Nat → Option Byte)
    (hengine : s.engine = .parse (.chain k)) : NextSatisfies (ItemAnswer s) (exec (decodeChain rd) s) := by
  unfold decodeChain
  split
  · exact ItemAnswer.raised ..
  · split
    · exact execSubblockEnd_answer hengine
    · exact execSubblock_answer (some _) s

theorem exec_item_answer {s : State} {ph : ParsePhase} (hengine : s.engine = .parse ph) :
    NextSatisfies (ItemAnswer s) (exec (decodeItem ph (palSizeAt ph s) (itemReader ph s)) s) := by
  cases ph with
  | sig => exact execHdrSig_answer ..
  | lsd => exact ItemAnswer.pending _ _ rfl rfl rfl
  | gct => exact ItemAnswer.pending _ _ rfl rfl rfl
  | block => exact exec_block_answer s
  | app ns =>
    cases ns with
    | true => exact execExtAppNs_answer ..
    | false => exact ItemAnswer.skip _
  | lct => exact ItemAnswer.pending _ _ rfl rfl rfl
  | mcs => exact execMcs_answer ..
  | imgData => exact ItemAnswer.pending _ _ rfl rfl rfl
  | chain k => exact exec_chain_answer _ hengine

theorem ErrorName.code_ne_zero (e : ErrorName) : e.code ≠ 0#8 := by cases e <;> decide

/-- An error was raised, which ends the command (R333). -/
def State.Raised (s : State) : Prop := s.engine = .idle ∧ s.status.err = true ∧ s.err.code ≠ 0#8

theorem raise_raised (e : ErrorName) (off : Nat) (b : Option Byte) (frame : Nat) (s : State) :
    (raise e off b frame s).Raised := ⟨rfl, rfl, e.code_ne_zero⟩

theorem ItemAnswer.noError_or_raised {s t : State} (h : ItemAnswer s t) (hs : s.NoError) : t.NoError ∨ t.Raised := by
  cases h with
  | goto pos ph herr hflag hframes => exact .inl ⟨hflag.trans hs.1, (congrArg ErrRegs.code herr).trans hs.2⟩
  | raised e off b => exact .inr (raise_raised ..)
  | trailer htag ht =>
    obtain rfl := Host.Outcome.next.inj ht
    exact .inl hs

theorem finishCommand_noError {c : Caller} {s : State} (h : s.NoError) : (finishCommand c s).NoError := by
  rw [finishCommand_rest]
  exact h

theorem CodeKept.noError {s t : State} (h : CodeKept s t) (hs : s.NoError) : t.NoError := by
  rw [h.eq]
  exact hs

/-- A command goes on without an error, or ends with one (R130). -/
theorem step_noError_or_raised {s : State} (hs : s.NoError ∨ s.Raised) (hbusy : s.engine ≠ .idle) :
    NextSatisfies (fun t => t.NoError ∨ t.Raised) (step s) := by
  have herr := hs.resolve_right fun hraised => hbusy hraised.1
  obtain ⟨ph, hengine, h⟩ | ⟨c, -, -, h⟩ | ⟨c, r, -, -, h⟩ | ⟨c, -, -, -, h⟩ := step_busy_cases hbusy <;> rw [h]
  · exact (exec_item_answer hengine).mono fun t ht => ht.noError_or_raised herr
  · exact .inl (finishCommand_noError herr)
  · exact .inl ((leaveLoop_kept r s).noError herr)
  · exact (exec_fetchedCode_kept s).mono fun t ht => .inl (ht.noError herr)

theorem CommandAnswer.noError_or_raised {c : Caller} {s t : State} (h : CommandAnswer c s t) (hs : s.NoError) :
    t.NoError ∨ t.Raised := by
  cases h with
  | usage e b => exact .inr (raise_raised ..)
  | finish => exact .inl (finishCommand_noError hs)
  | fill hdec => exact .inl (finishCommand_noError (s := setDec [0#8] s) hs)
  | run hdec => exact .inl hs

/-- The start of every command clears the error (R130). -/
theorem exec_command_noError_or_raised (code : Byte) (s : State) :
    NextSatisfies (fun t => t.NoError ∨ t.Raised) (exec (decodeCommand code) s) := by
  by_cases hparse : code = 0x01#8
  · subst hparse
    show NextSatisfies _ (execParse s)
    unfold execParse
    split
    · exact .inl ⟨rfl, rfl⟩
    · trivial
  · obtain ⟨c, -, hanswer⟩ := exec_decodeCommand_answer hparse s
    exact hanswer.mono fun t ht => ht.noError_or_raised ⟨rfl, rfl⟩

end Sys2Proof.Machine

open Sys2Proof.Machine in
/-- Settles O56: the command answers (`runCommand_answers`), and is over within its bound (`runCommand_ends`), which its
steps lower; they keep the host's side, and raise an error at most once. -/
theorem everyCommandTerminates : Obligations.EveryCommandTerminates := by
  unfold Obligations.EveryCommandTerminates
  intro s code hs hample _
  obtain ⟨t, ht⟩ := runCommand_answers code hs hample
  have hends := runCommand_ends
    (P := fun t => HostSideKept (applyWrite (.command code) s) t ∧ (t.NoError ∨ t.Raised)) hs
    (((exec_kept _ _).mono fun u hu => InstrKept.hostSide hu).and (exec_command_noError_or_raised code _))
    fun u _ ⟨hhost, herr⟩ hbusy =>
      ((step_hostSide hbusy).mono fun v hv => hhost.trans hv).and (step_noError_or_raised herr hbusy)
  obtain ⟨hinv, hidle, hside, herr⟩ := hends.of_eq ht
  exact ⟨t, ht, hinv, hidle, herr.imp_right And.right, hside.host, hside.inMem, hside.hostq, hside.caps⟩
end

section
/-! PROOFS. The outcome of PARSE (R131, R335, R342): the invariant of its steps is `ParseStage`. -/

namespace Sys2Proof.Machine

/-- Every cache slot is empty. -/
def State.CachesEmpty (s : State) : Prop := ∀ f ∈ s.frames, f.dec = none ∧ f.dei = .empty

/-- Where a PARSE stands: at an item, without an error; at its end with a document; or at its end with an error and no
document (R131, R179, R335). -/
inductive ParseStage (s : State) : Prop where
  | parsing (ph : ParsePhase) (hengine : s.engine = .parse ph) (herr : s.status.err = false) (hempty : s.CachesEmpty)
  | document (hengine : s.engine = .idle) (hdoc : s.status.docValid = true) (herr : s.status.err = false)
      (hpos : s.pos = s.endPos) (htrail : s.endPos + s.trailCount = s.host.len) (hempty : s.CachesEmpty)
  | failed (hengine : s.engine = .idle) (hdoc : s.status.docValid = false) (herr : s.status.err = true)

theorem execParse_stage (s : State) : NextSatisfies ParseStage (execParse s) := by
  unfold execParse
  split
  · exact .parsing .sig rfl rfl fun _ hf => absurd hf List.not_mem_nil
  · trivial

/-- The record whose image data ends has empty caches (R170). -/
theorem State.CachesEmpty.commit {s : State} (h : s.CachesEmpty) (hitem : s.ItemOk (.chain .image)) {fs : List Frame}
    (hfs : fs = s.frames ++ [(endRaw s).pendRec]) : ∀ f ∈ fs, f.dec = none ∧ f.dei = .empty := by
  obtain ⟨-, -, ⟨-, hdec, hdei⟩, -⟩ := hitem
  subst hfs
  intro f hf
  obtain hf | hf := List.mem_append.1 hf
  · exact h f hf
  · obtain rfl := List.mem_singleton.1 hf
    exact ⟨hdec, hdei⟩

theorem ItemAnswer.stage {s t : State} {ph : ParsePhase} (h : ItemAnswer s t) (hs : s.Inv)
    (hengine : s.engine = .parse ph) (herr : s.status.err = false) (hempty : s.CachesEmpty) : ParseStage t := by
  cases h with
  | goto pos ph' _ hflag hframes =>
    refine .parsing ph' rfl (hflag.trans herr) ?_
    obtain hsame | ⟨himage, hcommit⟩ := hframes
    · simpa only [State.CachesEmpty, goto_frames, hsame] using hempty
    · exact hempty.commit (hs.parserOk himage).2 hcommit
  | raised e off b => exact .failed rfl (hs.parse ph hengine).1 rfl
  | trailer htag ht =>
    obtain rfl := Host.Outcome.next.inj ht
    exact .document rfl rfl herr rfl (Nat.add_sub_cancel' htag) hempty

/-- Whatever its kind, an item has the frame of an item (R160, R326). -/
theorem kept_of_decodeItem (ph : ParsePhase) (size : BitVec 3) (rd : Nat → Option Byte) :
    InstrKept (decodeItem ph size rd) = ItemKept := by
  cases ph with
  | block =>
    simp only [decodeItem, decodeBlock, decodeExtension]
    repeat' split
    all_goals rfl
  | app ns => cases ns <;> rfl
  | chain k =>
    simp only [decodeItem, decodeChain]
    repeat' split
    all_goals rfl
  | _ => rfl

/-- The LZW engine, its run counter and its last end are as they were (R342). -/
structure EngineKept (s t : State) : Prop where
  lzw : t.lzw = s.lzw
  lzwRuns : t.lzwRuns = s.lzwRuns
  endReason : t.endReason = s.endReason

theorem execParse_engineKept (s : State) : NextSatisfies (EngineKept s) (execParse s) := by
  unfold execParse
  split
  · exact ⟨rfl, rfl, rfl⟩
  · trivial

/-- A step of a PARSE runs an item. -/
theorem step_stage {r s : State} (hs : s.Inv) (h : ParseStage s ∧ EngineKept r s) (hbusy : s.engine ≠ .idle) :
    NextSatisfies (fun t => ParseStage t ∧ EngineKept r t) (step s) := by
  obtain ⟨hstage, hengineKept⟩ := h
  cases hstage with
  | parsing ph hengine herr hempty =>
    have hkept := exec_kept (decodeItem ph (palSizeAt ph s) (itemReader ph s)) s
    rw [kept_of_decodeItem] at hkept
    rw [step_parse hengine]
    exact ((exec_item_answer hengine).and hkept).mono fun t ⟨hanswer, hitem⟩ =>
      ⟨hanswer.stage hs hengine herr hempty, hitem.lzw.trans hengineKept.lzw,
        hitem.lzwRuns.trans hengineKept.lzwRuns, hitem.endReason.trans hengineKept.endReason⟩
  | document hidle => exact absurd hidle hbusy
  | failed hidle => exact absurd hidle hbusy

end Sys2Proof.Machine

open Sys2Proof.Machine in
/-- Settles O57: the end of a PARSE is one of the last two cases of `ParseStage`; its items leave the LZW engine
alone. -/
theorem parseLeavesADocumentOrAnError : Obligations.ParseLeavesADocumentOrAnError := by
  unfold Obligations.ParseLeavesADocumentOrAnError
  intro s t hs _ hrun
  have hexec := (execParse_stage (applyWrite (.command 0x01#8) s)).and
    (execParse_engineKept (applyWrite (.command 0x01#8) s))
  obtain ⟨-, hidle, hstage, hlzw, hruns, hreason⟩ :=
    (runCommand_ends hs hexec fun u hu hP hbusy => step_stage hu hP hbusy).of_eq hrun
  refine ⟨hlzw, hruns, hreason, ?_⟩
  cases hstage with
  | parsing ph hengine => exact nomatch hidle.symm.trans hengine
  | document _ hdoc herr hpos htrail hempty => exact .inl ⟨hdoc, herr, hpos, htrail, hempty⟩
  | failed _ hdoc herr =>
    refine .inr ⟨hdoc, herr, fun i hi => ?_⟩
    have hexec (c : Caller) := exec_instr_usage (usageError_noDocument c hdoc)
    simp only [List.mem_cons, List.not_mem_nil, or_false] at hi
    obtain rfl | rfl | rfl := hi
    · exact hexec .decode
    · exact hexec .deinterlace
    · exact hexec .compose
end

section
/-! PROOFS. What a per-frame command leaves does not depend on which command had the frame decoded (R132 to R135, R324):
a run goes the same way whichever command it works for (`LoopEnds.forCommand`), and a command's remainder does not see
the window (`finishCommand_withWindow`). -/

namespace Sys2Proof.Machine

/-! ### The loop of a run (R223) -/

/-- From `s` the steps of the loop lead to `x`, where the loop has been left. -/
inductive LoopEnds : State → State → Prop where
  | left {s : State} (hended : s.lzw.ended = true) : LoopEnds s s
  | step {s t x : State} (hended : s.lzw.ended = false) (hstep : step s = .next t) (hrest : LoopEnds t x) : LoopEnds s x

theorem LoopEnds.unique {s x y : State} (hx : LoopEnds s x) (hy : LoopEnds s y) : x = y := by
  induction hx with
  | left hended =>
    cases hy with
    | left => rfl
    | step hended' => exact nomatch hended.symm.trans hended'
  | step hended hstep _ ih =>
    cases hy with
    | left hended' => exact nomatch hended.symm.trans hended'
    | step _ hstep' hrest => exact ih (Host.Outcome.next.inj (hstep'.symm.trans hstep) ▸ hrest)

/-- A step of the loop: left for the count or for lack of input, or the code at hand (R223, R225). -/
theorem step_loop {s : State} {c : Caller} (hengine : s.engine = .lzw c) (hended : s.lzw.ended = false) :
    step s =
      if npix s ≤ s.lzw.out.length then .next (leaveLoop .count s)
      else if 8 * (curFrame s).rawLen - s.lzw.bitpos < s.lzw.cw then .next (leaveLoop .exhausted s)
      else exec (decodeCode (lzwCtx s) (codeAt (rawReader s) s.lzw.bitpos s.lzw.cw)) (advanceCode s) := by
  by_cases hcount : npix s ≤ s.lzw.out.length
  · simp [step, fetch, hengine, fetchCode, hended, hcount]
  · by_cases hbits : 8 * (curFrame s).rawLen - s.lzw.bitpos < s.lzw.cw
    · simp [step, fetch, hengine, fetchCode, hended, decode_lzwCtx, hcount, hbits]
    · simp [step, fetch, hengine, fetchCode, hended, decode_lzwCtx, hcount, hbits]

/-- The step after the loop (R237). -/
theorem step_finish {s : State} {c : Caller} (hengine : s.engine = .lzw c) (hended : s.lzw.ended = true) :
    step s = .next (finishRun c s) := by
  simp [step, fetch, hengine, fetchCode, hended]

theorem step_loop_kept {s : State} {c : Caller} (hengine : s.engine = .lzw c) (hended : s.lzw.ended = false) :
    NextSatisfies (CodeKept s) (step s) := by
  rw [step_loop hengine hended]
  split
  · exact leaveLoop_kept .count s
  · split
    · exact leaveLoop_kept .exhausted s
    · exact exec_fetchedCode_kept s

theorem LoopEnds.kept {s x : State} {c : Caller} (h : LoopEnds s x) (hengine : s.engine = .lzw c) : CodeKept s x := by
  induction h with
  | left => rfl
  | step hended hstep _ ih =>
    have hkept := (step_loop_kept hengine hended).of_eq hstep
    exact hkept.trans (ih (hkept.engine.trans hengine))

theorem runIdle_of_idle {s : State} (n : Nat) (h : s.engine = .idle) : runIdle n s = .next s := by
  cases n with
  | zero => rfl
  | succ n => rw [runIdle, if_pos h]

/-- The steps of a run until the engine is idle: the loop, and the end of the run. -/
theorem runIdle_run {n : Nat} {s t : State} {c : Caller} (hengine : s.engine = .lzw c)
    (hrun : runIdle n s = .next t) (hidle : t.engine = .idle) : ∃ x, LoopEnds s x ∧ t = finishRun c x := by
  induction n generalizing s with
  | zero =>
    obtain rfl := Host.Outcome.next.inj hrun
    exact nomatch hengine.symm.trans hidle
  | succ n ih =>
    have hbusy : s.engine ≠ .idle := by rw [hengine]; nofun
    rw [runIdle, if_neg hbusy] at hrun
    cases hended : s.lzw.ended with
    | true =>
      rw [step_finish hengine hended] at hrun
      have hdone := runIdle_of_idle n (finishCommand_engine c (setDec (padOut (npix s) s.lzw.out) s))
      exact ⟨s, .left hended, Host.Outcome.next.inj (hrun.symm.trans hdone)⟩
    | false =>
      split at hrun
      · next u hu =>
        have hkept := (step_loop_kept hengine hended).of_eq hu
        obtain ⟨x, hloop, hx⟩ := ih (hkept.engine.trans hengine) hrun
        exact ⟨x, .step hended hu hloop, hx⟩
      · cases hrun
      · cases hrun

/-! ### The same run for another command -/

/-- The run at hand, worked for another command. -/
def forCommand (code : Byte) (c : Caller) (s : State) : State :=
  { s with host := { s.host with cmd := code }, engine := .lzw c }

/-- The next state, if there is one, changed. -/
def mapNext (f : State → State) : Answer → Answer
  | .next t => .next (f t)
  | .fault r => .fault r
  | .refused r => .refused r

theorem execData_forCommand (n : Code) (code : Byte) (c : Caller) (s : State) :
    execData n (forCommand code c s) = mapNext (forCommand code c) (execData n s) := by
  have hlzw : (forCommand code c s).lzw = s.lzw := rfl
  have hcaps : (forCommand code c s).caps = s.caps := rfl
  simp only [execData, hlzw, hcaps]
  cases s.lzw.prev with
  | none => rfl
  | some p =>
    dsimp only
    cases walk s.lzw.dict s.lzw.clear (stackRoom s.caps.stackDepth s.lzw.stack) n s.lzw.stack <;> rfl

theorem execDataKwkwk_forCommand (code : Byte) (c : Caller) (s : State) :
    execDataKwkwk (forCommand code c s) = mapNext (forCommand code c) (execDataKwkwk s) := by
  have hlzw : (forCommand code c s).lzw = s.lzw := rfl
  have hcaps : (forCommand code c s).caps = s.caps := rfl
  simp only [execDataKwkwk, hlzw, hcaps]
  cases s.lzw.prev with
  | none => rfl
  | some p =>
    dsimp only
    cases push s.caps.stackDepth s.lzw.first s.lzw.stack with
    | none => rfl
    | some st =>
      dsimp only
      cases walk s.lzw.dict s.lzw.clear (stackRoom s.caps.stackDepth st) p st <;> rfl

theorem exec_code_forCommand (q : LzwCtx) (n : Nat) (code : Byte) (c : Caller) (s : State) :
    exec (decodeCode q n) (forCommand code c s) = mapNext (forCommand code c) (exec (decodeCode q n) s) := by
  unfold decodeCode
  split
  · rfl
  · split
    · rfl
    · split
      · rfl
      · split
        · rfl
        · split
          · exact execDataKwkwk_forCommand code c s
          · exact execData_forCommand _ code c s

/-- A step of the loop does not depend on the command (R324). -/
theorem step_forCommand {s : State} {c0 : Caller} (hengine : s.engine = .lzw c0) (hended : s.lzw.ended = false)
    (code : Byte) (c : Caller) : step (forCommand code c s) = mapNext (forCommand code c) (step s) := by
  rw [step_loop hengine hended, step_loop (s := forCommand code c s) rfl hended]
  have hexec := exec_code_forCommand (lzwCtx s) (codeAt (rawReader s) s.lzw.bitpos s.lzw.cw) code c (advanceCode s)
  split
  · next hcount => rw [if_pos (show npix s ≤ s.lzw.out.length from hcount)]; rfl
  · next hcount =>
    rw [if_neg (show ¬ npix s ≤ s.lzw.out.length from hcount)]
    split
    · next hbits => rw [if_pos (show 8 * (curFrame s).rawLen - s.lzw.bitpos < s.lzw.cw from hbits)]; rfl
    · next hbits =>
      rw [if_neg (show ¬ 8 * (curFrame s).rawLen - s.lzw.bitpos < s.lzw.cw from hbits)]
      exact hexec

theorem LoopEnds.forCommand {s x : State} {c0 : Caller} (h : LoopEnds s x) (hengine : s.engine = .lzw c0)
    (code : Byte) (c : Caller) : LoopEnds (forCommand code c s) (forCommand code c x) := by
  induction h with
  | left hended => exact .left hended
  | step hended hstep _ ih =>
    have hkept := (step_loop_kept hengine hended).of_eq hstep
    refine .step hended ?_ (ih (hkept.engine.trans hengine))
    rw [step_forCommand hengine hended, hstep]
    rfl

/-! ### The remainder of a command does not see the window -/

/-- What the window shows, and the engine, replaced; the placement registers stay. -/
def withWindow (sel : OutSel) (len : Nat) (rgba : Option (List Byte)) (e : Engine) (s : State) : State :=
  { s with result := { s.result with sel := sel, len := len, rgba := rgba }, engine := e }

theorem fillDei_withWindow (sel : OutSel) (len : Nat) (rgba : Option (List Byte)) (e : Engine) (s : State) :
    fillDei (withWindow sel len rgba e s) = withWindow sel len rgba e (fillDei s) := by
  have hcur : curFrame (withWindow sel len rgba e s) = curFrame s := rfl
  unfold fillDei
  rw [hcur]
  cases (curFrame s).dei <;> rfl

theorem finishDeinterlace_withWindow (sel : OutSel) (len : Nat) (rgba : Option (List Byte)) (e : Engine) (s : State) :
    finishDeinterlace (withWindow sel len rgba e s) = finishDeinterlace s := by
  simp only [finishDeinterlace, fillDei_withWindow]
  generalize fillDei s = t
  have hcur : curFrame (withWindow sel len rgba e t) = curFrame t := rfl
  have hover : overwrite (withWindow sel len rgba e t) = overwrite t := rfl
  rw [hcur, hover]
  cases (curFrame t).dei with
  | empty => rfl
  | folded => rfl
  | valid d => cases overwrite t <;> rfl

theorem composeInto_withWindow (sel : OutSel) (len : Nat) (rgba : Option (List Byte)) (e : Engine) (s : State) :
    composeInto (composeSeq (withWindow sel len rgba e s)) (withWindow sel len rgba e s) =
      composeInto (composeSeq s) s := rfl

theorem finishCommand_withWindow (c : Caller) (sel : OutSel) (len : Nat) (rgba : Option (List Byte)) (e : Engine)
    (s : State) : finishCommand c (withWindow sel len rgba e s) = finishCommand c s := by
  cases c with
  | decode => rfl
  | deinterlace => exact finishDeinterlace_withWindow sel len rgba e s
  | compose =>
    have hcur : curFrame (withWindow sel len rgba e s) = curFrame s := rfl
    simp only [finishCommand, finishCompose, hcur, fillDei_withWindow]
    split
    · exact composeInto_withWindow ..
    · exact composeInto_withWindow ..

/-! ### The decode fill -/

/-- The byte that starts a per-frame command (R109). -/
def Caller.code : Caller → Byte
  | .decode => 0x02#8
  | .deinterlace => 0x03#8
  | .compose => 0x04#8

theorem decodeCommand_code (c : Caller) : decodeCommand c.code = c.instr := by cases c <;> rfl

/-- The state a command goes on from once its frame is decoded: as it is, or with the slot filled for an empty payload
or by a run (R132, R221, R237). -/
inductive Decodes (c : Caller) (s : State) : State → Prop where
  | full {d : List Byte} (hdec : (curFrame s).dec = some d) : Decodes c s s
  | empty (hdec : (curFrame s).dec = none) (hraw : (curFrame s).rawLen = 0) : Decodes c s (setDec [0#8] s)
  | run {x : State} (hdec : (curFrame s).dec = none) (hraw : (curFrame s).rawLen ≠ 0)
      (hloop : LoopEnds (startRun c s) x) : Decodes c s (setDec (padOut (npix x) x.lzw.out) x)

/-- The command's first answer, once its checks pass. -/
theorem fillDecoded_cases {c : Caller} {s t : State} (h : fillDecoded c s = .next t) :
    (∃ x, Decodes c s x ∧ t = finishCommand c x) ∨
      ((curFrame s).dec = none ∧ (curFrame s).rawLen ≠ 0 ∧ t = startRun c s) := by
  unfold fillDecoded at h
  split at h
  · cases h
  · split at h
    · next d hdec => exact .inl ⟨s, .full hdec, (Host.Outcome.next.inj h).symm⟩
    · next hdec =>
      split at h
      · next hraw => exact .inl ⟨_, .empty hdec hraw, (Host.Outcome.next.inj h).symm⟩
      · next hraw => exact .inr ⟨hdec, hraw, (Host.Outcome.next.inj h).symm⟩

/-- The state a command starts in: its byte in `CMD`, and no error (R130). -/
def commandStart (code : Byte) (s : State) : State := startCommand (applyWrite (.command code) s)

/-- A command that answers ends between commands, with the invariant. -/
theorem runCommand_inv {s t : State} {code : Byte} (hs : s.Inv) (hrun : runCommand code s = .next t) :
    t.Inv ∧ t.engine = .idle := by
  have hany (a : Answer) : NextSatisfies (fun _ => True) a := by cases a <;> trivial
  obtain ⟨hinv, hidle, -⟩ := (runCommand_ends hs (hany _) fun u _ _ _ => hany _).of_eq hrun
  exact ⟨hinv, hidle⟩

/-- A per-frame command whose checks pass, from its start to its end. -/
theorem runCommand_pass {c : Caller} {s t : State} (hs : s.Inv) (hcheck : usageError c s = none)
    (hrun : runCommand c.code s = .next t) : ∃ x, Decodes c (commandStart c.code s) x ∧ t = finishCommand c x := by
  obtain ⟨-, hidle⟩ := runCommand_inv hs hrun
  have hexec : exec c.instr (applyWrite (.command c.code) s) = fillDecoded c (commandStart c.code s) :=
    exec_instr_pass hcheck fun _ => (applyWrite_command_base c.code hs).dec_of_folded
  rw [runCommand, decodeCommand_code, hexec] at hrun
  split at hrun
  · next u hu =>
    obtain ⟨x, hx, rfl⟩ | ⟨hdec, hraw, rfl⟩ := fillDecoded_cases hu
    · rw [runIdle_of_idle _ (finishCommand_engine c x)] at hrun
      exact ⟨x, hx, (Host.Outcome.next.inj hrun).symm⟩
    · obtain ⟨x, hloop, rfl⟩ := runIdle_run (c := c) rfl hrun hidle
      exact ⟨_, .run hdec hraw hloop, rfl⟩
  · cases hrun
  · cases hrun

/-- A per-frame command whose check fails. -/
theorem runCommand_usage {c : Caller} {s : State} {e : ErrorName} (hcheck : usageError c s = some e) :
    runCommand c.code s = .next (raiseUsage e none (commandStart c.code s)) := by
  rw [runCommand, decodeCommand_code, exec_instr_usage (s := applyWrite (.command c.code) s) hcheck]
  exact runIdle_of_idle _ rfl

/-- What the fill leaves alone, and the counter of runs (R75, R342). -/
structure FillKept (s x : State) : Prop where
  host : x.host = s.host
  status : x.status = s.status
  err : x.err = s.err
  length : x.frames.length = s.frames.length
  runs : x.lzwRuns = s.lzwRuns ∨ x.lzwRuns = s.lzwRuns + 1#32

theorem Decodes.kept {c : Caller} {s x : State} (h : Decodes c s x) : FillKept s x := by
  cases h with
  | full => exact ⟨rfl, rfl, rfl, rfl, .inl rfl⟩
  | empty => exact ⟨rfl, rfl, rfl, by simp [setDec], .inl rfl⟩
  | run _ _ hloop =>
    have hkept := (hloop.kept (c := c) rfl).eq
    rw [hkept]
    exact ⟨rfl, rfl, rfl, by simp [setDec], .inr rfl⟩

/-- The frame is decoded, and otherwise as it was. -/
theorem Decodes.curFrame {c : Caller} {s x : State} (h : Decodes c s x) (hindex : s.host.argFrame < s.frames.length) :
    ∃ d, curFrame x = { curFrame s with dec := some d } := by
  cases h with
  | full hdec => exact ⟨_, by rw [← hdec]⟩
  | empty => exact ⟨_, curFrame_modCur _ hindex⟩
  | @run y _ _ hloop =>
    have hkept := hloop.kept (c := c) rfl
    have hcur : Machine.curFrame y = Machine.curFrame s := hkept.curFrame
    refine ⟨_, (curFrame_modCur _ ?_).trans (by rw [hcur])⟩
    rw [hkept.frames, hkept.hostSide.host]
    exact hindex

/-- A decoded frame stays as it is. -/
theorem Decodes.eq_of_dec {c : Caller} {s x : State} {d : List Byte} (h : Decodes c s x)
    (hd : (Machine.curFrame s).dec = some d) : x = s := by
  cases h with
  | full => rfl
  | empty hdec => exact nomatch hd.symm.trans hdec
  | run hdec => exact nomatch hd.symm.trans hdec

/-- Whichever command has the frame decoded, the remainder of a command finds the same (R324, D15). -/
theorem Decodes.finishCommand_eq {c c' : Caller} {code code' : Byte} {s x y : State}
    (hx : Decodes c (commandStart code s) x) (hy : Decodes c' (commandStart code' s) y) :
    finishCommand c x = finishCommand c (applyWrite (.command code) y) := by
  cases hx with
  | full hdec =>
    cases hy with
    | full => rfl
    | empty hdec' => exact nomatch hdec.symm.trans hdec'
    | run hdec' => exact nomatch hdec.symm.trans hdec'
  | empty hdec hraw =>
    cases hy with
    | full hdec' => exact nomatch hdec.symm.trans hdec'
    | empty => rfl
    | run _ hraw' => exact absurd hraw hraw'
  | run hdec hraw hloop =>
    cases hy with
    | full hdec' => exact nomatch hdec.symm.trans hdec'
    | empty _ hraw' => exact absurd hraw' hraw
    | @run z _ _ hloop' =>
      obtain rfl := hloop.unique (hloop'.forCommand (c0 := c') rfl code c)
      exact finishCommand_withWindow c z.result.sel z.result.len z.result.rgba (.lzw c)
        (applyWrite (.command code) (setDec (padOut (npix z) z.lzw.out) z))

/-! ### A command after DECODE -/

theorem commandStart_eq {s : State} (code : Byte) (h : s.NoError) :
    commandStart code s = applyWrite (.command code) s := by
  have hstatus : ({ s.status with err := false } : Status) = s.status := by rw [← h.1]
  have herr : ({ s.err with code := 0#8 } : ErrRegs) = s.err := by rw [← h.2]
  simp only [commandStart, startCommand, applyWrite, hstatus, herr]

theorem applyWrite_command_self {s : State} {code : Byte} (h : s.host.cmd = code) :
    applyWrite (.command code) s = s := by
  rw [← h]
  rfl

/-- DECODE leaves the frame decoded and no error, and shows the sequence. -/
theorem runCommand_decode {s t : State} (hs : s.Inv) (hcheck : usageError .decode s = none)
    (hrun : runCommand 0x02#8 s = .next t) :
    ∃ x d, Decodes .decode (commandStart 0x02#8 s) x ∧ t = showDec x ∧ FillKept (commandStart 0x02#8 s) x ∧
      curFrame x = { curFrame s with dec := some d } := by
  obtain ⟨x, hx, rfl⟩ := runCommand_pass (c := .decode) hs hcheck hrun
  obtain ⟨d, hd⟩ := hx.curFrame (usageError_eq_none.1 hcheck).2.1
  exact ⟨x, d, hx, rfl, hx.kept, hd⟩

/-- A command on the frame a DECODE has shown is its remainder (R132, R135). -/
theorem runCommand_after_decode {c : Caller} {s x t v : State} {d : List Byte} (hx : FillKept (commandStart 0x02#8 s) x)
    (hd : curFrame x = { curFrame s with dec := some d }) (ht : t = showDec x) (hinv : t.Inv)
    (hcheck : usageError c s = none) (hrun : runCommand c.code t = .next v) :
    v = finishCommand c (applyWrite (.command c.code) x) := by
  subst ht
  obtain ⟨hdoc, hindex, hinterlace⟩ := usageError_eq_none.1 hcheck
  have hpass : usageError c (showDec x) = none := by
    refine usageError_eq_none.2 ⟨(congrArg Status.docValid hx.status).trans hdoc, ?_, fun hc => ?_⟩
    · show x.host.argFrame < x.frames.length
      rw [hx.host, hx.length]
      exact hindex
    · show (curFrame x).interlace = true
      rw [hd]
      exact hinterlace hc
  have hclean : (showDec x).NoError := ⟨(congrArg Status.err hx.status :), (congrArg ErrRegs.code hx.err :)⟩
  obtain ⟨y, hy, rfl⟩ := runCommand_pass hinv hpass hrun
  have hdec : (curFrame (commandStart c.code (showDec x))).dec = some d := congrArg Frame.dec hd
  obtain rfl := hy.eq_of_dec hdec
  rw [commandStart_eq _ hclean]
  exact finishCommand_withWindow c .dec (decOf x).length none .idle (applyWrite (.command c.code) x)

/-- COMPOSE, and DEINTERLACE of an interlaced frame, have the checks of DECODE (R334). -/
theorem usageError_eq_decode {c : Caller} {s : State}
    (hinterlace : c = .deinterlace → ∀ f, s.frames[s.host.argFrame]? = some f → f.interlace = true) :
    usageError c s = usageError .decode s := by
  unfold usageError
  cases hcheck : checkFrame s with
  | some e => rfl
  | none =>
    obtain ⟨-, hindex⟩ := (checkFrame_eq_none s).1 hcheck
    have hpass : ¬ (c = .deinterlace ∧ (curFrame s).interlace = false) := fun ⟨hc, hno⟩ => by
      simp [hinterlace hc _ (getElem?_argFrame hindex)] at hno
    simp [hpass]

end Sys2Proof.Machine

open Sys2Proof.Machine in
/-- Settles O58: the second DECODE finds the slot full (`runCommand_after_decode`) and shows it again. -/
theorem secondDecodeDoesNotRunAgain : Obligations.SecondDecodeDoesNotRunAgain := by
  unfold Obligations.SecondDecodeDoesNotRunAgain
  intro s t u f hs _ hdoc hf ht hu
  have hcheck : usageError .decode s = none := usageError_of_frame hdoc hf nofun
  obtain ⟨x, d, -, rfl, hkept, hcur⟩ := runCommand_decode hs hcheck ht
  have hagain := runCommand_after_decode (c := .decode) hkept hcur rfl (runCommand_inv hs ht).1 hcheck hu
  rw [applyWrite_command_self (code := Caller.code .decode) (congrArg HostRegs.cmd hkept.host)] at hagain
  have hindex : x.host.argFrame < x.frames.length := by
    rw [hkept.host, hkept.length]
    exact (List.getElem?_eq_some_iff.1 hf).1
  have hframe := getElem?_argFrame hindex
  rw [hkept.host] at hframe
  have hlen : (decOf x).length = d.length := by simp [decOf, hcur]
  exact ⟨hagain, hkept.runs, curFrame x, d, hframe, congrArg Frame.dec hcur, rfl, hlen, congrArg Frame.dec hcur⟩

open Sys2Proof.Machine in
/-- Settles O60: DECODE leaves the frame as the command's own decode fill does (`Decodes.finishCommand_eq`), and the
command goes on from there (`runCommand_after_decode`); a check that fails is the same for all three. -/
theorem composeIsDecodeThenCompose : Obligations.ComposeIsDecodeThenCompose := by
  unfold Obligations.ComposeIsDecodeThenCompose
  intro s t u v code hs _ hcode ht hu hv
  obtain ⟨c, rfl, hinterlace⟩ : ∃ c : Caller, code = c.code ∧
      (c = .deinterlace → ∀ f, s.frames[s.host.argFrame]? = some f → f.interlace = true) := by
    obtain rfl | ⟨rfl, hinterlace⟩ := hcode
    · exact ⟨.compose, rfl, nofun⟩
    · exact ⟨.deinterlace, rfl, fun _ => hinterlace⟩
  have hsame := usageError_eq_decode hinterlace
  cases hcheck : usageError c s with
  | some e =>
    obtain rfl := Host.Outcome.next.inj ((runCommand_usage hcheck).symm.trans ht)
    obtain rfl := Host.Outcome.next.inj ((runCommand_usage (c := .decode) (hsame ▸ hcheck)).symm.trans hu)
    exact Host.Outcome.next.inj (hv.symm.trans (runCommand_usage hcheck))
  | none =>
    have hcheckDecode : usageError .decode s = none := hsame ▸ hcheck
    obtain ⟨x, hx, rfl⟩ := runCommand_pass hs hcheck ht
    obtain ⟨y, d, hy, rfl, hkept, hcur⟩ := runCommand_decode hs hcheckDecode hu
    rw [runCommand_after_decode hkept hcur rfl (runCommand_inv hs hu).1 hcheck hv]
    exact (hx.finishCommand_eq hy).symm
end

section
/-! PROOFS. The header items, the extensions with checked bytes, and the block-level items without a body (R161, R162,
R166, R168, R173, R177, R179, R181). -/

namespace Sys2Proof.Machine

/-! ### Packed bytes -/

/-- Three bits of a packed byte are those of its quotient (R7). -/
theorem pkField3_eq_ofNat (pk : Byte) (lo : Nat) : pkField3 pk lo = BitVec.ofNat 3 (pk.toNat / 2 ^ lo) := by
  rw [← Nat.shiftRight_eq_div_pow]
  rfl

/-! ### The signature -/

/-- The signature is bytes 0 to 5 of the input (R91, R161). -/
theorem step_sig {s : State} (hengine : s.engine = .parse .sig) :
    step s = exec (.hdrSig [inByte s 0, inByte s 1, inByte s 2, inByte s 3, inByte s 4, inByte s 5]) s := by
  have hread : itemReader .sig s = inByte s := by
    funext k
    rw [itemReader, itemBase, Nat.zero_add]
  rw [step_parse hengine, hread]
  rfl

/-- The signature: the first byte that differs is the one reported (R161). -/
theorem execHdrSig_differs {bytes : List (Option Byte)} {i : Nat} {b : Option Byte} (s : State)
    (hi : i < Config.sig.length) (hb : bytes[i]? = some b) (hsame : ∀ j, j < i → bytes[j]? = some Config.sig[j]?)
    (hdiff : b ≠ Config.sig[i]?) : execHdrSig bytes s = .next (s.afterParseError 0x10#8 i b) := by
  have hmismatch := sigMismatch_eq_some (sig := Config.sig) (bytes := bytes) (i := 0)
    (fun j hj => congrArg Option.join (hsame j hj)) hi (by rwa [hb])
  rw [hb, Nat.zero_add] at hmismatch
  rw [execHdrSig, hmismatch]
  rfl

/-! ### Tags and labels -/

/-- The label of a Graphic Control extension (R95, R97). -/
theorem decodeExtension_gce {rd : Nat → Option Byte} (h : rd 1 = some 0xF9#8) :
    decodeExtension rd = .extGce (inData rd 2) (inData rd 3) (inHalf rd 4) (inData rd 6)
      (rd (3 + (inData rd 2).toNat)) := if_pos h

/-- A label that no rule names (R95, R173). -/
theorem decodeExtension_unknown {rd : Nat → Option Byte} (hgce : rd 1 ≠ some 0xF9#8) (happ : rd 1 ≠ some 0xFF#8)
    (hcomment : rd 1 ≠ some 0xFE#8) (hptext : rd 1 ≠ some 0x01#8) : decodeExtension rd = .extUnknown (rd 1) := by
  rw [decodeExtension, if_neg hgce, if_neg happ, if_neg hcomment, if_neg hptext]

/-- The tag of the trailer (R94, R179). -/
theorem decodeBlock_trailer {rd : Nat → Option Byte} (h : rd 0 = some 0x3B#8) : decodeBlock rd = .trailer := by
  simp [decodeBlock, h]

/-- A tag that no rule names (R94, R181). -/
theorem decodeBlock_unknown {rd : Nat → Option Byte} (hext : rd 0 ≠ some 0x21#8) (himage : rd 0 ≠ some 0x2C#8)
    (htrailer : rd 0 ≠ some 0x3B#8) : decodeBlock rd = .blockUnknown (rd 0) := by
  rw [decodeBlock, if_neg hext, if_neg himage, if_neg htrailer]

/-! ### The Graphic Control extension -/

/-- With its terminator in place the extension fills the pending record (R166, R170). -/
theorem execExtGce_terminated (len pk : Byte) (delay : Half) (index : Byte) (s : State) :
    execExtGce len pk delay index (some 0#8) s =
      .next (goto (s.pos + 3 + len.toNat + 1) .block (modPend (withGce pk delay index) (preAllocate s))) := by
  rw [execExtGce, if_pos rfl]

/-- Without its terminator the record is not touched (R166). -/
theorem execExtGce_not_terminated (len pk : Byte) (delay : Half) (index : Byte) {term : Option Byte} (s : State)
    (h : term ≠ some 0#8) : execExtGce len pk delay index term s =
      .next (s.afterParseError 0x22#8 (s.pos + 3 + len.toNat) term) := if_neg h

/-! ### The loop count, in offset order (R168) -/

theorem execExtAppNs_badSize {size : Option Byte} (ident : Option Byte) (loops : Half) (term : Option Byte) (s : State)
    (hsize : size ≠ some 3#8) : execExtAppNs size ident loops term s =
      .next (s.afterParseError 0x25#8 (s.pos + 14) size) := if_pos hsize

theorem execExtAppNs_badId {ident : Option Byte} (loops : Half) (term : Option Byte) (s : State)
    (hid : ident ≠ some 1#8) : execExtAppNs (some 3#8) ident loops term s =
      .next (s.afterParseError 0x26#8 (s.pos + 15) ident) := if_pos hid

theorem execExtAppNs_not_terminated (loops : Half) {term : Option Byte} (s : State) (hterm : term ≠ some 0#8) :
    execExtAppNs (some 3#8) (some 1#8) loops term s = .next (s.afterParseError 0x27#8 (s.pos + 18) term) :=
  if_pos hterm

/-! ### The minimum code size (R177) -/

theorem execMcs_stored {b : Byte} (s : State) (hmin : 2 ≤ b.toNat) (hmax : b.toNat ≤ 8) :
    execMcs (some b) s =
      .next (goto (s.pos + 1) .imgData (modPend (fun f => { f with mcs := b.setWidth 4 }) s)) := if_pos ⟨hmin, hmax⟩

theorem execMcs_outOfRange {m : Option Byte} (s : State) (h : ∀ b, m = some b → b.toNat < 2 ∨ 8 < b.toNat) :
    execMcs m s = .next (s.afterParseError 0x28#8 s.pos m) := by
  cases m with
  | none => rfl
  | some b =>
    have hrange : ¬ (Config.mcsMin ≤ b.toNat ∧ b.toNat ≤ Config.mcsMax) := by
      have hout := h b rfl
      simp only [Config.mcsMin, Config.mcsMax]
      omega
    exact if_neg hrange

end Sys2Proof.Machine

open Sys2Proof.Machine in
/-- Settles O16: a signature that matches is evaluated; one that does not is reported by `execHdrSig_differs`. -/
theorem signatureIsCheckedByteByByte : Obligations.SignatureIsCheckedByteByByte := by
  unfold Obligations.SignatureIsCheckedByteByByte
  refine ⟨fun s => step_sig, fun s => rfl, fun s bytes i b hlength hb hsame hdiff => ?_⟩
  have hi : i < 6 := hlength ▸ (List.getElem?_eq_some_iff.1 hb).1
  exact execHdrSig_differs s hi hb hsame hdiff

open Sys2Proof.Machine in
/-- Settles O17: the fields of the packed byte are cut by `pkField3`. -/
theorem screenDescriptorIsStored : Obligations.ScreenDescriptorIsStored := by
  unfold Obligations.ScreenDescriptorIsStored
  refine fun s w h pk bg aspect => ⟨step_parse, ?_⟩
  simp only [exec, execHdrLsd, screenOf, pkField3_eq_ofNat, Nat.pow_zero, Nat.div_one]
  rfl

open Sys2Proof.Machine in
/-- Settles O19: the label selects the extension, its terminator one of two results; the record is the allocated one or
one reset by `PreAllocate`. -/
theorem graphicControlFillsThePendingRecord : Obligations.GraphicControlFillsThePendingRecord := by
  unfold Obligations.GraphicControlFillsThePendingRecord
  refine fun s len pk delay index term => ⟨fun hengine htag hlabel => ?_, fun hterm => ?_,
    execExtGce_not_terminated len pk delay index s⟩
  · rw [step_extension hengine htag, decodeExtension_gce hlabel]
    rfl
  · subst hterm
    have hpos : s.pos + 3 + len.toNat + 1 = s.pos + len.toNat + 4 := by omega
    rw [exec, execExtGce_terminated, hpos, preAllocate_eq]
    simp only [modPend, withGce, pkField3_eq_ofNat]
    cases s.pendAlloc <;> rfl

open Sys2Proof.Machine in
/-- Settles O21: one lemma for each check. -/
theorem loopCountIsCheckedInOffsetOrder : Obligations.LoopCountIsCheckedInOffsetOrder := by
  unfold Obligations.LoopCountIsCheckedInOffsetOrder
  refine fun s size ident term loops => ⟨step_netscape, fun hsize hid hterm => ?_,
    execExtAppNs_badSize ident loops term s, fun hsize hid => ?_, fun hsize hid hterm => ?_⟩
  · subst hsize hid hterm
    rfl
  · subst hsize
    exact execExtAppNs_badId loops term s hid
  · subst hsize hid
    exact execExtAppNs_not_terminated loops s hterm

open Sys2Proof.Machine in
/-- Settles O26: a byte that none of the tags or labels is falls through the dispatch. -/
theorem unknownTagsAndLabelsFail : Obligations.UnknownTagsAndLabelsFail := by
  unfold Obligations.UnknownTagsAndLabelsFail
  refine fun s b => ⟨fun hengine => ⟨?_, ?_⟩, rfl, rfl⟩
  · rintro htag rfl hgce happ hcomment hptext
    rw [step_extension hengine htag, decodeExtension_unknown hgce happ hcomment hptext]
    rfl
  · rintro rfl hext himage htrailer
    rw [step_parse hengine]
    exact congrArg (exec · s) (decodeBlock_unknown (rd := itemReader .block s) hext himage htrailer)

open Sys2Proof.Machine in
/-- Settles O28: one lemma for a size in range and one for any other byte. -/
theorem minimumCodeSizeIsTwoToEight : Obligations.MinimumCodeSizeIsTwoToEight := by
  unfold Obligations.MinimumCodeSizeIsTwoToEight
  refine fun s m => ⟨step_parse, ?_, execMcs_outOfRange s⟩
  rintro b rfl hmin hmax
  rw [exec, execMcs_stored s hmin hmax, ← BitVec.ofNat_toNat]
  rfl

open Sys2Proof.Machine in
/-- Settles O29: the tag selects the trailer, whose meaning is the state written out. -/
theorem trailerEndsTheParse : Obligations.TrailerEndsTheParse := by
  unfold Obligations.TrailerEndsTheParse
  refine fun s => ⟨fun hengine htag => ?_, rfl⟩
  rw [step_parse hengine]
  exact congrArg (exec · s) (decodeBlock_trailer (rd := itemReader .block s) htag)
end

section
/-! PROOFS. One sub-block of either kind of chain, and the chain of image data walked over whole and cut chains (R174,
R178, R180, R333). -/

namespace Sys2Proof.Machine

/-! ### The next instruction of a chain -/

theorem step_chain_absent {s : State} {k : ChainKind} (hengine : s.engine = .parse (.chain k))
    (habsent : inByte s (chainAt k s.pos) = none) : step s = exec (.subblock none) s := by
  rw [step_parse hengine]
  exact congrArg (exec · s) (decodeChain_absent (rd := itemReader (.chain k) s) habsent)

theorem step_chain_end {s : State} {k : ChainKind} (hengine : s.engine = .parse (.chain k))
    (hend : inByte s (chainAt k s.pos) = some 0#8) : step s = exec .subblockEnd s := by
  rw [step_parse hengine]
  exact congrArg (exec · s) (decodeChain_end (rd := itemReader (.chain k) s) hend)

theorem step_chain_subblock {s : State} {k : ChainKind} (hengine : s.engine = .parse (.chain k)) {n : Byte}
    (hn : n ≠ 0#8) (hlen : inByte s (chainAt k s.pos) = some n) :
    step s = exec (.subblock (some (inBytes (itemReader (.chain k) s) 1 n.toNat))) s := by
  rw [step_parse hengine]
  exact congrArg (exec · s) (decodeChain_subblock (rd := itemReader (.chain k) s) hlen hn)

/-! ### The meaning of a sub-block and of the end, by the kind of chain -/

/-- A length byte that is not there is an error at its offset, in either kind of chain (R333). -/
theorem execSubblock_none {s : State} {k : ChainKind} (hengine : s.engine = .parse (.chain k)) :
    execSubblock none s = .next (s.afterParseError 0x23#8 (chainAt k s.pos) none) := by
  simp only [execSubblock, chainKind_of hengine]
  rfl

theorem execSubblock_skip {s : State} {c : Nat} (hengine : s.engine = .parse (.chain (.skip c))) (d : List Byte) :
    execSubblock (some d) s = .next (skipFrom (c + 1 + d.length) s) := by
  simp only [execSubblock, chainKind_of hengine]

theorem execSubblockEnd_skip {s : State} {c : Nat} (hengine : s.engine = .parse (.chain (.skip c))) :
    execSubblockEnd s = .next (goto (c + 1) .block s) := by
  simp only [execSubblockEnd, chainKind_of hengine]

/-- The state after `n` more bytes of an image's chain, with their data appended to `RAW` (R178). -/
def readImage (n : Nat) (d : List Byte) (s : State) : State :=
  { s with pos := s.pos + n, pendRec := { s.pendRec with raw := s.pendRec.raw ++ d } }

theorem readImage_zero (s : State) : readImage 0 [] s = s := by
  rw [readImage, List.append_nil, Nat.add_zero]

theorem readImage_readImage (n m : Nat) (d e : List Byte) (s : State) :
    readImage m e (readImage n d s) = readImage (n + m) (d ++ e) s := by
  simp only [readImage, List.append_assoc, Nat.add_assoc]

theorem execSubblock_image {s : State} (hengine : s.engine = .parse (.chain .image)) (d : List Byte) :
    execSubblock (some d) s =
      if Config.fits s.caps.raw (rawTotal s + d.length) then .next (readImage (1 + d.length) d s)
      else .refused .rawCapacity := by
  simp only [execSubblock, chainKind_of hengine, goto, modPend, ← hengine, readImage, Nat.add_assoc]

theorem execSubblockEnd_image {s : State} (hengine : s.engine = .parse (.chain .image)) :
    execSubblockEnd s =
      if Config.fits s.caps.frames (s.frames.length + 1) then .next (goto (s.pos + 1) .block (commitFrame (endRaw s)))
      else .refused .frameCapacity := by
  simp only [execSubblockEnd, chainKind_of hengine]

/-! ### Sub-blocks in the input, whatever follows them -/

/-- The input has the length byte of each of these sub-blocks, and their data, counting bytes that are not there as 0
(R65, R174): what a whole chain and one the input cuts have in common. -/
def HoldsBlocks (rd : Nat → Option Byte) : Nat → List (List Byte) → Prop
  | _, [] => True
  | o, b :: rest =>
    rd o = some (BitVec.ofNat 8 b.length) ∧
    (∀ k, k < b.length → inData rd (o + 1 + k) = b[k]?.getD 0#8) ∧ HoldsBlocks rd (o + 1 + b.length) rest

theorem blocksSize_cons (b : List Byte) (rest : List (List Byte)) :
    blocksSize (b :: rest) = 1 + b.length + blocksSize rest := by
  simp only [blocksSize, List.map_cons, List.sum_cons]
  omega

theorem chainOf_length (blocks : List (List Byte)) : (chainOf blocks).length = blocksSize blocks + 1 := by
  induction blocks with
  | nil => rfl
  | cons b rest ih =>
    rw [chainOf_cons, List.length_cons, List.length_append, ih, blocksSize_cons]
    omega

/-- A whole chain has its sub-blocks, and the terminator after them (R101). -/
theorem State.Holds.blocks_and_end {s : State} {o : Nat} {blocks : List (List Byte)} (h : s.Holds o (chainOf blocks)) :
    HoldsBlocks (inByte s) o blocks ∧ inByte s (o + blocksSize blocks) = some 0#8 := by
  induction blocks generalizing o with
  | nil => exact ⟨trivial, h.head⟩
  | cons b rest ih =>
    obtain ⟨hrest, hend⟩ := ih h.chainOf_tail
    rw [chainOf_cons] at h
    refine ⟨⟨h.head, fun k hk => ?_, hrest⟩, ?_⟩
    · have hbyte := h (1 + k) (by simp; omega)
      rw [← Nat.add_assoc, Nat.add_comm 1 k, List.getElem?_cons_succ, List.getElem?_append_left hk] at hbyte
      rw [inData, hbyte]
    · rw [blocksSize_cons, ← Nat.add_assoc, ← Nat.add_assoc]
      exact hend

/-- A chain the input cuts has its sub-blocks, and no length byte after them (R174, R182). -/
theorem State.HoldsCut.blocks_and_absent {s : State} {o : Nat} {blocks : List (List Byte)} (h : s.HoldsCut o blocks) :
    HoldsBlocks (inByte s) o blocks ∧ inByte s (o + blocksSize blocks) = none := by
  induction blocks generalizing o with
  | nil => exact ⟨trivial, inByte_eq_none h⟩
  | cons b rest ih =>
    obtain ⟨hlen, hdata, htail⟩ := h
    obtain ⟨hrest, habsent⟩ := ih htail
    refine ⟨⟨hlen, hdata, hrest⟩, ?_⟩
    rw [blocksSize_cons, ← Nat.add_assoc, ← Nat.add_assoc]
    exact habsent

/-- Unchecked reads of a list's length are the list when each byte is the list's (R65). -/
theorem inBytes_eq_of_inData {rd : Nat → Option Byte} {o : Nat} {b : List Byte}
    (h : ∀ k, k < b.length → inData rd (o + k) = b[k]?.getD 0#8) : inBytes rd o b.length = b := by
  refine List.ext_getElem (inBytes_length ..) fun k _ hk => ?_
  simp [inBytes, h k hk, hk]

/-! ### The chain of image data walked -/

/-- The first sub-block of an image's chain is appended to `RAW`, and `POS` moves past it (R178). -/
theorem step_image_subblock {s : State} {b : List Byte} {rest : List (List Byte)}
    (hengine : s.engine = .parse (.chain .image)) (hb : 1 ≤ b.length ∧ b.length ≤ 255)
    (hblocks : HoldsBlocks (inByte s) s.pos (b :: rest))
    (hraw : Config.fits s.caps.raw (rawTotal s + b.length) = true) :
    step s = .next (readImage (1 + b.length) b s) := by
  obtain ⟨htoNat, hne⟩ := subblock_lengthByte hb
  obtain ⟨hlen, hdata, -⟩ := hblocks
  have hbytes : inBytes (itemReader (.chain .image) s) 1 b.length = b :=
    inBytes_eq_of_inData fun k hk => by
      rw [← hdata k hk, Nat.add_assoc]
      rfl
  rw [step_chain_subblock hengine hne hlen, htoNat, hbytes, exec, execSubblock_image hengine, if_pos hraw]

/-- The sub-blocks of an image's chain are concatenated within `RAW_CAPACITY`, whatever follows them (R178, R6). -/
theorem imageBlocks_read {s t : State} {blocks : List (List Byte)} {m : Nat} (hok : SubblocksOk blocks)
    (hengine : s.engine = .parse (.chain .image)) (hblocks : HoldsBlocks (inByte s) s.pos blocks)
    (hraw : blocks ≠ [] → Config.fits s.caps.raw (rawTotal s + blocks.flatten.length) = true)
    (hrest : runsTo m (readImage (blocksSize blocks) blocks.flatten s) t) : runsTo (blocks.length + m) s t := by
  induction blocks generalizing s with
  | nil =>
    rw [List.length_nil, Nat.zero_add]
    exact readImage_zero s ▸ hrest
  | cons b rest ih =>
    obtain ⟨hb, hok⟩ := List.forall_mem_cons.1 hok
    have hfits := hraw (List.cons_ne_nil b rest)
    rw [List.flatten_cons, List.length_append, ← Nat.add_assoc] at hfits
    have hstep := step_image_subblock hengine hb hblocks (fits_mono hfits (Nat.le_add_right ..))
    obtain ⟨-, -, htail⟩ := hblocks
    have htotal : rawTotal (readImage (1 + b.length) b s) = rawTotal s + b.length := by
      simp [rawTotal, readImage, Nat.add_assoc]
    rw [List.length_cons, Nat.succ_add]
    refine runsTo_succ hstep (ih hok hengine ?_ (fun _ => htotal ▸ hfits) ?_)
    · rw [Nat.add_assoc] at htail
      exact htail
    · rw [readImage_readImage, ← blocksSize_cons, ← List.flatten_cons]
      exact hrest

/-- The state image data is read from: `RAW` is empty and its chain starts at `POS` (R178). -/
def startImage (s : State) : State := goto s.pos (.chain .image) (modPend (fun f => { f with raw := [] }) s)

/-- The image data instruction, and the sub-blocks after it (R178). -/
theorem imageData_read {s t : State} {blocks : List (List Byte)} {m : Nat} (hok : SubblocksOk blocks)
    (hengine : s.engine = .parse .imgData) (hblocks : HoldsBlocks (inByte s) s.pos blocks)
    (hraw : blocks ≠ [] →
      Config.fits s.caps.raw ((s.frames.map fun f => f.raw.length).sum + blocks.flatten.length) = true)
    (hrest : runsTo m (readImage (blocksSize blocks) blocks.flatten (startImage s)) t) :
    runsTo (blocks.length + m + 1) s t := by
  have hstart : step s = .next (startImage s) := step_parse hengine
  exact runsTo_succ hstart (imageBlocks_read (s := startImage s) hok rfl hblocks hraw hrest)

theorem readImage_startImage (n : Nat) (d : List Byte) (s : State) : readImage n d (startImage s) = { s with
    pos := s.pos + n, pendRec := { s.pendRec with raw := d }, engine := .parse (.chain .image) } := rfl

/-- The frame of the image data read joins the frame table, with its `RAW_LEN` (R178, R180). -/
theorem commitFrame_readImage (n : Nat) (d : List Byte) (s : State) :
    goto (s.pos + n + 1) .block (commitFrame (endRaw (readImage n d (startImage s)))) = { s with
      pos := s.pos + n + 1
      pendRec := { s.pendRec with raw := d, rawLen := d.length }
      frames := s.frames ++ [{ s.pendRec with raw := d, rawLen := d.length }]
      pendAlloc := false
      engine := .parse .block } := by
  rw [readImage_startImage]
  rfl

/-- The end of an image's chain completes the frame (R178, R180). -/
theorem step_image_end {s : State} (hengine : s.engine = .parse (.chain .image)) (hend : inByte s s.pos = some 0#8)
    (hframes : Config.fits s.caps.frames (s.frames.length + 1) = true) :
    step s = .next (goto (s.pos + 1) .block (commitFrame (endRaw s))) := by
  rw [step_chain_end hengine hend, exec, execSubblockEnd_image hengine, if_pos hframes]

end Sys2Proof.Machine

open Sys2Proof.Machine in
/-- Settles O23: one lemma for each kind of chain and each of its two items; the length byte tells them apart. -/
theorem subblocksMoveTheCursor : Obligations.SubblocksMoveTheCursor := by
  unfold Obligations.SubblocksMoveTheCursor
  refine fun s d => ⟨fun c hengine => ?_, fun hengine => ?_⟩
  · exact ⟨step_chain_absent hengine, step_chain_end hengine, fun n => step_chain_subblock hengine,
      execSubblock_none hengine, execSubblock_skip hengine d, execSubblockEnd_skip hengine⟩
  · refine ⟨step_chain_absent hengine, step_chain_end hengine, fun n => step_chain_subblock hengine,
      execSubblock_none hengine, ?_, execSubblockEnd_image hengine⟩
    rw [exec, execSubblock_image hengine, readImage, ← Nat.add_assoc]
    rfl

open Sys2Proof.Machine in
/-- Settles O25: the sub-blocks are read by induction on them (`imageBlocks_read`); then the terminator commits the
frame, or the length byte that is not there is the error. -/
theorem imageChainConcatenatesAndCommits : Obligations.ImageChainConcatenatesAndCommits := by
  unfold Obligations.ImageChainConcatenatesAndCommits
  refine fun s blocks hok hengine hraw => ⟨fun hholds hframes => ?_, fun hcut => ?_⟩
  · obtain ⟨hblocks, hend⟩ := hholds.blocks_and_end
    rw [chainOf_length, ← Nat.add_assoc]
    have hstep := step_image_end (s := readImage (blocksSize blocks) blocks.flatten (startImage s)) rfl hend hframes
    rw [← commitFrame_readImage]
    exact imageData_read hok hengine hblocks hraw (runsTo_succ hstep (runsTo_zero _))
  · obtain ⟨hblocks, habsent⟩ := hcut.blocks_and_absent
    have hengine' : (readImage (blocksSize blocks) blocks.flatten (startImage s)).engine = .parse (.chain .image) := rfl
    have hstep := (step_chain_absent hengine' habsent).trans (execSubblock_none hengine')
    exact imageData_read hok hengine hblocks hraw (runsTo_succ hstep (runsTo_zero _))
end

section
/-! PROOFS. A step keeps the invariant of the machine (`step_inv`) and the capacities. -/

namespace Sys2Proof.Machine

/-- No step changes the capacities (R6, log 12). -/
theorem step_caps (s : State) : NextSatisfies (fun t => t.caps = s.caps) (step s) := by
  have hexec (i : Instr) (u : State) (hcaps : u.caps = s.caps) : NextSatisfies (fun t => t.caps = s.caps) (exec i u) :=
    (exec_kept i u).mono fun t ht => ht.hostSide.caps.trans hcaps
  obtain ⟨-, -, h⟩ | ⟨w, q, -, -, -, h⟩ | ⟨code, q, -, -, h⟩ | ⟨ph, -, h⟩ | ⟨c, -, -, h⟩ | ⟨c, -, -, -, h⟩ |
    ⟨c, -, -, -, -, h⟩ | ⟨c, -, -, -, -, h⟩ := step_cases s <;> rw [h]
  · rfl
  · exact NextSatisfies.next (by cases w <;> rfl)
  · exact hexec _ _ rfl
  · exact hexec _ _ rfl
  · exact (finishCommand_commandKept c (setDec (padOut (npix s) s.lzw.out) s)).caps
  · rfl
  · rfl
  · exact hexec _ _ rfl

end Sys2Proof.Machine

open Sys2Proof.Machine in
/-- Settles O54: every place of the three streams keeps the invariant (`step_inv`), and nothing writes the capacities
(`step_caps`). -/
theorem stepKeepsTheInvariant : Obligations.StepKeepsTheInvariant := by
  unfold Obligations.StepKeepsTheInvariant
  intro s t hs hstep
  exact ⟨(step_inv hs).of_eq hstep, (step_caps s).of_eq hstep⟩
end

section
/-! PROOFS. The accumulator form of the fetch (R240): the accumulator holds the unread bits of the bytes loaded, as one
code; a load appends a byte to it, a fetch splits it. -/

namespace Sys2Proof.Machine

/-! ### Codes split and joined -/

/-- A code of `n + m` bits is one of `n` bits, and above it the `m` bits that follow (R67). -/
theorem codeAt_add (rd : Nat → Option Byte) (b n m : Nat) :
    codeAt rd b (n + m) = codeAt rd b n + 2 ^ n * codeAt rd (b + n) m := by
  induction m with
  | zero => simp [codeAt]
  | succ m ih =>
    rw [← Nat.add_assoc, codeAt, ih, codeAt, Nat.add_assoc b, Nat.pow_add]
    ring

/-- The eight bits at a byte's offset are the byte (R67). -/
theorem codeAt_byte {rd : Nat → Option Byte} {i : Nat} {b : Byte} (h : rd i = some b) :
    codeAt rd (8 * i) 8 = b.toNat := by
  refine Nat.eq_of_testBit_eq fun k => ?_
  by_cases hk : k < 8
  · have hdiv : (8 * i + k) / 8 = i := by omega
    have hmod : (8 * i + k) % 8 = k := by omega
    rw [testBit_codeAt rd _ hk, hdiv, hmod, inData, h]
    rfl
  · have hpow : 2 ^ 8 ≤ 2 ^ k := Nat.pow_le_pow_right Nat.two_pos (by omega)
    rw [Nat.testBit_lt_two_pow (Nat.lt_of_lt_of_le (codeAt_lt rd _ 8) hpow),
      Nat.testBit_lt_two_pow (Nat.lt_of_lt_of_le b.isLt hpow)]

/-! ### The accumulator between loads -/

/-- `Accum.At` without its bound on `NBITS`, which does not hold between a load and the end of a fetch. -/
structure Accum.Unread (raw : List Byte) (bitpos : Nat) (a : Accum) : Prop where
  inside : a.bi ≤ raw.length
  offset : bitpos + a.nbits = 8 * a.bi
  datum : a.datum = codeAt (fun k => raw[k]?) bitpos a.nbits

theorem Accum.At.unread {raw : List Byte} {bitpos : Nat} {a : Accum} (h : a.At raw bitpos) : a.Unread raw bitpos :=
  ⟨h.inside, h.offset, h.datum⟩

/-- The accumulator after a load: the byte stands above the bits that are there. -/
def Accum.load (b : Byte) (a : Accum) : Accum := ⟨a.datum + b.toNat * 2 ^ a.nbits, a.nbits + 8, a.bi + 1⟩

theorem Accum.Unread.load {raw : List Byte} {bitpos : Nat} {a : Accum} {b : Byte} (h : a.Unread raw bitpos)
    (hb : raw[a.bi]? = some b) : (a.load b).Unread raw bitpos where
  inside := (List.getElem?_eq_some_iff.1 hb).1
  offset := by
    have := h.offset
    simp only [Accum.load]
    omega
  datum := by
    simp only [Accum.load]
    rw [codeAt_add, h.offset, codeAt_byte (rd := fun k => raw[k]?) hb, h.datum, Nat.mul_comm]

/-! ### The inner loop -/

theorem accFill_succ (raw : List Byte) (cw n : Nat) (a : Accum) :
    accFill raw cw (n + 1) a =
      if a.nbits < cw then raw[a.bi]?.elim none fun b => accFill raw cw n (a.load b) else some a := by
  rw [accFill]
  cases raw[a.bi]? <;> rfl

/-- A fill that ends has the bits of a code, and at most seven more unless it loaded nothing. -/
theorem accFill_unread {raw : List Byte} {bitpos cw n : Nat} {a f : Accum} (ha : a.Unread raw bitpos)
    (h : accFill raw cw n a = some f) : f.Unread raw bitpos ∧ cw ≤ f.nbits ∧ f.nbits ≤ max a.nbits (cw + 7) := by
  induction n generalizing a with
  | zero => cases h
  | succ n ih =>
    rw [accFill_succ] at h
    split at h
    · next hfew =>
      cases hb : raw[a.bi]? with
      | none => simp [hb] at h
      | some b =>
        rw [hb] at h
        obtain ⟨hf, hlo, hhi⟩ := ih (ha.load hb) h
        simp only [Accum.load] at hhi
        exact ⟨hf, hlo, by omega⟩
    · next henough =>
      obtain rfl := Option.some.inj h
      exact ⟨ha, by omega, by omega⟩

/-- A fill ends if the payload has the bits of a code and the rounds are enough for the loads. -/
theorem accFill_isSome {raw : List Byte} {bitpos cw n : Nat} {a : Accum} (ha : a.Unread raw bitpos)
    (hbits : bitpos + cw ≤ 8 * raw.length) (hrounds : cw ≤ a.nbits + 8 * n) :
    ∃ f, accFill raw cw (n + 1) a = some f := by
  induction n generalizing a with
  | zero => exact ⟨a, by rw [accFill_succ, if_neg (by omega)]⟩
  | succ n ih =>
    rw [accFill_succ]
    split
    · next hfew =>
      have hoffset := ha.offset
      have hbi : a.bi < raw.length := by omega
      have hb := List.getElem?_eq_getElem hbi
      rw [hb]
      exact ih (ha.load hb) (by simp only [Accum.load]; omega)
    · exact ⟨a, rfl⟩

/-! ### The fetch -/

/-- The low bits of the accumulator are the code; the others are the unread bits after it. -/
theorem Accum.Unread.split {raw : List Byte} {bitpos cw : Nat} {f : Accum} (hf : f.Unread raw bitpos)
    (hcw : cw ≤ f.nbits) :
    f.datum % 2 ^ cw = codeAt (fun k => raw[k]?) bitpos cw ∧
      Accum.Unread raw (bitpos + cw) ⟨f.datum / 2 ^ cw, f.nbits - cw, f.bi⟩ := by
  obtain ⟨hinside, hoffset, hdatum⟩ := hf
  have hlt := codeAt_lt (fun k => raw[k]?) bitpos cw
  have hsplit := codeAt_add (fun k => raw[k]?) bitpos cw (f.nbits - cw)
  rw [Nat.add_sub_cancel' hcw, ← hdatum] at hsplit
  refine ⟨?_, hinside, ?_, ?_⟩
  · rw [hsplit, Nat.add_mul_mod_self_left, Nat.mod_eq_of_lt hlt]
  · simp only
    omega
  · simp only
    rw [hsplit, Nat.add_mul_div_left _ _ (Nat.two_pow_pos cw), Nat.div_eq_of_lt hlt, Nat.zero_add]

end Sys2Proof.Machine

open Sys2Proof.Machine in
/-- Settles O5: a fill that ends has the bits of a code (`accFill_unread`), so it does not end when they are not there;
when they are, two loads suffice (`accFill_isSome`), and the fetch splits what it holds (`Accum.Unread.split`). -/
theorem accumulatorFormFetchesTheSameCode : Obligations.AccumulatorFormFetchesTheSameCode := by
  unfold Obligations.AccumulatorFormFetchesTheSameCode
  refine ⟨fun raw => ⟨Nat.zero_le _, Nat.zero_le _, rfl, rfl⟩, fun raw bitpos cw a ha hcw3 hcw12 => ?_⟩
  have hsmall := ha.small
  refine ⟨fun hfew => ?_, fun hbits => ?_⟩
  · cases hfill : accFill raw cw 3 a with
    | none => rw [accFetch, hfill]
    | some f =>
      obtain ⟨⟨hinside, hoffset, -⟩, hlo, -⟩ := accFill_unread ha.unread hfill
      omega
  · obtain ⟨f, hfill⟩ := accFill_isSome (n := 2) ha.unread (by omega : bitpos + cw ≤ 8 * raw.length) (by omega)
    obtain ⟨hf, hlo, hhi⟩ := accFill_unread ha.unread hfill
    obtain ⟨hcode, hrest⟩ := hf.split hlo
    refine ⟨f, _, hfill, by omega, ?_, by rw [accFetch, hfill, ← hcode],
      hrest.inside, by simp only; omega, hrest.offset, hrest.datum⟩
    rw [hf.datum]
    exact Nat.lt_of_lt_of_le (codeAt_lt ..) (Nat.pow_le_pow_right Nat.two_pos (by omega))
end

section
/-! PROOFS. The strings of codes: what a walk pushes, said once for the two data codes (R231 to R233, R241, R243); the
dictionary add and the emission (R234 to R236, R239). -/

namespace Sys2Proof.Machine

/-! ### The string of a code -/

/-- `str` is the string of `c`, with the root the walk from `c` ends at: of root pixels, the root's on top, no longer
than the distance from `CLEAR` (R233, R243). -/
structure CodeString (d : Dict) (clear : Nat) (c root : Code) (str : List Byte) : Prop where
  spells : Spells d clear c str
  head : str.headD 0#8 = rootPixel root
  lengthLo : 1 ≤ str.length
  lengthHi : str.length ≤ max 1 (c.toNat - clear)
  pixels : ∀ v ∈ str, v.toNat < clear
  /-- a walk needs the room of the string, and pushes it -/
  walk : ∀ n st, walk d clear n c st = if str.length ≤ n then some (root, str ++ st) else none

/-- Every code a walk can start from has a string. -/
theorem exists_codeString {d : Dict} {clear avail : Nat} {c : Code} (hd : d.Ok clear avail)
    (hc : CodeOk clear avail c) : ∃ root str, CodeString d clear c root str := by
  have hlt := c.isLt
  obtain ⟨root, str, hwalk, -, hpixels, hhead, hlen⟩ := walk_ok hd (n := Config.maxCodes) [] hc (by decide)
    (Nat.le_trans (Nat.sub_le _ _) (Nat.le_of_lt hlt))
  rw [List.append_nil] at hwalk
  obtain ⟨k, hk, hroom⟩ := walk_room hwalk
  obtain rfl : str.length = k := hk
  refine ⟨root, str, walk_spells hd hc hwalk, by rw [List.headD_eq_head?_getD, hhead]; rfl,
    Nat.pos_of_ne_zero fun h => ?_, hlen, hpixels, fun n st => ?_⟩
  · rw [List.length_eq_zero_iff.1 h] at hhead
    cases hhead
  · rw [← List.nil_append st, walk_append, hroom]
    split <;> rfl

/-- A walk that ends, ends at the root of the code's string. -/
theorem CodeString.root_of_walk {d : Dict} {clear n : Nat} {c root root' : Code} {str str' st : List Byte}
    (h : CodeString d clear c root str) (hwalk : Machine.walk d clear n c st = some (root', str')) : root' = root := by
  rw [h.walk, Option.ite_none_right_eq_some] at hwalk
  exact (congrArg Prod.fst (Option.some.inj hwalk.2)).symm

/-- `FIRST` is the first pixel of the string of the previous code (R241, 6). -/
theorem Lzw.Ok.first_eq {l : Lzw} {mcs rawLen n : Nat} (hl : l.Ok mcs rawLen n) {p root : Code} {str : List Byte}
    (hp : l.prev = some p) (h : CodeString l.dict l.clear p root str) : l.first = rootPixel root := by
  obtain ⟨-, -, -, root', str', hwalk, -, hfirst⟩ := hl.prev p hp
  rw [hfirst, h.root_of_walk hwalk]

/-! ### Data codes -/

/-- DATA: the string is pushed if the stack takes it (R231, R6). -/
theorem exec_data_eq {s : State} {p code root : Code} {str : List Byte} (hprev : s.lzw.prev = some p)
    (hstack : s.lzw.stack = []) (h : CodeString s.lzw.dict s.lzw.clear code root str) :
    exec (.data code) s =
      if str.length ≤ s.caps.stackDepth then .next (modLzw (finishData (npix s) p code root str) s)
      else .refused .stackDepth := by
  by_cases hroom : str.length ≤ s.caps.stackDepth <;> simp [exec, execData, hprev, hstack, stackRoom, h.walk, hroom]

/-- DATA_KWKWK: `FIRST` is pushed, and on it the string of the previous code (R232, R6). -/
theorem exec_dataKwkwk_eq {s : State} {p root : Code} {str : List Byte} (hprev : s.lzw.prev = some p)
    (hstack : s.lzw.stack = []) (h : CodeString s.lzw.dict s.lzw.clear p root str) :
    exec .dataKwkwk s =
      if str.length + 1 ≤ s.caps.stackDepth then
        .next (modLzw (finishData (npix s) p (BitVec.ofNat 12 s.lzw.avail) root (str ++ [s.lzw.first])) s)
      else .refused .stackDepth := by
  have hpos := h.lengthLo
  by_cases hroom : str.length + 1 ≤ s.caps.stackDepth
  · have hpush : 0 < s.caps.stackDepth := by omega
    have hwalk : str.length ≤ s.caps.stackDepth - 1 := by omega
    simp [exec, execDataKwkwk, hprev, hstack, push, stackRoom, h.walk, hpush, hwalk, hroom]
  · have hwalk : ¬ str.length ≤ s.caps.stackDepth - 1 := by omega
    by_cases hpush : 0 < s.caps.stackDepth
    · simp [exec, execDataKwkwk, hprev, hstack, push, stackRoom, h.walk, hpush, hwalk, hroom]
    · simp [exec, execDataKwkwk, hprev, hstack, push, hpush, hroom]

/-! ### The dictionary add and the emission -/

/-- A read of the dictionary after a write to it. -/
theorem Dict.read_write (d : Dict) (a k : Nat) (e : DictEntry) :
    (d.write a e).read k = if k = a then e else d.read k := by
  unfold Dict.read Dict.write
  split
  · next h => rw [h, sparseGet_set_self, Option.getD_some]
  · next h => rw [sparseGet_set_ne d e h]

/-- The entry just added spells the string of the code before it, and its suffix (R232, R241). -/
theorem Spells.write_self {d : Dict} {clear avail : Nat} {p c : Code} {str : List Byte} {v : Byte}
    (hd : d.Ok clear avail) (hp : CodeOk clear avail p) (h : Spells d clear p str) (hc : c.toNat = avail)
    (havail : clear < avail) : Spells (d.write avail ⟨p, v⟩) clear c (str ++ [v]) :=
  .entry c ⟨p, v⟩ str (hc ▸ havail) (hc ▸ sparseGet_set_self _ _ _) (h.write hd _ hp)

/-- An add writes the dictionary, the pointer and the width (R234, R235). -/
theorem addEntry_eq (p : Code) (v : Byte) (l : Lzw) : addEntry p v l =
    { l with dict := (addEntry p v l).dict, avail := (addEntry p v l).avail, cw := (addEntry p v l).cw } := by
  unfold addEntry growWidth
  split
  · split <;> rfl
  · rfl

/-- The end of a data code while there is room: the entry is added (R231, R232, R234 to R236). -/
theorem finishData_of_room {l : Lzw} (hroom : l.avail < Config.maxCodes) (n : Nat) (prev code root : Code)
    (st : List Byte) : finishData n prev code root st l = { l with
      out := l.out ++ st.take (n - l.out.length)
      stack := []
      first := rootPixel root
      prev := some code
      dict := l.dict.write l.avail ⟨prev, rootPixel root⟩
      avail := l.avail + 1
      cw := if l.avail + 1 = 2 ^ l.cw ∧ l.cw < Config.maxWidth then l.cw + 1 else l.cw } := by
  rw [finishData_eq]
  simp only [hroom, if_true, true_and]

/-- The stack is popped from its top while there is room (R236). -/
theorem emitStack_eq (n : Nat) (l : Lzw) :
    emitStack n l = { l with out := l.out ++ l.stack.take (n - l.out.length), stack := [] } := by
  rw [emitStack, emitAll_eq]

end Sys2Proof.Machine

open Sys2Proof.Machine in
/-- Settles O36: the string is the code's (`exists_codeString`), `exec_data_eq` says when the stack takes it, and
`finishData_eq` what is then written. -/
theorem dataCodeEmitsItsString : Obligations.DataCodeEmitsItsString := by
  unfold Obligations.DataCodeEmitsItsString
  intro s m len p code hm2 _ hl hp hlt hclear heoi
  have heoiVal := hl.eoi
  have hcode : CodeOk s.lzw.clear s.lzw.avail code := by unfold CodeOk; omega
  obtain ⟨root, str, hstr⟩ := exists_codeString hl.dict hcode
  have hlen := hstr.lengthHi
  have hclearLo := hl.four_le_clear hm2
  have hexec := exec_data_eq hp hl.stack hstr
  refine ⟨str, hstr.spells, by omega, fun hroom => ?_, fun hfull => ?_⟩
  · rw [hexec, if_pos hroom, hstr.head]
    exact congrArg (fun l => Host.Outcome.next { s with lzw := l }) (finishData_eq ..)
  · rw [hexec, if_neg (Nat.not_le.2 hfull)]

open Sys2Proof.Machine in
/-- Settles O37: the string is the previous code's, and `FIRST` its first pixel (`Lzw.Ok.first_eq`); `exec_dataKwkwk_eq`
says when the stack takes them, and `Spells.write_self` what the new entry spells. -/
theorem kwkwkCodeRepeatsTheFirstPixel : Obligations.KwkwkCodeRepeatsTheFirstPixel := by
  unfold Obligations.KwkwkCodeRepeatsTheFirstPixel
  intro s m len p hm2 _ hl hp havail
  have hprev := hl.prev_codeOk hp
  obtain ⟨hplt, -⟩ := hl.prev p hp
  obtain ⟨root, str, hstr⟩ := exists_codeString hl.dict hprev
  have hlen := hstr.lengthHi
  have hclearLo := hl.four_le_clear hm2
  have habove : s.lzw.clear < s.lzw.avail := Nat.lt_of_lt_of_le (by omega) hl.availLo
  have hexec := exec_dataKwkwk_eq hp hl.stack hstr
  rw [hl.first_eq hp hstr] at hexec
  refine ⟨str, hstr.spells, by omega, fun hroom => ⟨_, by rw [hexec, if_pos hroom], ?_, ?_⟩, fun hfull => ?_⟩
  · rw [hstr.head, modLzw, finishData_of_room havail]
    rfl
  · rw [hstr.head, modLzw, finishData_of_room havail]
    exact hstr.spells.write_self hl.dict hprev (Nat.mod_eq_of_lt havail) habove
  · rw [hexec, if_neg (Nat.not_le.2 hfull)]

open Sys2Proof.Machine in
/-- Settles O38: below the limit `addEntry_dict` and `addEntry_cw`; a full dictionary is `addEntry_full`. -/
theorem dictionaryAddGrowsTheWidth : Obligations.DictionaryAddGrowsTheWidth := by
  unfold Obligations.DictionaryAddGrowsTheWidth
  refine fun l p v => ⟨addEntry_full p v l, fun hroom => ⟨_, rfl, ?_⟩⟩
  obtain ⟨hdict, havail⟩ := addEntry_dict p v l hroom
  have hcw := addEntry_cw p v l hroom
  refine ⟨by rw [← havail]; exact addEntry_eq p v l, ?_, fun k hk => ?_, fun hwf => ?_, fun hreach hmax => ?_,
    fun hno => ?_⟩
  · rw [hdict, Dict.read_write, if_pos rfl]
  · rw [hdict, Dict.read_write, if_neg hk]
  · exact hdict ▸ Dict.wf_write _ _ _ hwf
  · rw [hcw, if_pos ⟨hreach, hmax⟩]
  · rw [hcw, if_neg fun h => hno.elim (· h.1) (Nat.not_le.2 h.2)]

open Sys2Proof.Machine in
/-- Settles O39: as much of the stack is emitted as there is room for (`emitStack_eq`). -/
theorem emissionStopsAtThePixelCount : Obligations.EmissionStopsAtThePixelCount := by
  unfold Obligations.EmissionStopsAtThePixelCount
  intro n l hout
  refine ⟨min (n - l.out.length) l.stack.length, ?_, by omega, by omega⟩
  rw [emitStack_eq, ← List.take_eq_take_min]

open Sys2Proof.Machine in
/-- Settles O41: the string is `exists_codeString`'s, and the only one by `Spells.unique`. -/
theorem codesSpellBoundedStrings : Obligations.CodesSpellBoundedStrings := by
  unfold Obligations.CodesSpellBoundedStrings
  intro d clear avail c hd hc
  obtain ⟨root, str, h⟩ := exists_codeString hd hc
  exact ⟨str, h.spells, fun other hother => hother.unique h.spells, h.lengthLo, h.lengthHi, h.pixels⟩
end

section
/-! PROOFS. The course of a run: its start (R222, R342), the loop head (R223, R225, R245), the codes that add no entry
(R227 to R230), the code width (R241), and the end (R237, R324). -/

namespace Sys2Proof.Machine

/-! ### The commands of a run -/

theorem eq_instr_of_mem {c : Caller} {i : Instr}
    (h : (c, i) ∈ [(Caller.decode, Instr.decode), (.deinterlace, .deinterlace), (.compose, .compose)]) :
    i = c.instr := by
  cases c <;> simpa [Caller.instr] using h

/-- Without an error there is nothing for the start of a command to clear (R130). -/
theorem startCommand_of_noError {s : State} (h : s.NoError) : startCommand s = s := by
  have hstart := commandStart_eq s.host.cmd h
  rwa [commandStart, applyWrite_command_self rfl] at hstart

/-! ### The start -/

/-- The counter of runs wraps (R342). -/
theorem add_one_eq_ofNat (n : BitVec 32) : n + 1#32 = BitVec.ofNat 32 ((n.toNat + 1) % 2 ^ 32) :=
  BitVec.eq_of_toNat_eq (by simp [BitVec.toNat_add])

/-- A command that needs the decoded cache of a frame with a payload starts a run, within `PIX_CAPACITY` (R132, R222). -/
theorem fillDecoded_run {s : State} {f : Frame} (c : Caller) (hf : s.frames[s.host.argFrame]? = some f)
    (hdec : f.dec = none) (hraw : f.rawLen ≠ 0) (hfit : Config.fits s.caps.pix f.npix = true) :
    fillDecoded c s = .next (startRun c s) := by
  have hcur := curFrame_eq hf
  rw [fillDecoded_eq c (by rw [npix, hcur]; exact hfit), hcur, hdec]
  exact if_neg hraw

/-! ### The width -/

/-- R241 (2): `2^(CW-1) <= AVAIL`, and below 12 bits `AVAIL < 2^CW`. -/
theorem Lzw.Ok.cw_eq {l : Lzw} {mcs rawLen n : Nat} (hl : l.Ok mcs rawLen n) :
    l.cw = min 12 (Nat.log2 l.avail + 1) := by
  have hcwLo := hl.cwLo
  have hcwHi : l.cw ≤ 12 := hl.cwHi
  have havail : l.avail ≠ 0 := by have := hl.availLo; omega
  have hlo : l.cw - 1 ≤ Nat.log2 l.avail := (Nat.le_log2 havail).2 hl.widthLo
  by_cases hnarrow : l.cw < 12
  · have hhi : Nat.log2 l.avail < l.cw := (Nat.log2_lt havail).2 (hl.widthHi hnarrow)
    omega
  · omega

/-! ### The end -/

/-- The end of a run is its command run on the frame decoded (R237, R324). -/
theorem finishRun_eq_exec {s : State} {f : Frame} {c : Caller} (hrun : s.RunOk c)
    (hf : s.frames[s.host.argFrame]? = some f) :
    exec c.instr (withFrame { f with dec := some (padOut f.npix s.lzw.out) } { s with engine := .idle }) =
      .next (finishRun c s) := by
  have hcur := curFrame_eq hf
  have hnpix : npix s = f.npix := by rw [npix, hcur]
  set d := padOut f.npix s.lzw.out
  set x := withFrame { f with dec := some d } { s with engine := .idle }
  have hx : x.frames[x.host.argFrame]? = some { f with dec := some d } :=
    withFrame_getElem? (s := { s with engine := .idle }) _ hf
  have hcheck : usageError c x = none := usageError_of_frame hrun.doc hx fun hc => hcur ▸ hrun.caller hc
  have hfit : Config.fits x.caps.pix f.npix = true := hnpix ▸ hrun.pix
  have hexec : exec c.instr x = fillDecoded c (startCommand x) :=
    exec_instr_pass hcheck fun _ _ => by rw [curFrame_eq hx]; nofun
  rw [hexec, startCommand_of_noError (s := x) hrun.err, fillDecoded_next hx (.inl rfl) fun _ => hfit, withFrame_self hx,
    finishRun, setDec, modCur_eq_withFrame _ hf, hnpix]
  exact congrArg _ (finishCommand_withWindow c s.result.sel s.result.len s.result.rgba .idle
    (withFrame { f with dec := some d } s))

/-- DECODE shows the cache that the run filled (R132). -/
theorem finishRun_decode {s : State} {f : Frame} (hrun : s.RunOk .decode) (hf : s.frames[s.host.argFrame]? = some f) :
    finishRun .decode s =
      showWindow .dec f.npix (withFrame { f with dec := some (padOut f.npix s.lzw.out) } s) := by
  have hnpix : npix s = f.npix := by rw [npix, curFrame_eq hf]
  rw [finishRun, finishCommand, setDec, modCur_eq_withFrame _ hf, showDec_eq (withFrame_getElem? _ hf) rfl,
    padOut_length hrun.lzw.outLen, hnpix]

/-! ### A root code -/

theorem rootPixel_eq_ofNat (c : Code) : rootPixel c = BitVec.ofNat 8 c.toNat :=
  BitVec.eq_of_toNat_eq (by simp [rootPixel])

end Sys2Proof.Machine

open Sys2Proof.Machine in
/-- Settles O40: the closed form is `Lzw.Ok.cw_eq`; a step that leaves the engine in a run leaves its invariants. -/
theorem widthIsTheLengthOfThePointer : Obligations.WidthIsTheLengthOfThePointer := by
  unfold Obligations.WidthIsTheLengthOfThePointer
  exact ⟨fun l m len n _ _ hl => hl.cw_eq,
    fun s t c hs hstep hengine => (((step_inv hs).of_eq hstep).run c hengine).lzw.cw_eq⟩

open Sys2Proof.Machine in
/-- Settles O14: the loop head by `step_loop`. -/
theorem loopHeadTestsCountThenInput : Obligations.LoopHeadTestsCountThenInput := by
  unfold Obligations.LoopHeadTestsCountThenInput
  intro s c f hengine hended hf
  rw [step_loop hengine hended, npix, curFrame_eq hf]
  exact ⟨fun hcount => if_pos hcount, fun hcount hbits => (if_neg (Nat.not_le.2 hcount)).trans (if_pos hbits)⟩

open Sys2Proof.Machine in
/-- Settles O15: the end of a run is the command run on the decoded frame (`finishRun_eq_exec`); for DECODE it is
`finishRun_decode`. -/
theorem runEndPadsAndFillsTheCache : Obligations.RunEndPadsAndFillsTheCache := by
  unfold Obligations.RunEndPadsAndFillsTheCache
  intro s f c i hengine hrun hended hf hci
  obtain rfl := eq_instr_of_mem hci
  rw [step_finish hengine hended]
  refine ⟨(finishRun_eq_exec hrun hf).symm, ?_⟩
  rintro rfl
  rw [finishRun_decode hrun hf]
  rfl

open Sys2Proof.Machine in
/-- Settles O32: the checks pass, and the command starts a run (`fillDecoded_run`) or is refused
(`fillDecoded_refused`). -/
theorem runStartsFresh : Obligations.RunStartsFresh := by
  unfold Obligations.RunStartsFresh
  intro s f c i hdoc hf hdec hraw hdei hci hinterlace
  obtain rfl := eq_instr_of_mem hci
  have hcheck : usageError c s = none := usageError_of_frame hdoc hf hinterlace
  have hstart : (startCommand s).frames[(startCommand s).host.argFrame]? = some f := hf
  have hnotFolded : (curFrame s).dei ≠ .folded := by rw [curFrame_eq hf, hdei]; nofun
  rw [exec_instr_pass hcheck fun _ hfold => absurd hfold hnotFolded]
  refine ⟨fun hfit => ?_, fun hfit => fillDecoded_refused hstart (by simp [fillsSlot, hdec]) hfit⟩
  rw [fillDecoded_run c hstart hdec hraw hfit, startRun, curFrame_eq hstart, ← add_one_eq_ofNat]
  rfl

open Sys2Proof.Machine in
/-- Settles O33: the state CLEAR leaves, written out. -/
theorem clearCodeResetsTheWidths : Obligations.ClearCodeResetsTheWidths := by
  unfold Obligations.ClearCodeResetsTheWidths
  intro s f hf
  rw [exec, execClear, curFrame_eq hf]
  rfl

open Sys2Proof.Machine in
/-- Settles O34: the states EOI and BADCODE leave are `leaveLoop`'s, written out. -/
theorem endAndBadCodesLeaveTheLoop : Obligations.EndAndBadCodesLeaveTheLoop := by
  unfold Obligations.EndAndBadCodesLeaveTheLoop
  exact fun s code => ⟨rfl, rfl⟩

open Sys2Proof.Machine in
/-- Settles O35: there is room for the pixel, so the emission appends it. -/
theorem firstDataCodeEmitsItself : Obligations.FirstDataCodeEmitsItself := by
  unfold Obligations.FirstDataCodeEmitsItself
  intro s f code hf _ hroom
  have hemit : emit (npix s) s.lzw.out (rootPixel code) = s.lzw.out ++ [rootPixel code] := by
    rw [npix, curFrame_eq hf]
    exact if_pos hroom
  rw [exec, execDataFirst, modLzw, hemit, rootPixel_eq_ofNat]
end

section
/-! PROOFS. The pixels of the two cache slots when a run ends (R237, R244): the decoded ones are emitted or padding, and
a deinterlaced sequence holds pixels of the decoded one, since the passes have no more rows than the frame (R282). -/

namespace Sys2Proof.Machine

/-! ### The rows of the passes -/

/-- Row `k` of a pass is below the height (R282). -/
theorem passRows_row_lt {stride h n r k : Nat} (hk : k < (passRows stride h n r).length) : r + stride * k < h := by
  induction n generalizing r k with
  | zero => cases hk
  | succ n ih =>
    rw [passRows] at hk
    split at hk
    · next hr =>
      cases k with
      | zero => exact hr
      | succ k =>
        have := ih (Nat.lt_of_succ_lt_succ hk)
        rw [Nat.mul_succ]
        omega
    · cases hk

/-- The four passes have no more rows than the frame. -/
theorem rowOrder_length_le (h : Nat) : (rowOrder h).length ≤ h := by
  have hlast {stride r : Nat} (hpos : 0 < (passRows stride h h r).length) :
      r + stride * ((passRows stride h h r).length - 1) < h :=
    passRows_row_lt (Nat.sub_lt hpos Nat.one_pos)
  have h1 := @hlast 8 0
  have h2 := @hlast 8 4
  have h3 := @hlast 4 2
  have h4 := @hlast 2 1
  simp only [rowOrder, Config.passes, List.flatMap_cons, List.flatMap_nil, List.length_append, List.length_nil]
  omega

/-! ### The pixels of a deinterlaced sequence -/

theorem mem_writeAt {out vals : List Byte} {i : Nat} {v : Byte} (hv : v ∈ writeAt out i vals) : v ∈ out ∨ v ∈ vals := by
  simp only [writeAt, List.mem_append] at hv
  obtain (hv | hv) | hv := hv
  · exact .inl (List.mem_of_mem_take hv)
  · exact .inr hv
  · exact .inl (List.mem_of_mem_drop hv)

/-- A placed pixel was in the buffer, or is read from one of the rows' sources. -/
theorem mem_placeRows {rd : Nat → Byte} {w src : Nat} {rows : List Nat} {out : List Byte} {v : Byte}
    (hv : v ∈ placeRows rd w rows src out) : v ∈ out ∨ ∃ i < src + rows.length * w, rd i = v := by
  induction rows generalizing src out with
  | nil => exact .inl hv
  | cons r rs ih =>
    rw [List.length_cons, Nat.succ_mul]
    obtain hv | ⟨i, hi, hread⟩ := ih hv
    · obtain hv | hv := mem_writeAt hv
      · exact .inl hv
      · simp only [sourceRow, List.mem_map, List.mem_range] at hv
        obtain ⟨c, hc, hread⟩ := hv
        exact .inr ⟨src + c, by omega, hread⟩
    · exact .inr ⟨i, by omega, hread⟩

/-- A pixel of the deinterlaced sequence is one of the decoded sequence, or what the buffer held first. -/
theorem mem_deinterlaced {s : State} {d : List Byte} {v : Byte} (hd : d.length = npix s)
    (hv : v ∈ deinterlaced s d) : v ∈ d ∨ v = 0#8 := by
  obtain hv | ⟨i, hi, hread⟩ := mem_placeRows hv
  · exact .inr (List.eq_of_mem_replicate hv)
  · have hrows := Nat.mul_le_mul_right (curFrame s).width.toNat (rowOrder_length_le (curFrame s).height.toNat)
    rw [npix, Frame.npix, Nat.mul_comm] at hd
    have hlt : i < d.length := by omega
    rw [decPixel, List.getElem?_eq_getElem hlt, Option.getD_some] at hread
    exact .inl (hread ▸ List.getElem_mem hlt)

/-! ### The two slots -/

/-- `n` pixels, each below `b`. -/
def PixelsBelow (n b : Nat) (d : List Byte) : Prop := d.length = n ∧ ∀ v ∈ d, v.toNat < b

/-- The first slot holds such pixels, and so does the second if it is valid. -/
structure Frame.SlotsBelow (n b : Nat) (f : Frame) : Prop where
  dec : ∃ d, f.dec = some d ∧ PixelsBelow n b d
  dei : ∀ e, f.dei = .valid e → PixelsBelow n b e

/-- Padding adds pixels 0 (R237). -/
theorem padOut_pixelsBelow {n b : Nat} {out : List Byte} (hb : 0 < b) (hlen : out.length ≤ n)
    (hout : ∀ v ∈ out, v.toNat < b) : PixelsBelow n b (padOut n out) := by
  refine ⟨padOut_length hlen, fun v hv => ?_⟩
  obtain hv | hv := List.mem_append.1 hv
  · exact hout v hv
  · rw [List.eq_of_mem_replicate hv]
    exact hb

theorem fillDei_slotsBelow {s : State} {b : Nat} (hb : 0 < b) (hindex : s.host.argFrame < s.frames.length)
    (h : (curFrame s).SlotsBelow (npix s) b) : (curFrame (fillDei s)).SlotsBelow (npix s) b := by
  unfold fillDei
  split
  · rw [curFrame_modCur _ hindex]
    obtain ⟨d, hdec, hlen, hpixels⟩ := h.dec
    refine ⟨h.dec, fun e he => ?_⟩
    obtain rfl := DeiSlot.valid.inj he
    refine ⟨deinterlaced_length .., fun v hv => ?_⟩
    rw [decOf, hdec, Option.getD_some] at hv
    obtain hv | rfl := mem_deinterlaced hlen hv
    · exact hpixels v hv
    · exact hb
  · exact h
  · exact h

theorem foldDei_slotsBelow {s : State} {n b : Nat} (hindex : s.host.argFrame < s.frames.length)
    (h : (curFrame s).SlotsBelow n b) : (curFrame (foldDei s)).SlotsBelow n b := by
  rw [foldDei, curFrame_modCur _ hindex]
  split
  · next e he => exact ⟨⟨e, rfl, h.dei e he⟩, nofun⟩
  · exact h
  · exact h

/-- Whatever a per-frame command does with a decoded frame, its slots keep pixels below the bound. -/
theorem finishCommand_slotsBelow {s : State} {b : Nat} (c : Caller) (hb : 0 < b)
    (hindex : s.host.argFrame < s.frames.length) (h : (curFrame s).SlotsBelow (npix s) b) :
    (curFrame (finishCommand c s)).SlotsBelow (npix s) b := by
  have hfill := fillDei_slotsBelow hb hindex h
  have hindexFill : (fillDei s).host.argFrame < (fillDei s).frames.length := by
    rw [fillDei_host, (fillDei_sameTable s).length]
    exact hindex
  cases c with
  | decode => exact h
  | deinterlace =>
    simp only [finishCommand, finishDeinterlace]
    split
    · exact hfill
    · exact hfill
    · split
      · exact foldDei_slotsBelow hindexFill hfill
      · exact hfill
  | compose =>
    simp only [finishCommand, finishCompose]
    split
    · exact hfill
    · exact h

/-- A decode fill with pixels below the bound, and what the command then does (R132, R324). -/
theorem finishCommand_setDec_slotsBelow {s : State} {d : List Byte} {b : Nat} (c : Caller) (hb : 0 < b)
    (hindex : s.host.argFrame < s.frames.length) (hempty : (curFrame s).dei = .empty)
    (hd : PixelsBelow (npix s) b d) : (curFrame (finishCommand c (setDec d s))).SlotsBelow (npix s) b := by
  have hcur : curFrame (setDec d s) = { curFrame s with dec := some d } := curFrame_modCur _ hindex
  have hnpix : npix (setDec d s) = npix s := (congrArg Frame.npix hcur :)
  rw [← hnpix] at hd ⊢
  refine finishCommand_slotsBelow c hb (by simpa using hindex) ?_
  rw [hcur]
  exact ⟨⟨d, rfl, hd⟩, fun e he => nomatch hempty.symm.trans he⟩

/-- The slots of the frame when its run ends (R237, R244). -/
theorem finishRun_slotsBelow {s : State} {c : Caller} (hs : s.Inv) (hengine : s.engine = .lzw c) :
    (curFrame (finishRun c s)).SlotsBelow (npix s) (2 ^ (curFrame s).mcs.toNat) := by
  have hrun := hs.run c hengine
  have hpos := Nat.two_pow_pos (curFrame s).mcs.toNat
  exact finishCommand_setDec_slotsBelow c hpos hrun.index (curFrame_dei_of_dec_eq_none hs.frames hrun.slot)
    (padOut_pixelsBelow hpos hrun.lzw.outLen (hrun.lzw.clear ▸ hrun.lzw.outRange))

end Sys2Proof.Machine

open Sys2Proof.Machine in
/-- Settles O42: the slots of the command's frame are `finishRun_slotsBelow`'s. -/
theorem decodedPixelsAreBelowClear : Obligations.DecodedPixelsAreBelowClear := by
  unfold Obligations.DecodedPixelsAreBelowClear
  intro s t f g c hs hengine hended hf hstep hg
  obtain rfl := Host.Outcome.next.inj ((step_finish hengine hended).symm.trans hstep)
  have hhost : (finishRun c s).host = s.host := (finishCommand_commandKept c (setDec (padOut (npix s) s.lzw.out) s)).host
  rw [← hhost] at hg
  have hslots := finishRun_slotsBelow hs hengine
  rw [curFrame_eq hg, npix, curFrame_eq hf] at hslots
  exact ⟨hslots.dec, hslots.dei⟩
end

section
/-! PROOFS. The deinterlacer (R282). A pass is the rows of one residue, so the four passes are the rows of the frame in
another order (`rowOrder_eq`, `rowOrder_perm`); and a placed row is overwritten by no later one
(`placeRows_getElem?_of_getElem?`). -/

namespace Sys2Proof.Machine

/-! ### The order of the rows -/

/-- With fuel for every row from `r` on, a pass takes the rows congruent to `r` (R282). -/
theorem mem_passRows {stride h n r x : Nat} (hstride : 0 < stride) (hfuel : h ≤ r + n) :
    x ∈ passRows stride h n r ↔ r ≤ x ∧ x < h ∧ x % stride = r % stride := by
  induction n generalizing r with
  | zero =>
    simp only [passRows, List.not_mem_nil, false_iff]
    omega
  | succ n ih =>
    rw [passRows]
    split
    · next hr =>
      rw [List.mem_cons, ih (by omega), Nat.add_mod_right]
      constructor
      · rintro (rfl | ⟨hle, hx⟩)
        · exact ⟨Nat.le_refl x, hr, rfl⟩
        · exact ⟨by omega, hx⟩
      · rintro ⟨hle, hlt, hmod⟩
        obtain rfl | hgt := Nat.eq_or_lt_of_le hle
        · exact .inl rfl
        · exact .inr ⟨Nat.ModEq.add_le_of_lt hmod.symm hgt, hlt, hmod⟩
    · simp only [List.not_mem_nil, false_iff]
      omega

/-- A pass goes down the frame. -/
theorem passRows_pairwise_lt {stride h n r : Nat} (hstride : 0 < stride) (hfuel : h ≤ r + n) :
    (passRows stride h n r).Pairwise (· < ·) := by
  induction n generalizing r with
  | zero => exact .nil
  | succ n ih =>
    have hfuel' : h ≤ r + stride + n := by omega
    rw [passRows]
    split
    · refine .cons (fun x hx => ?_) (ih hfuel')
      have := ((mem_passRows hstride hfuel').1 hx).1
      omega
    · exact .nil

/-- The pass that starts at row `r` is the rows of residue `r`, in order (R282). -/
theorem passRows_eq_filter {stride r : Nat} (h : Nat) (hr : r < stride) :
    passRows stride h h r = (List.range h).filter (fun x => x % stride = r) := by
  have hstride := Nat.zero_lt_of_lt hr
  have hfuel := Nat.le_add_left h r
  refine (passRows_pairwise_lt hstride hfuel).eq_of_mem_iff (List.pairwise_lt_range.filter _) fun x => ?_
  simp only [mem_passRows hstride hfuel, Nat.mod_eq_of_lt hr, List.mem_filter, List.mem_range, decide_eq_true_eq]
  exact ⟨And.right, fun ⟨hlt, hmod⟩ => ⟨hmod ▸ Nat.mod_le x stride, hlt, hmod⟩⟩

/-- The four passes in order (R282). -/
theorem rowOrder_eq (h : Nat) :
    rowOrder h = (List.range h).filter (fun r => r % 8 = 0) ++ (List.range h).filter (fun r => r % 8 = 4) ++
      (List.range h).filter (fun r => r % 4 = 2) ++ (List.range h).filter (fun r => r % 2 = 1) := by
  simp [rowOrder, Config.passes, passRows_eq_filter]

/-- Every row of the frame is in a pass: the residues 0 and 4 of 8, 2 of 4 and 1 of 2 cover every number. -/
theorem mem_rowOrder {h r : Nat} : r ∈ rowOrder h ↔ r < h := by
  refine ⟨rowOrder_lt h r, fun hr => ?_⟩
  have hcover : r % 8 = 0 ∨ r % 8 = 4 ∨ r % 4 = 2 ∨ r % 2 = 1 := by omega
  simpa [rowOrder_eq, hr] using hcover

/-- No row is in two passes: the four residues exclude each other. -/
theorem rowOrder_nodup (h : Nat) : (rowOrder h).Nodup := by
  rw [rowOrder_eq]
  have hpass (p : Nat → Bool) : ((List.range h).filter p).Nodup := List.nodup_range.filter p
  refine (((hpass _).append (hpass _) ?_).append (hpass _) ?_).append (hpass _) ?_
  all_goals
    simp only [List.disjoint_left, List.mem_append, List.mem_filter, decide_eq_true_eq]
    omega

/-- The transmitted rows are the rows of the frame in another order. -/
theorem rowOrder_perm (h : Nat) : (rowOrder h).Perm (List.range h) :=
  (List.perm_ext_iff_of_nodup (rowOrder_nodup h) List.nodup_range).2 fun r => by rw [mem_rowOrder, List.mem_range]

/-! ### The place of a row -/

/-- A row of the frame ends inside the buffer. -/
theorem row_end_le {w h r : Nat} (hr : r < h) : r * w + w ≤ w * h := by
  rw [← Nat.succ_mul, Nat.mul_comm w]
  exact Nat.mul_le_mul_right w hr

/-- Two rows do not overlap. -/
theorem row_end_le_of_lt {w q r : Nat} (h : q < r) : q * w + w ≤ r * w := by
  rw [Nat.mul_comm r]
  exact row_end_le h

theorem sourceRow_length (rd : Nat → Byte) (w src : Nat) : (sourceRow rd w src).length = w := by
  rw [sourceRow, List.length_map, List.length_range]

theorem sourceRow_getElem? {rd : Nat → Byte} {w src c : Nat} (hc : c < w) :
    (sourceRow rd w src)[c]? = some (rd (src + c)) := by
  rw [sourceRow, List.getElem?_map, List.getElem?_range hc, Option.map_some]

/-- What a write inside the buffer puts there. -/
theorem writeAt_getElem?_inside {out vals : List Byte} {i c : Nat} (hi : i ≤ out.length) (hc : c < vals.length) :
    (writeAt out i vals)[i + c]? = vals[c]? := by
  have htake : (out.take i).length = i := List.length_take_of_le hi
  rw [writeAt, List.append_assoc, List.getElem?_append_right (by omega), htake, Nat.add_sub_cancel_left,
    List.getElem?_append_left hc]

/-- What a write inside the buffer leaves unchanged. -/
theorem writeAt_getElem?_outside {out vals : List Byte} {i j : Nat} (hi : i ≤ out.length)
    (hj : j < i ∨ i + vals.length ≤ j) : (writeAt out i vals)[j]? = out[j]? := by
  have htake : (out.take i).length = i := List.length_take_of_le hi
  rw [writeAt]
  obtain hj | hj := hj
  · rw [List.append_assoc, List.getElem?_append_left (by omega), List.getElem?_take_of_lt hj]
  · rw [List.getElem?_append_right (by rw [List.length_append]; omega), List.getElem?_drop, List.length_append, htake]
    congr 1
    omega

section
variable {rd : Nat → Byte} {w h src : Nat} {out : List Byte} {rows : List Nat}

theorem writeRow_length {r : Nat} (hr : r < h) (hout : out.length = w * h) :
    (writeAt out (r * w) (sourceRow rd w src)).length = w * h := by
  rw [writeAt_length, hout]
  rw [sourceRow_length, hout]
  exact row_end_le hr

/-- The row that is written holds its source. -/
theorem writeRow_getElem?_same {r c : Nat} (hr : r < h) (hout : out.length = w * h) (hc : c < w) :
    (writeAt out (r * w) (sourceRow rd w src))[r * w + c]? = some (rd (src + c)) := by
  have := row_end_le (w := w) hr
  rw [writeAt_getElem?_inside (by omega) (by rwa [sourceRow_length]), sourceRow_getElem? hc]

/-- Every other row stays. -/
theorem writeRow_getElem?_ne {r q c : Nat} (hr : r < h) (hout : out.length = w * h) (hc : c < w) (hne : q ≠ r) :
    (writeAt out (r * w) (sourceRow rd w src))[q * w + c]? = out[q * w + c]? := by
  have hend := row_end_le (w := w) hr
  refine writeAt_getElem?_outside (by omega) ?_
  rw [sourceRow_length]
  obtain hlt | hgt := Nat.lt_or_gt_of_ne hne
  · have := row_end_le_of_lt (w := w) hlt
    exact .inl (by omega)
  · have := row_end_le_of_lt (w := w) hgt
    exact .inr (by omega)

/-- A row that is not transmitted any more stays as it is. -/
theorem placeRows_getElem?_of_not_mem {q c : Nat} (hrows : ∀ r ∈ rows, r < h) (hout : out.length = w * h) (hc : c < w)
    (hq : q ∉ rows) : (placeRows rd w rows src out)[q * w + c]? = out[q * w + c]? := by
  induction rows generalizing src out with
  | nil => rfl
  | cons r rs ih =>
    obtain ⟨hr, hrs⟩ := List.forall_mem_cons.1 hrows
    obtain ⟨hne, hq⟩ := not_or.1 (mt List.mem_cons.2 hq)
    rw [placeRows, ih hrs (writeRow_length hr hout) hq, writeRow_getElem?_ne hr hout hc hne]

/-- The row transmitted `i`-th stands at its own place: no later row is the same one (R282). -/
theorem placeRows_getElem?_of_getElem? {i r c : Nat} (hrows : ∀ r ∈ rows, r < h) (hnodup : rows.Nodup)
    (hout : out.length = w * h) (hc : c < w) (hi : rows[i]? = some r) :
    (placeRows rd w rows src out)[r * w + c]? = some (rd (src + i * w + c)) := by
  induction rows generalizing src out i with
  | nil => cases hi
  | cons q qs ih =>
    obtain ⟨hq, hqs⟩ := List.forall_mem_cons.1 hrows
    obtain ⟨hlater, hnodup⟩ := List.nodup_cons.1 hnodup
    have hout' := writeRow_length (rd := rd) (src := src) hq hout
    rw [placeRows]
    cases i with
    | zero =>
      obtain rfl := Option.some.inj hi
      rw [placeRows_getElem?_of_not_mem hqs hout' hc hlater, writeRow_getElem?_same hq hout hc, Nat.zero_mul,
        Nat.add_zero]
    | succ i =>
      rw [ih hqs hnodup hout' hi, Nat.succ_mul, Nat.add_assoc src, Nat.add_comm w]

end

end Sys2Proof.Machine

open Sys2Proof.Machine in
/-- Settles O43: the transmitted rows are those of the frame in another order, and each is placed once. -/
theorem deinterlaceReordersTheFourPasses : Obligations.DeinterlaceReordersTheFourPasses := by
  unfold Obligations.DeinterlaceReordersTheFourPasses
  intro h
  refine ⟨(rowOrder_perm h).length_eq.trans List.length_range, rowOrder_nodup h, fun _ => mem_rowOrder, rowOrder_eq h,
    fun rd w => ?_⟩
  have hbuffer : (List.replicate (w * h) 0#8).length = w * h := List.length_replicate
  refine ⟨placeRows_length rd w h _ 0 _ (rowOrder_lt h) hbuffer, fun i r c hi hc => ?_⟩
  rw [deinterlaceRows, placeRows_getElem?_of_getElem? (rowOrder_lt h) (rowOrder_nodup h) hbuffer hc hi, Nat.zero_add]
end


section
/-! PROOFS. What COMPOSE shows of a frame depends on its display sequence, not on the slot that holds it (R283,
R310). -/

namespace Sys2Proof.Machine

section
variable {s t : State} {f : Frame}

/-- A pixel's bytes do not depend on the frame's caches. -/
theorem pixelBytes_withCaches (dec : Option (List Byte)) (dei : DeiSlot) (hf : s.frames[s.host.argFrame]? = some f) :
    pixelBytes (withFrame { f with dec := dec, dei := dei } s) = pixelBytes s := by
  funext v
  simp only [pixelBytes, paletteEntry, transparentIndex, activePalette, curFrame_withFrame _ hf, curFrame_eq hf]
  rfl

/-- Nor does what the window shows of a sequence. -/
theorem composeInto_result_withCaches (seq : List Byte) (dec : Option (List Byte)) (dei : DeiSlot)
    (hf : s.frames[s.host.argFrame]? = some f) :
    (composeInto seq (withFrame { f with dec := dec, dei := dei } s)).result = (composeInto seq s).result := by
  simp only [composeInto, rgbaOf, pixelBytes_withCaches dec dei hf, curFrame_withFrame _ hf, curFrame_eq hf]

/-- COMPOSE of a frame with no slot to fill shows its display sequence (R134). -/
theorem exec_compose_result {d : List Byte} (hexec : exec .compose s = .next t) (hdoc : s.status.docValid = true)
    (hf : s.frames[s.host.argFrame]? = some f) (hd : f.dec = some d)
    (hfull : ¬ (f.interlace = true ∧ f.dei = .empty)) :
    t.result = (composeInto (displaySeq s f d) s).result := by
  have hstart : (startCommand s).frames[(startCommand s).host.argFrame]? = some f := hf
  have hsame : f.composed (startCommand s) d = f := by
    simp only [Frame.composed, if_neg hfull, ← hd]
  rw [show exec .compose s = _ from exec_instr_pass (c := .compose) (usageError_of_frame hdoc hf nofun) nofun,
    fillDecoded_next hstart (.inl hd) fun hfill => absurd (by simpa [fillsSlot, hd] using hfill) hfull, finishCommand,
    finishCompose_withFrame hstart, hsame, withFrame_self hstart] at hexec
  obtain rfl := Host.Outcome.next.inj hexec
  rfl

/-- The frame after the fold: its first slot holds what the second held (R283). -/
def Frame.fold (f : Frame) (e : List Byte) : Frame := { f with dec := some e, dei := .folded }

/-- DEINTERLACE with `OVERWRITE` of a frame whose second slot is full (R133, R283). -/
theorem exec_deinterlace_fold {e : List Byte} (hdoc : s.status.docValid = true) (hover : overwrite s = true)
    (hf : s.frames[s.host.argFrame]? = some f) (hinterlace : f.interlace = true) (hdec : f.dec ≠ none)
    (hdei : f.dei = .valid e) :
    exec .deinterlace s = .next (showWindow .dec e.length (withFrame (f.fold e) (startCommand s))) := by
  obtain ⟨d, hd⟩ := Option.ne_none_iff_exists'.1 hdec
  exact ((deinterlaceFillsShowsOrFolds s f d e hdoc hf hinterlace (.inl hd)).1 (.inr hdei)).2 hover

end

end Sys2Proof.Machine

open Sys2Proof.Machine in
/-- Settles O45: before the fold COMPOSE shows the second slot, after it (`exec_deinterlace_fold`) the first, which then
holds the same sequence; nothing else it reads has changed (`composeInto_result_withCaches`). -/
theorem foldDoesNotChangeTheImage : Obligations.FoldDoesNotChangeTheImage := by
  unfold Obligations.FoldDoesNotChangeTheImage
  intro s t u v f e hdoc hover hf hinterlace hdec hdei ht hu hv
  obtain ⟨d, hd⟩ := Option.ne_none_iff_exists'.1 hdec
  obtain rfl := Host.Outcome.next.inj ((exec_deinterlace_fold hdoc hover hf hinterlace hdec hdei).symm.trans hu)
  have hfolded := withFrame_getElem? (s := startCommand s) (f.fold e) hf
  refine ⟨?_, fun g hg => ?_⟩
  · have hbefore : displaySeq s f d = e := by simp only [displaySeq, hinterlace, hdei]
    have hafter : displaySeq s (f.fold e) e = e := by simp only [displaySeq, Frame.fold, hinterlace]
    have hshown := exec_compose_result (d := e) hv hdoc hfolded rfl (by simp [Frame.fold])
    calc v.result
      _ = (composeInto (displaySeq s (f.fold e) e) (withFrame (f.fold e) s)).result := hshown
      _ = (composeInto (displaySeq s f d) s).result := by
        rw [hbefore, hafter]
        exact composeInto_result_withCaches e (some e) .folded hf
      _ = t.result := (exec_compose_result ht hdoc hf hd (by simp [hdei])).symm
  · obtain rfl := Option.some.inj (hfolded.symm.trans hg)
    rfl
end
